-- ==== Sys2Proof/Word.lean ====
section
/-! DEFINITION. Word types of the HBC: bytes, 32-bit bus words and bit sequences (00_scope.md R11, R12). -/

namespace Sys2Proof

/-- One byte: a symbol, a stream byte, a byte of the SRC or DST buffer. -/
abbrev Byte := BitVec 8

/-- One 32-bit bus word (20_memory.md R72). -/
abbrev Word := BitVec 32

/-- A bit sequence, first bit first (R12). -/
abbrev Bits := List Bool

/-- A word from a natural number, modulo 2^32. -/
abbrev Word.ofNat (n : Nat) : Word := BitVec.ofNat 32 n

end Sys2Proof
end

