-- ==== Sys2Proof/Config.lean ====
section
/-! DEFINITION. What an instance of the HBC fixes (the parameters of 00_scope.md R9 and 93_implementation_defined.md
P1 to P4), the constants of the architecture, and the one source of free values (`ANY` of R13). -/

namespace Sys2Proof

/-- The parameters of an instance: OPEN in R9 and 93_implementation_defined.md P1 to P4.
Every state carries its own (`State.params`), and no step changes them: a statement about every state is a statement
about every instance (assumption log 1). -/
structure Params where
  /-- `SRC_DEPTH`: bytes of the SRC buffer. -/
  srcDepth : Nat
  /-- `DST_DEPTH`: bytes of the DST buffer. -/
  dstDepth : Nat
  /-- `ENGINE_STEPS`: the number of engine steps a command takes. -/
  engineSteps : Nat
  /-- `HBC_BASE`: the system address of byte offset 0 of the block. -/
  hbcBase : Nat
deriving DecidableEq, Repr

namespace Config

/-- `ANY` (R13, U1 to U6): a value the block does not specify. A constant without a body: no proof can learn a value
of it. `w` is the width of the value, `draw` the number of the draw it belongs to (every event that makes something
ANY takes draws never taken before) and `key` the place within the draw (assumption log 2). -/
opaque freeValue (w draw key : Nat) : BitVec w

/-- `CT_ENTRIES` (R9): one code-table entry per byte value. -/
abbrev ctEntries : Nat := 256

/-- `DT_ENTRIES` (R9): as many decode-table entries as `num_symbols` can declare. -/
abbrev dtEntries : Nat := 255

/-- `MAX_SYMBOLS` (R9). -/
abbrev maxSymbols : Nat := 255

/-- `MAX_CODE_LEN` (R9). -/
abbrev maxCodeLen : Nat := 255

/-- The number of byte offsets of the block, `2 ^ ADDR_W` with `ADDR_W` = 22 (R9, 20_memory.md R70). -/
abbrev addressSpace : Nat := 2 ^ 22

/-- Words of CODE in a CT or DT entry (10_state.md R40, R43). -/
abbrev codeWords : Nat := 8

end Config

end Sys2Proof
end

