-- ==== Sys2Proof/Syntax.lean ====
section
/-! DEFINITION. The instructions of the HBC: one constructor per row of spec/opcode_table.json (30_encoding.md R102). -/

namespace Sys2Proof

/-- The command words (CMDW) of 30_encoding.md R101 to R104. The ignored bits of a command word (R103, R104) are no
part of an instruction. -/
inductive Instr where
  /-- NOP: CMD = 000, SRESET = 0 (40_host_access.md R153). -/
  | nop
  /-- ENCODE: CMD = 001, SRESET = 0 (R154). -/
  | encode
  /-- DECODE: CMD = 010, SRESET = 0 (R155). -/
  | decode
  /-- CLEAR_TABLE: CMD = 011, SRESET = 0 (R156). -/
  | clearTable
  /-- RESERVED_CMD: SRESET = 0 and CMD = `cmd`, one of 100, 101, 110, 111 (R158). -/
  | reservedCmd (cmd : BitVec 3)
  /-- SRESET: bit 31 set, CMD not decoded (R104, R157). -/
  | sreset
deriving DecidableEq, Repr

end Sys2Proof
end

