-- ==== Sys2Proof/WellFormed.lean ====
section
/-! DEFINITION. Well-formed instructions and well-formed parameters, as checks that can be evaluated. -/

namespace Sys2Proof

/-- An instruction some command word stands for: the CMD of a reserved command is 1xx (30_encoding.md R102). -/
def Instr.wellFormed : Instr → Bool
  | .nop => true
  | .encode => true
  | .decode => true
  | .clearTable => true
  | .reservedCmd cmd => cmd.getLsbD 2
  | .sreset => true

/-- A buffer depth R9 allows: a multiple of 4 from 4 to 2^20. -/
def depthOk (depth : Nat) : Bool :=
  depth % 4 == 0 && decide (4 ≤ depth) && decide (depth ≤ 2 ^ 20)

/-- Parameters R9 allows: both depths as `depthOk` says and `ENGINE_STEPS` at least 1. -/
def Params.ok (p : Params) : Bool :=
  depthOk p.srcDepth && depthOk p.dstDepth && decide (1 ≤ p.engineSteps)

end Sys2Proof
end

