-- ==== Sys2Proof/Decode.lean ====
section
/-! DEFINITION. Decoding and encoding of command words (30_encoding.md R101 to R104, spec/opcode_table.json). -/

namespace Sys2Proof

/-- The CMD field, bits [2:0] of a command word (R101). -/
def cmdField (w : Word) : BitVec 3 := w.extractLsb' 0 3

/-- The SRESET field, bit 31 of a command word (R101). -/
def sresetField (w : Word) : Bool := w.getLsbD 31

/-- The instruction a CMD value stands for when SRESET = 0 (R102). -/
def decodeCmd (cmd : BitVec 3) : Instr :=
  if cmd = 0#3 then .nop
  else if cmd = 1#3 then .encode
  else if cmd = 2#3 then .decode
  else if cmd = 3#3 then .clearTable
  else .reservedCmd cmd

/-- The instruction of a command word: bit 31 and bits [2:0] are read, bits [30:3] are ignored (R103), and CMD is not
decoded when SRESET = 1 (R104). Total: "Every 32-bit value is a valid write" (R101). -/
def decode (w : Word) : Instr :=
  if sresetField w then .sreset else decodeCmd (cmdField w)

/-- Why bits are no command word: the one way to fail, since every 32-bit value is one (R101). -/
inductive DecodeError where
  /-- More than 32 bits: a command is one 32-bit write (20_memory.md R72). -/
  | widerThanCommandWord
deriving DecidableEq, Repr

/-- Decode the low `nbits` bits of `w`, the bits above them being 0; more than 32 bits are rejected by name. -/
def decodeBits (nbits w : Nat) : Except DecodeError Instr :=
  if nbits ≤ 32 then .ok (decode (BitVec.ofNat 32 (w % 2 ^ nbits))) else .error .widerThanCommandWord

/-- The CMD value of an instruction (R102); 0 where CMD is not decoded (R104). -/
def Instr.cmd : Instr → BitVec 3
  | .nop => 0#3
  | .encode => 1#3
  | .decode => 2#3
  | .clearTable => 3#3
  | .reservedCmd cmd => cmd
  | .sreset => 0#3

/-- The SRESET bit of an instruction (R101). -/
def Instr.sresetBit : Instr → Bool
  | .nop => false
  | .encode => false
  | .decode => false
  | .clearTable => false
  | .reservedCmd _ => false
  | .sreset => true

/-- The command word of an instruction; "software writes 0" to bits [30:3] (R101). -/
def encode (i : Instr) : Word :=
  BitVec.ofBool i.sresetBit ++ 0#28 ++ i.cmd

/-- The mask of an instruction's row of spec/opcode_table.json (R103). -/
def Instr.tableMask : Instr → Word
  | .nop => 0x80000007#32
  | .encode => 0x80000007#32
  | .decode => 0x80000007#32
  | .clearTable => 0x80000007#32
  | .reservedCmd _ => 0x80000004#32
  | .sreset => 0x80000000#32

/-- The match value of an instruction's row of spec/opcode_table.json (R103). -/
def Instr.tableMatch : Instr → Word
  | .nop => 0x00000000#32
  | .encode => 0x00000001#32
  | .decode => 0x00000002#32
  | .clearTable => 0x00000003#32
  | .reservedCmd _ => 0x00000004#32
  | .sreset => 0x80000000#32

/-- The instruction the decoder reads from bits numbered as spec/opcode_table.json numbers them. -/
def decodeTableWord (nbits w : Nat) : Option Instr :=
  match decodeBits nbits w with
  | .ok i => some i
  | .error _ => none

end Sys2Proof
end

