-- ==== Sys2Proof/Machine/Bits.lean ====
section
/-! DEFINITION. Bit sequences, bytes and byte lanes (00_scope.md R12, 20_memory.md R75, R76, R78). -/

namespace Sys2Proof.Machine

/-- `val(s)`: the number whose binary digits, most significant first, are `s` (R12). -/
def bitsVal (s : Bits) : Nat :=
  s.foldl (fun n b => 2 * n + b.toNat) 0

/-- The `n` bits `bit (n-1), ..., bit 0`: the low `n` bits of a value, most significant first (R12). -/
def msbFirst (bit : Nat → Bool) : Nat → Bits
  | 0 => []
  | n + 1 => bit n :: msbFirst bit n

/-- `bits8(x)` (R12). -/
def bits8 (x : Byte) : Bits := msbFirst x.getLsbD 8

/-- `codebits(c, L)` (R12). -/
def codebits (c : BitVec 256) (L : Nat) : Bits := msbFirst c.getLsbD L

/-- Bit `q` of a stream whose bytes are `byte 0, byte 1, ...`: bit `7 - (q mod 8)` of byte `q div 8` (R76). -/
def streamBit (byte : Nat → Byte) (q : Nat) : Bool := (byte (q / 8)).getLsbD (7 - q % 8)

/-- The bytes of a bit sequence, most significant bit first; a last group of fewer than 8 bits is dropped (R76). -/
def bytesOfBits : Bits → List Byte
  | b7 :: b6 :: b5 :: b4 :: b3 :: b2 :: b1 :: b0 :: rest =>
    BitVec.ofNat 8 (bitsVal [b7, b6, b5, b4, b3, b2, b1, b0]) :: bytesOfBits rest
  | _ => []

/-- The stream bits `first .. first + n - 1` of bytes `byte 0, byte 1, ...`. -/
def streamBits (byte : Nat → Byte) (first : Nat) : Nat → Bits
  | 0 => []
  | n + 1 => streamBit byte first :: streamBits byte (first + 1) n

/-- The number of leading one-bits of a bit sequence: how K is read from the marker (30_encoding.md R109). -/
def leadingOnes : Bits → Nat
  | true :: rest => leadingOnes rest + 1
  | _ => 0

/-- The word of four bytes, the first in bits [7:0]: little-endian lanes (R75). -/
def wordOfLanes (b0 b1 b2 b3 : Byte) : Word := b3 ++ b2 ++ b1 ++ b0

/-- Lane `j` of a word: bits `8 j + 7 .. 8 j` (R75). -/
def lane (v : Word) (j : Nat) : Byte := v.extractLsb' (8 * j) 8

/-- Word `w` of a 256-bit CODE: bits `32 w + 31 .. 32 w` (R78). -/
def codeWord (c : BitVec 256) (w : Nat) : Word := c.extractLsb' (32 * w) 32

end Sys2Proof.Machine
end

