-- ==== Sys2Proof/Machine/State.lean ====
section
/-! DEFINITION. The state of the HBC as plain data (10_state.md R20 to R53), what can come from outside it, and the
state right after reset. -/

namespace Sys2Proof.Machine

/-- Why the machine stops. No rule of the spec stops the block: an engine error and a bus error are reports, after
which it goes on (60_exceptions.md R290). Both reasons below are raised by the engine only, in states no run reaches
(`Safety.lean`, assumption log 8), and are safe. -/
inductive Fault where
  /-- An engine phase would read SRC beyond SRC_DEPTH (10_state.md R45). Raised by the phases after ENC_SCAN and
  DEC_HEADER. Safe: it stops where the spec gives no byte. -/
  | srcRange
  /-- The packer would write DST beyond DST_DEPTH (41_bit_stream.md R182 "OPTR < DST_DEPTH is guaranteed"). Raised by
  ENC_EMIT. Safe. -/
  | dstRange
deriving DecidableEq, Repr

/-- Why a command word has no meaning in the model. -/
inductive Refusal where
  /-- Raised by an arm of `exec` whose instruction has no meaning yet; no arm is left that raises it. Safe. -/
  | notModelled (mnemonic : String)
  /-- Raised by `step` for bits the decoder rejects; it rejects no 32-bit word (30_encoding.md R101), so no step
  raises it. Safe. -/
  | undecodable
deriving DecidableEq, Repr

/-- What the places of a memory hold that are not listed. -/
inductive Fill (w : Nat) where
  /-- Every unlisted place holds `v`. -/
  | value (v : BitVec w)
  /-- Every unlisted place holds ANY (00_scope.md R13): a value of its own, drawn in draw `draw`. -/
  | any (draw : Nat)
deriving DecidableEq, Repr

/-- A memory of places of `w` bits, by index: the listed places, indices strictly rising, and what the others hold.
The operations are in Ops.lean, the canonical form is `Memory.wf`. -/
structure Memory (w : Nat) where
  fill : Fill w
  cells : List (Nat × BitVec w)
deriving DecidableEq, Repr

/-- PHASE (10_state.md R49). -/
inductive Phase where
  | idle
  | encScan
  | encEmit
  | decHeader
  | decTable
  | decPayload
  | clear
deriving DecidableEq, Repr

/-- ERROR.CODE by name (60_exceptions.md R291); the numbers are `ErrorCode.toByte`. -/
inductive ErrorCode where
  | none
  | emptyInput
  | alphabetOverflow
  | malformedHeader
  | invalidCode
  | unmappedSymbol
  | badCodeTable
  | dstOverflow
  | srcOverflow
  | illegalCommand
deriving DecidableEq, Repr

/-- The result registers of 10_state.md R38 and R39. -/
structure Results where
  dstLen : Word
  height : BitVec 8
  numSymbols : BitVec 8
  padK : BitVec 3
  tableBits : Word
  payloadBits : Word
deriving DecidableEq, Repr

/-- The result registers at 0. -/
def Results.zero : Results := ⟨0, 0, 0, 0, 0, 0⟩

/-- The register block (10_state.md R23 to R39, R47), less what holds no state of its own: ID, VERSION, SRC_CAP and
DST_CAP are constants (R26 to R28), CTRL holds no value (R29), and STATUS.BUSY is `State.busy`, since PHASE = IDLE
exactly when STATUS.BUSY = 0 (R49). -/
structure Regs where
  /-- STATUS.DONE (R31). -/
  done : Bool
  /-- STATUS.ERR (R32). -/
  err : Bool
  /-- STATUS.REJ (R33). -/
  rej : Bool
  /-- STATUS.LAST_CMD (R34). -/
  lastCmd : BitVec 3
  /-- ERROR.CODE (R35). -/
  errorCode : ErrorCode
  /-- ERROR.DETAIL (R35). -/
  errorDetail : BitVec 8
  /-- ERR_POS (R36). -/
  errPos : Word
  /-- SRC_LEN (R37). -/
  srcLen : Word
  /-- DST_LEN, HEIGHT, NUM_SYMBOLS, PAD_K, TABLE_BITS, PAYLOAD_BITS (R38, R39). -/
  results : Results
  /-- IRQ_EN: bit 0 DONE_IE, bit 1 ERR_IE, bit 2 REJ_IE (R47). -/
  irqEn : BitVec 3
deriving DecidableEq, Repr

/-- The code table CT (10_state.md R40): VALID and LEN by symbol, CODE by words, the word `CT_CODEw` of symbol `s` at
index `8 s + w`. -/
structure CodeTable where
  valid : Memory 1
  len : Memory 8
  code : Memory 32
deriving DecidableEq, Repr

/-- The decode table DT (10_state.md R43), each field by entry. -/
structure DecodeTable where
  valid : Memory 1
  len : Memory 8
  sym : Memory 8
  code : Memory 256
deriving DecidableEq, Repr

/-- The working values of a command (10_state.md R49). -/
structure Work where
  /-- PRESENT, bit `s` for symbol `s`. -/
  present : BitVec 256
  /-- N_SYM. -/
  nSym : Nat
  /-- H. -/
  h : BitVec 8
  /-- K, 0..7. -/
  k : Nat
  /-- TBITS. -/
  tbits : Nat
  /-- PBITS. -/
  pbits : Nat
  /-- NS. -/
  ns : BitVec 8
  /-- START. -/
  start : Nat
  /-- TEND. -/
  tend : Nat
deriving DecidableEq, Repr

/-- The packer (R50): OPTR, ACC and ACC_N (0..7). -/
structure Packer where
  optr : Nat
  acc : BitVec 8
  accN : Nat
deriving DecidableEq, Repr

/-- The unpacker (R51): Q and QLIM. -/
structure Unpacker where
  q : Nat
  qlim : Nat
deriving DecidableEq, Repr

/-- The matcher (R52): MBUF, MSTART and OCNT. -/
structure Matcher where
  mbuf : Bits
  mstart : Nat
  ocnt : Nat
deriving DecidableEq, Repr

/-- The engine's state (R49 to R52). Counters are natural numbers: 00_scope.md R10 says they are 32 bits wide and never
wrap, and `Engine.InRange` (Safety.lean) says they fit (assumption log 6). -/
structure Engine where
  /-- PHASE (R49). -/
  phase : Phase
  work : Work
  packer : Packer
  unpacker : Unpacker
  matcher : Matcher
  /-- The model's own: the engine steps that the running command still takes, of ENGINE_STEPS (R9, R162). -/
  left : Nat
deriving DecidableEq, Repr

/-- A host transaction at the bus port (40_host_access.md R140): the system address, the access size in bytes (a
transaction of a size other than 4 exists, R72) and the data of a write. -/
inductive HostTxn where
  | rd (addr bytes : Nat)
  | wr (addr bytes : Nat) (data : Word)
deriving DecidableEq, Repr

/-- One event that moves the block: a transaction of the host, a step of the engine, a change of the reset input
(10_state.md R20, 70_reset_and_hazards.md R330). -/
inductive Input where
  /-- The host performs a transaction. -/
  | host (t : HostTxn)
  /-- The engine takes a step. -/
  | engine
  /-- The platform asserts `rst` (true) or releases it (false). -/
  | rst (asserted : Bool)
deriving DecidableEq, Repr

/-- OKAY or BUSERR (R140). -/
inductive BusStatus where
  | okay
  | busErr
deriving DecidableEq, Repr

/-- The response to a transaction: its status and, for a read, the data (R140). -/
structure Response where
  status : BusStatus
  data : Option Word
deriving DecidableEq, Repr

/-- The block's ports, as far as they hold state. -/
structure Port where
  /-- The reset input `rst` (R330). -/
  rst : Bool
  /-- The model's own: the events still to come, first one first. Which agent moves next is read here, so every
  interleaving of host and engine (R140, R162) is some list (assumption log 3). -/
  inputs : List Input
  /-- The response to the last transaction; none where the block answered none. -/
  response : Option Response
deriving DecidableEq, Repr

/-- The state of the HBC (10_state.md R20). -/
structure State where
  /-- The instance's parameters; no step changes them. -/
  params : Params
  regs : Regs
  /-- The code table (R40). -/
  ct : CodeTable
  /-- The decode table (R43). -/
  dt : DecodeTable
  /-- The SRC buffer (R45). -/
  src : Memory 8
  /-- The DST buffer (R46). -/
  dst : Memory 8
  engine : Engine
  port : Port
  /-- The model's own: the number of the next draw of free values (assumption log 2). -/
  draw : Nat
deriving DecidableEq, Repr

/-- The register values of 10_state.md R53. -/
def Regs.reset : Regs :=
  { done := false, err := false, rej := false, lastCmd := 0, errorCode := .none, errorDetail := 0, errPos := 0,
    srcLen := 0, results := Results.zero, irqEn := 0 }

/-- CT as R53 leaves it: VALID = 0, LEN and CODE ANY. Takes draws `draw` and `draw + 1`. -/
def CodeTable.reset (draw : Nat) : CodeTable :=
  { valid := ⟨.value 0, []⟩, len := ⟨.any draw, []⟩, code := ⟨.any (draw + 1), []⟩ }

/-- DT as R53 leaves it: VALID = 0, LEN, SYM and CODE ANY. Takes draws `draw` to `draw + 2`. -/
def DecodeTable.reset (draw : Nat) : DecodeTable :=
  { valid := ⟨.value 0, []⟩, len := ⟨.any draw, []⟩, sym := ⟨.any (draw + 1), []⟩, code := ⟨.any (draw + 2), []⟩ }

/-- The engine right after power-on. R53 gives PHASE = IDLE and leaves every other register ANY; the model names 0
for them (DESIGN CHOICE, assumption log 5). -/
def Engine.reset : Engine :=
  { phase := .idle
    work := { present := 0, nSym := 0, h := 0, k := 0, tbits := 0, pbits := 0, ns := 0, start := 0, tend := 0 }
    packer := { optr := 0, acc := 0, accN := 0 }
    unpacker := { q := 0, qlim := 0 }
    matcher := { mbuf := [], mstart := 0, ocnt := 0 }
    left := 0 }

/-- The parameters `State.reset` names: the depths spec/95_test_vectors.md assumes unless it says otherwise, one engine
step a command and base address 0 (DESIGN CHOICE, assumption log 1). -/
def Params.reset : Params :=
  { srcDepth := 4096, dstDepth := 4096, engineSteps := 1, hbcBase := 0 }

/-- The machine right after reset (10_state.md R53, 70_reset_and_hazards.md R331): `rst` is released and no event is
waiting (R89 "the block starts in PHASE = IDLE and waits for a host command"). -/
def State.reset : State :=
  { params := Params.reset
    regs := Regs.reset
    ct := CodeTable.reset 0
    dt := DecodeTable.reset 2
    src := ⟨.any 5, []⟩
    dst := ⟨.any 6, []⟩
    engine := Engine.reset
    port := { rst := false, inputs := [], response := none }
    draw := 7 }

end Sys2Proof.Machine
end

