-- ==== Sys2Proof/Machine/Ops.lean ====
section
/-! DEFINITION. The named operations over memories and registers, and the events every command is made of: starting,
completing, ending in an error, being dropped, reset. -/

namespace Sys2Proof.Machine

/-! ## Memories -/

/-- The listed value at index `k`, if it is listed. -/
def lookupCell {w : Nat} (k : Nat) : List (Nat × BitVec w) → Option (BitVec w)
  | [] => none
  | (k', v) :: rest => if k = k' then some v else lookupCell k rest

/-- List `v` at index `k`, keeping the indices rising. -/
def insertCell {w : Nat} (k : Nat) (v : BitVec w) : List (Nat × BitVec w) → List (Nat × BitVec w)
  | [] => [(k, v)]
  | (k', v') :: rest =>
    if k < k' then (k, v) :: (k', v') :: rest
    else if k = k' then (k, v) :: rest
    else (k', v') :: insertCell k v rest

/-- Take index `k` off the list, wherever it stands. -/
def eraseCell {w : Nat} (k : Nat) : List (Nat × BitVec w) → List (Nat × BitVec w)
  | [] => []
  | (k', v') :: rest => if k = k' then eraseCell k rest else (k', v') :: eraseCell k rest

/-- What an unlisted place holds: the one definition of it (10_state.md R53 for the places reset leaves ANY, assumption
log 4). -/
def Fill.at {w : Nat} (f : Fill w) (k : Nat) : BitVec w :=
  match f with
  | .value v => v
  | .any draw => Config.freeValue w draw k

/-- Read the place at index `k`. -/
def Memory.read {w : Nat} (m : Memory w) (k : Nat) : BitVec w :=
  match lookupCell k m.cells with
  | some v => v
  | none => m.fill.at k

/-- Write the place at index `k`: a value that unlisted places hold takes the index off the list. -/
def Memory.write {w : Nat} (m : Memory w) (k : Nat) (v : BitVec w) : Memory w :=
  { m with cells := if m.fill = .value v then eraseCell k m.cells else insertCell k v m.cells }

/-- Write within a memory of `size` places; there is no place beyond. -/
def Memory.writeWithin {w : Nat} (size : Nat) (m : Memory w) (k : Nat) (v : BitVec w) : Memory w :=
  if k < size then m.write k v else m

/-- Write consecutive places from index `k` on. -/
def Memory.writeList {w : Nat} (size : Nat) (m : Memory w) (k : Nat) : List (BitVec w) → Memory w
  | [] => m
  | v :: rest => Memory.writeList size (m.writeWithin size k v) (k + 1) rest

/-- Every place ANY, by draw `draw`. -/
def Memory.anyAll {w : Nat} (draw : Nat) : Memory w := ⟨.any draw, []⟩

/-- Every place 0. -/
def Memory.zeroAll {w : Nat} : Memory w := ⟨.value 0, []⟩

/-- Indices rise strictly, starting at `first` or later and below `size`. -/
def risingFrom {w : Nat} (first size : Nat) : List (Nat × BitVec w) → Bool
  | [] => true
  | (k, _) :: rest => decide (first ≤ k) && decide (k < size) && risingFrom (k + 1) size rest

/-- No listed value is what an unlisted place holds. An unlisted ANY place holds no listed value: it is not listed
because nothing has written it since it became ANY. -/
def noneFill {w : Nat} (f : Fill w) (cells : List (Nat × BitVec w)) : Bool :=
  cells.all fun c => !decide (f = .value c.2)

/-- The canonical form of a memory of `size` places. -/
def Memory.wf {w : Nat} (size : Nat) (m : Memory w) : Bool :=
  risingFrom 0 size m.cells && noneFill m.fill m.cells

/-! ## Parts of the state -/

def State.withRegs (s : State) (r : Regs) : State := { s with regs := r }
def State.withCt (s : State) (ct : CodeTable) : State := { s with ct := ct }
def State.withDt (s : State) (dt : DecodeTable) : State := { s with dt := dt }
def State.withSrc (s : State) (m : Memory 8) : State := { s with src := m }
def State.withDst (s : State) (m : Memory 8) : State := { s with dst := m }
def State.withEngine (s : State) (e : Engine) : State := { s with engine := e }
def State.withPhase (s : State) (p : Phase) : State := s.withEngine { s.engine with phase := p }
def State.withWork (s : State) (w : Work) : State := s.withEngine { s.engine with work := w }
def State.withPacker (s : State) (p : Packer) : State := s.withEngine { s.engine with packer := p }
def State.withUnpacker (s : State) (u : Unpacker) : State := s.withEngine { s.engine with unpacker := u }
def State.withMatcher (s : State) (m : Matcher) : State := s.withEngine { s.engine with matcher := m }
def State.withLeft (s : State) (n : Nat) : State := s.withEngine { s.engine with left := n }
def State.withPort (s : State) (p : Port) : State := { s with port := p }
def State.withDraw (s : State) (n : Nat) : State := { s with draw := n }

/-- Give the bus response to the transaction of this step (40_host_access.md R140). -/
def State.respond (s : State) (status : BusStatus) (data : Option Word) : State :=
  s.withPort { s.port with response := some ⟨status, data⟩ }

/-- OKAY without data: the response to a write. -/
def State.okay (s : State) : State := s.respond .okay none

/-- STATUS.BUSY: PHASE ≠ IDLE (10_state.md R30, R49). -/
def State.busy (s : State) : Bool :=
  match s.engine.phase with
  | .idle => false
  | .encScan => true
  | .encEmit => true
  | .decHeader => true
  | .decTable => true
  | .decPayload => true
  | .clear => true

/-- The running command is DECODE. -/
def Phase.decoding : Phase → Bool
  | .idle => false
  | .encScan => false
  | .encEmit => false
  | .decHeader => true
  | .decTable => true
  | .decPayload => true
  | .clear => false

/-! ## The tables -/

/-- CT after CLEAR_TABLE (40_host_access.md R156). -/
def CodeTable.cleared : CodeTable :=
  { valid := Memory.zeroAll, len := Memory.zeroAll, code := Memory.zeroAll }

/-- DT with every field of every entry 0. -/
def DecodeTable.cleared : DecodeTable :=
  { valid := Memory.zeroAll, len := Memory.zeroAll, sym := Memory.zeroAll, code := Memory.zeroAll }

/-- DT with every field ANY (R161), by draws `draw` to `draw + 3`. -/
def DecodeTable.any (draw : Nat) : DecodeTable :=
  { valid := Memory.anyAll draw, len := Memory.anyAll (draw + 1), sym := Memory.anyAll (draw + 2),
    code := Memory.anyAll (draw + 3) }

/-- Store entry `e` (43_decode.md R262). -/
def DecodeTable.store (dt : DecodeTable) (e : Nat) (len : BitVec 8) (code : BitVec 256) (sym : BitVec 8) : DecodeTable :=
  { valid := dt.valid.writeWithin Config.dtEntries e 1
    len := dt.len.writeWithin Config.dtEntries e len
    sym := dt.sym.writeWithin Config.dtEntries e sym
    code := dt.code.writeWithin Config.dtEntries e code }

/-! ## The engine between commands -/

/-- A bit sequence of 0 to 255 bits, ANY. -/
def anyBits (draw : Nat) : Bits :=
  (List.range (Config.freeValue 8 draw 0).toNat).map fun i => (Config.freeValue 255 draw 1).getLsbD i

/-- The engine with PHASE = IDLE and every working register ANY within its width (10_state.md R53,
93_implementation_defined.md U4 "after reset and between commands"), by draw `draw`. -/
def Engine.unspecified (draw : Nat) : Engine :=
  { phase := .idle
    work :=
      { present := Config.freeValue 256 draw 2
        nSym := (Config.freeValue 32 draw 3).toNat
        h := Config.freeValue 8 draw 4
        k := (Config.freeValue 3 draw 5).toNat
        tbits := (Config.freeValue 32 draw 6).toNat
        pbits := (Config.freeValue 32 draw 7).toNat
        ns := Config.freeValue 8 draw 8
        start := (Config.freeValue 32 draw 9).toNat
        tend := (Config.freeValue 32 draw 10).toNat }
    packer :=
      { optr := (Config.freeValue 32 draw 11).toNat
        acc := Config.freeValue 8 draw 12
        accN := (Config.freeValue 3 draw 13).toNat }
    unpacker :=
      { q := (Config.freeValue 32 draw 14).toNat
        qlim := (Config.freeValue 32 draw 15).toNat }
    matcher :=
      { mbuf := anyBits draw
        mstart := (Config.freeValue 32 draw 16).toNat
        ocnt := (Config.freeValue 32 draw 17).toNat }
    left := 0 }

/-! ## Command start, refusal and completion -/

/-- Drop a write or a command because the engine is busy: STATUS.REJ <- 1 and nothing else (40_host_access.md R143,
R159). -/
def State.reject (s : State) : State := s.withRegs { s.regs with rej := true }

/-- `StartCommand(c, phase)` (R152). -/
def State.startCommand (s : State) (c : BitVec 3) (phase : Phase) : State :=
  (s.withRegs
    { s.regs with
      done := false, err := false, lastCmd := c, errorCode := .none, errorDetail := 0, errPos := 0,
      results := Results.zero }).withEngine
    { s.engine with phase := phase, left := s.params.engineSteps }

/-- A command that starts when the engine is idle and is dropped when it is busy (R152, R159). -/
def State.issue (s : State) (c : BitVec 3) (phase : Phase) : State :=
  if s.busy then s.reject else s.startCommand c phase

/-- `RefuseReserved(c)` (R158). -/
def State.refuseReserved (s : State) (c : BitVec 3) : State :=
  s.withRegs
    { s.regs with
      done := true, err := true, lastCmd := c, errorCode := .illegalCommand, errorDetail := 0, errPos := 0,
      results := Results.zero }

/-- Successful completion (R160): the results in place, ERROR = ERR_POS = 0, DONE <- 1, PHASE <- IDLE. Between
commands the working registers are ANY (93_implementation_defined.md U4). -/
def State.complete (s : State) (r : Results) : State :=
  ((s.withRegs
    { s.regs with done := true, errorCode := .none, errorDetail := 0, errPos := 0, results := r }).withEngine
    (Engine.unspecified s.draw)).withDraw (s.draw + 1)

/-- `E(detail, pos)` of a `raise` (00_scope.md R13). -/
structure EngineError where
  code : ErrorCode
  detail : BitVec 8
  pos : Nat
deriving DecidableEq, Repr

/-- Error entry, the one operation every engine error takes (R161, 60_exceptions.md R305): what it records, DST ANY and,
for DECODE, DT ANY. -/
def State.fail (s : State) (e : EngineError) : State :=
  let recorded := s.withRegs
    { s.regs with
      done := true, err := true, errorCode := e.code, errorDetail := e.detail, errPos := Word.ofNat e.pos,
      results := Results.zero }
  let dt := if s.engine.phase.decoding then DecodeTable.any (s.draw + 2) else s.dt
  (((recorded.withDst (Memory.anyAll (s.draw + 1))).withDt dt).withEngine
    (Engine.unspecified s.draw)).withDraw (s.draw + 6)

/-! ## Reset -/

/-- Reset, by `rst` or by SRESET (70_reset_and_hazards.md R330, R331): every state element takes its value of
10_state.md R53 in one event, and what R53 leaves ANY is drawn anew. The parameters, the ports and the draw counter
are no state elements of the block. -/
def State.resetEffect (s : State) : State :=
  { s with
    regs := Regs.reset
    ct := CodeTable.reset (s.draw + 1)
    dt := DecodeTable.reset (s.draw + 3)
    src := Memory.anyAll (s.draw + 6)
    dst := Memory.anyAll (s.draw + 7)
    engine := Engine.unspecified s.draw
    draw := s.draw + 8 }

end Sys2Proof.Machine
end

