-- ==== Sys2Proof/Machine/Operands.lean ====
section
/-! DEFINITION. How commands read their operands: the message or stream in SRC, the code words in CT, the entries in DT
(10_state.md R40 to R45; 30_encoding.md R117; 41_bit_stream.md R180, R191, R192). -/

namespace Sys2Proof.Machine

/-! ## The SRC buffer -/

/-- The `n` bytes of a memory from index `i` on. -/
def Memory.readList {w : Nat} (m : Memory w) (i : Nat) : Nat → List (BitVec w)
  | 0 => []
  | n + 1 => m.read i :: Memory.readList m (i + 1) n

/-- `SRC[0..SRC_LEN)`: the message of ENCODE, the stream of DECODE (10_state.md R45). -/
def State.message (s : State) : List Byte := s.src.readList 0 s.regs.srcLen.toNat

/-- `BitAt(SRC, q)` (41_bit_stream.md R180). -/
def State.bitAt (s : State) (q : Nat) : Bool := streamBit s.src.read q

/-! ## The code table -/

/-- `CT[s].VALID` (10_state.md R40). -/
def CodeTable.isValid (ct : CodeTable) (sym : Nat) : Bool := (ct.valid.read sym).getLsbD 0

/-- `CT[s].LEN` (R40). -/
def CodeTable.lenOf (ct : CodeTable) (sym : Nat) : Nat := (ct.len.read sym).toNat

/-- The word CT_CODEw of entry `sym` (R40). -/
def CodeTable.wordOf (ct : CodeTable) (sym w : Nat) : Word := ct.code.read (Config.codeWords * sym + w)

/-- Bit `j` of `CT[s].CODE`: bit `j mod 32` of CT_CODEw with w = `j div 32` (R40, 20_memory.md R78). -/
def CodeTable.codeBit (ct : CodeTable) (sym j : Nat) : Bool := (ct.wordOf sym (j / 32)).getLsbD (j % 32)

/-- `CT[s].CODE` as one 256-bit value, the sum of CT_CODEw x 2^(32 w) (30_encoding.md R117). -/
def CodeTable.codeValue (ct : CodeTable) (sym : Nat) : BitVec 256 :=
  ct.wordOf sym 7 ++ ct.wordOf sym 6 ++ ct.wordOf sym 5 ++ ct.wordOf sym 4 ++ ct.wordOf sym 3 ++ ct.wordOf sym 2
    ++ ct.wordOf sym 1 ++ ct.wordOf sym 0

/-- The code word of a symbol: the LEN low bits of CODE, most significant first (10_state.md R41, 30_encoding.md
R117). -/
def CodeTable.codeBits (ct : CodeTable) (sym : Nat) : Bits := msbFirst (ct.codeBit sym) (ct.lenOf sym)

/-- `Lookup(s)`: VALID and LEN; CODE is read bit by bit (41_bit_stream.md R191). -/
def CodeTable.lookup (ct : CodeTable) (sym : Byte) : Bool × Nat := (ct.isValid sym.toNat, ct.lenOf sym.toNat)

/-! ## The present set -/

/-- The set of the bytes of a message, bit `s` for symbol `s` (42_encode.md R212). -/
def presentSet (m : List Byte) : BitVec 256 :=
  m.foldl (fun p b => p ||| BitVec.twoPow 256 b.toNat) 0

/-- The symbols of a present set, ascending. -/
def symbolsOf (p : BitVec 256) : List Nat := (List.range Config.ctEntries).filter fun x => p.getLsbD x

/-- The symbols whose entries are serialised, in ascending order of LEN and then of symbol (42_encode.md R216, R222). -/
def tableOrder (ct : CodeTable) (symbols : List Nat) : List Nat :=
  (List.range' 1 Config.maxCodeLen).flatMap fun L => symbols.filter fun x => ct.lenOf x == L

/-! ## The decode table -/

/-- `DT[e].VALID` (10_state.md R43). -/
def DecodeTable.isValid (dt : DecodeTable) (e : Nat) : Bool := (dt.valid.read e).getLsbD 0

/-- Entry `e` is the code word `buf`: `DT[e].LEN = |buf|` and `DT[e].CODE = val(buf)` (41_bit_stream.md R192). -/
def DecodeTable.isCode (dt : DecodeTable) (buf : Bits) (e : Nat) : Bool :=
  (dt.len.read e).toNat == buf.length && (dt.code.read e).toNat == bitsVal buf

/-- `Match(buf)`: the lowest index below `n` of an entry that is the code word `buf` (R192). -/
def DecodeTable.matchCode (dt : DecodeTable) (n : Nat) (buf : Bits) : Option Nat :=
  (List.range n).find? (dt.isCode buf)

end Sys2Proof.Machine
end

