-- ==== Sys2Proof/Machine/Packer.lean ====
section
/-! DEFINITION. The encoder's output stage (41_bit_stream.md R181 to R186). -/

namespace Sys2Proof.Machine

/-- `PackInit()` (R181). -/
def State.packInit (s : State) : State := s.withPacker ⟨0, 0, 0⟩

/-- ACC with one more bit: `((ACC << 1) | b) & 0xFF` (R182). -/
def accWith (acc : Byte) (b : Bool) : Byte := acc <<< 1 ||| BitVec.setWidth 8 (BitVec.ofBool b)

/-- `PutBit(b)` (R182). DST has no byte beyond DST_DEPTH to write; ENC_EMIT faults where OPTR passes it. -/
def State.putBit (s : State) (b : Bool) : State :=
  let acc := accWith s.engine.packer.acc b
  if s.engine.packer.accN + 1 = 8 then
    (s.withDst (s.dst.writeWithin s.params.dstDepth s.engine.packer.optr acc)).withPacker
      ⟨s.engine.packer.optr + 1, 0, 0⟩
  else s.withPacker ⟨s.engine.packer.optr, acc, s.engine.packer.accN + 1⟩

/-- `PutBit` over a bit sequence, first bit first. -/
def State.putBits (s : State) (bits : Bits) : State := bits.foldl State.putBit s

/-- `PutByte(x)` (R183). -/
def State.putByte (s : State) (x : Byte) : State := s.putBits (bits8 x)

/-- `PutCode(CT[sym].CODE, CT[sym].LEN)` (R184). -/
def State.putCode (s : State) (sym : Nat) : State := s.putBits (s.ct.codeBits sym)

/-- The bits of `PutUnary(L)`: `L` one-bits, then a zero-bit (R185). -/
def unaryBits (L : Nat) : Bits := List.replicate L true ++ [false]

/-- `PutUnary(L)` (R185). -/
def State.putUnary (s : State) (L : Nat) : State := s.putBits (unaryBits L)

end Sys2Proof.Machine
end

