-- ==== Sys2Proof/Machine/Encoder.lean ====
section
/-! DEFINITION. ENCODE: its start (40_host_access.md R154) and the phases ENC_SCAN and ENC_EMIT the engine then runs
(42_encode.md R210 to R225). -/

namespace Sys2Proof.Machine

/-- ENCODE (R154): `StartCommand(001, ENC_SCAN)`; the engine's steps (Engine.lean) then run the encoder. -/
def execEncode (s : State) : Host.Outcome State Fault Refusal := .next (s.issue 1#3 .encScan)

/-- What one phase of a command comes to. -/
inductive PhaseResult where
  /-- The next phase is set. -/
  | goOn (s : State)
  /-- The command is done, with these result registers. -/
  | finish (r : Results) (s : State)
  /-- `raise E(detail, pos)`. -/
  | raise (e : EngineError)
  /-- The phase would leave a buffer. -/
  | fault (f : Fault)
deriving DecidableEq, Repr

/-- The first failing byte of a message from index `i` on, in message order: unmapped, or of an empty code word
(42_encode.md R213). -/
def lookupError (ct : CodeTable) (i : Nat) : List Byte → Option EngineError
  | [] => none
  | b :: rest =>
    match ct.lookup b with
    | (false, _) => some ⟨.unmappedSymbol, 0, i⟩
    | (true, 0) => some ⟨.badCodeTable, 0, i⟩
    | (true, _ + 1) => lookupError ct (i + 1) rest

/-- `max` of LEN over the present symbols (R214). -/
def maxLen (ct : CodeTable) (symbols : List Nat) : Nat := symbols.foldl (fun h x => max h (ct.lenOf x)) 0

/-- The sum of LEN over a message (R215). -/
def payloadLength (ct : CodeTable) (m : List Byte) : Nat := (m.map fun b => ct.lenOf b.toNat).sum

/-- The sum of `2 x LEN + 9` over the present symbols (R217). -/
def tableLength (ct : CodeTable) (symbols : List Nat) : Nat := (symbols.map fun x => 2 * ct.lenOf x + 9).sum

/-- The padding count of a body of `n` bits (R218). -/
def padCount (n : Nat) : Nat := (8 - n % 8) % 8

/-- NOUT (R219), from the working registers. -/
def Work.nout (w : Work) : Nat := 3 + (w.tbits + w.pbits + w.k) / 8

/-- The marker byte of `k` padding bits (30_encoding.md R108). -/
def markerByte (k : Nat) : Byte := (0xFF#8) <<< (8 - k)

/-- The working registers that ENC_SCAN sets (R212, R214, R215, R217, R218). -/
def State.scanned (s : State) : Work :=
  let m := s.message
  let present := presentSet m
  let symbols := symbolsOf present
  let tbits := tableLength s.ct symbols
  let pbits := payloadLength s.ct m
  { s.engine.work with
    present := present, nSym := symbols.length, h := BitVec.ofNat 8 (maxLen s.ct symbols), tbits := tbits,
    pbits := pbits, k := padCount (tbits + pbits) }

/-- Phase ENC_SCAN: every check, in the order of R211, R212, R213 and R219, and the lengths. -/
def State.encScan (s : State) : PhaseResult :=
  if s.params.srcDepth < s.regs.srcLen.toNat then .raise ⟨.srcOverflow, 0, 0⟩
  else if s.regs.srcLen.toNat = 0 then .raise ⟨.emptyInput, 0, 0⟩
  else if Config.maxSymbols < s.scanned.nSym then .raise ⟨.alphabetOverflow, 0, 0⟩
  else
    match lookupError s.ct 0 s.message with
    | some e => .raise e
    | none =>
      if s.params.dstDepth < s.scanned.nout then .raise ⟨.dstOverflow, 0, s.scanned.nout⟩
      else .goOn ((s.withWork s.scanned).withPhase .encEmit)

/-- Header and marker (R220, R221). -/
def State.emitHeader (s : State) : State :=
  ((s.packInit.putByte s.engine.work.h).putByte (BitVec.ofNat 8 s.engine.work.nSym)).putByte
    (markerByte s.engine.work.k)

/-- One table entry (R222): the length in unary, the code word, the symbol. -/
def State.emitEntry (s : State) (sym : Nat) : State :=
  ((s.putUnary (s.ct.lenOf sym)).putCode sym).putByte (BitVec.ofNat 8 sym)

/-- The lookup table (R222). -/
def State.emitTable (s : State) : State :=
  (tableOrder s.ct (symbolsOf s.engine.work.present)).foldl State.emitEntry s

/-- The payload (R223). -/
def State.emitPayload (s : State) (m : List Byte) : State := m.foldl (fun t b => t.putCode b.toNat) s

/-- The padding (R224). -/
def State.emitPadding (s : State) : State := s.putBits (List.replicate s.engine.work.k true)

/-- The result registers of a successful ENCODE (R225). -/
def Work.encodeResults (w : Work) : Results :=
  { dstLen := Word.ofNat w.nout
    height := w.h
    numSymbols := BitVec.ofNat 8 w.nSym
    padK := BitVec.ofNat 3 w.k
    tableBits := Word.ofNat w.tbits
    payloadBits := Word.ofNat w.pbits }

/-- Phase ENC_EMIT (R220 to R225). -/
def State.encEmit (s : State) : PhaseResult :=
  if s.params.srcDepth < s.regs.srcLen.toNat then .fault .srcRange
  else
    let emitted := (s.emitHeader.emitTable.emitPayload s.message).emitPadding
    if s.params.dstDepth < emitted.engine.packer.optr then .fault .dstRange
    else .finish s.engine.work.encodeResults emitted

end Sys2Proof.Machine
end

