-- ==== Sys2Proof/Machine/Control.lean ====
section
/-! DEFINITION. NOP, CLEAR_TABLE, the reserved commands and SRESET (40_host_access.md R153, R156, R157, R158). -/

namespace Sys2Proof.Machine

/-- NOP: no state changes, also while busy (R153). -/
def execNop (s : State) : Host.Outcome State Fault Refusal := .next s

/-- CLEAR_TABLE (R156): `StartCommand(011, CLEAR)`; the table is cleared at completion, by phase CLEAR. -/
def execClearTable (s : State) : Host.Outcome State Fault Refusal := .next (s.issue 3#3 .clear)

/-- Phase CLEAR (R156): every CT entry 0, all result registers 0. -/
def State.clearPhase (s : State) : PhaseResult := .finish Results.zero (s.withCt CodeTable.cleared)

/-- A reserved command (R158): refused with ILLEGAL_COMMAND when idle, dropped when busy (R159). -/
def execReservedCmd (cmd : BitVec 3) (s : State) : Host.Outcome State Fault Refusal :=
  .next (if s.busy then s.reject else s.refuseReserved cmd)

/-- SRESET (R157): the reset of 70_reset_and_hazards.md R331, also while busy. -/
def execSreset (s : State) : Host.Outcome State Fault Refusal := .next s.resetEffect

end Sys2Proof.Machine
end

