-- ==== Sys2Proof/Machine/Unpacker.lean ====
section
/-! DEFINITION. The decoder's input stage (41_bit_stream.md R187 to R190). -/

namespace Sys2Proof.Machine

/-- `UnpackInit(q0, qlim)` (R187). -/
def State.unpackInit (s : State) (q0 qlim : Nat) : State :=
  s.withUnpacker ⟨q0, qlim⟩

/-- `Q <- Q + n`. -/
def State.advance (s : State) (n : Nat) : State :=
  s.withUnpacker { s.engine.unpacker with q := s.engine.unpacker.q + n }

/-- `GetBit()`; none is EXHAUSTED (R188). -/
def State.getBit (s : State) : Option Bool × State :=
  if s.engine.unpacker.qlim ≤ s.engine.unpacker.q then (none, s)
  else (some (s.bitAt s.engine.unpacker.q), s.advance 1)

/-- What `GetUnary` returns (R189). -/
inductive UnaryResult where
  | len (L : Nat)
  | exhausted
  | tooLong
deriving DecidableEq, Repr

/-- The loop of `GetUnary`: `L` one-bits counted, the first argument short of the limit 255 (R189). -/
def State.getUnaryFrom : Nat → Nat → State → UnaryResult × State
  | 0, L, s =>
    match s.getBit with
    | (none, s') => (.exhausted, s')
    | (some false, s') => (.len L, s')
    | (some true, s') => (.tooLong, s')
  | more + 1, L, s =>
    match s.getBit with
    | (none, s') => (.exhausted, s')
    | (some false, s') => (.len L, s')
    | (some true, s') => State.getUnaryFrom more (L + 1) s'

/-- `GetUnary()` (R189). -/
def State.getUnary (s : State) : UnaryResult × State := State.getUnaryFrom Config.maxCodeLen 0 s

/-- `GetBits(L)`; none is EXHAUSTED, with Q left unchanged (R190). -/
def State.getBits (s : State) (L : Nat) : Option Nat × State :=
  if s.engine.unpacker.qlim < s.engine.unpacker.q + L then (none, s)
  else (some (bitsVal (streamBits s.src.read s.engine.unpacker.q L)), s.advance L)

end Sys2Proof.Machine
end

