-- ==== Sys2Proof/Machine/Decoder.lean ====
section
/-! DEFINITION. DECODE: its start (40_host_access.md R155) and the phases DEC_HEADER, DEC_TABLE and DEC_PAYLOAD the
engine then runs (43_decode.md R250 to R268). -/

namespace Sys2Proof.Machine

/-- DECODE (R155): `StartCommand(010, DEC_HEADER)`; the engine's steps (Engine.lean) then run the decoder. -/
def execDecode (s : State) : Host.Outcome State Fault Refusal := .next (s.issue 2#3 .decHeader)

/-- `MALFORMED_HEADER(detail, pos)` (60_exceptions.md R294). -/
def malformed (detail : BitVec 8) (pos : Nat) : EngineError := ⟨.malformedHeader, detail, pos⟩

/-- `K` as the decoder reads it from the marker (43_decode.md R255, 30_encoding.md R109). -/
def markerCount (marker : Byte) : Nat := leadingOnes (bits8 marker)

/-- Phase DEC_HEADER (R251 to R258). -/
def State.decHeader (s : State) : PhaseResult :=
  let n := s.regs.srcLen.toNat
  let k := markerCount (s.src.read 2)
  if s.params.srcDepth < n then .raise ⟨.srcOverflow, 0, 0⟩
  else if n < 2 then .raise (malformed 1 0)
  else if n < 3 then .raise (malformed 2 16)
  else if s.src.read 2 = 0xFF#8 then .raise (malformed 3 16)
  else if 8 * (n - 3) < k then .raise (malformed 4 16)
  else if s.src.read 1 = 0#8 then .raise (malformed 5 8)
  else
    .goOn (((s.withWork { s.engine.work with h := s.src.read 0, ns := s.src.read 1, k := k }).unpackInit 24
      (8 * n - k)).withPhase .decTable)

/-- Table entry `e`, START being set (R259 to R262). -/
def State.decEntryBody (s : State) (e : Nat) : Except EngineError State :=
  match s.getUnary with
  | (.exhausted, s1) => .error (malformed 6 s1.engine.work.start)
  | (.tooLong, s1) => .error (malformed 7 s1.engine.work.start)
  | (.len L, s1) =>
    match s1.getBits L with
    | (none, s2) => .error (malformed 6 s2.engine.work.start)
    | (some c, s2) =>
      match s2.getBits 8 with
      | (none, s3) => .error (malformed 6 s3.engine.work.start)
      | (some x, s3) =>
        .ok (s3.withDt (s3.dt.store e (BitVec.ofNat 8 L) (BitVec.ofNat 256 c) (BitVec.ofNat 8 x)))

/-- Table entry `e`: `START <- Q`, then the entry (R259). -/
def State.decEntry (s : State) (e : Nat) : Except EngineError State :=
  (s.withWork { s.engine.work with start := s.engine.unpacker.q }).decEntryBody e

/-- As many table entries as the first argument says, from entry `e` on. -/
def State.decEntries : Nat → Nat → State → Except EngineError State
  | 0, _, s => .ok s
  | n + 1, e, s =>
    match s.decEntry e with
    | .error err => .error err
    | .ok s' => State.decEntries n (e + 1) s'

/-- Phase DEC_TABLE (R259 to R262). DT is cleared first, so that DT[NS..255) are 0 when the command succeeds (R268);
no host read of DT gives its contents while DECODE runs (40_host_access.md R151). -/
def State.decTable (s : State) : PhaseResult :=
  if 8 * s.params.srcDepth < s.engine.unpacker.qlim then .fault .srcRange
  else
    match State.decEntries s.engine.work.ns.toNat 0 (s.withDt DecodeTable.cleared) with
    | .error err => .raise err
    | .ok s' =>
      .goOn ((s'.withWork
        { s'.engine.work with tend := s'.engine.unpacker.q, nSym := s'.engine.work.ns.toNat }).withPhase .decPayload)

/-- `EmitSym(x)` (41_bit_stream.md R195). -/
def State.emitSym (s : State) (x : Byte) : Except EngineError State :=
  if s.engine.matcher.ocnt = s.params.dstDepth then .error ⟨.dstOverflow, 0, s.engine.matcher.mstart⟩
  else
    .ok ((s.withDst (s.dst.writeWithin s.params.dstDepth s.engine.matcher.ocnt x)).withMatcher
      { s.engine.matcher with ocnt := s.engine.matcher.ocnt + 1 })

/-- `INVALID_CODE(0, MSTART)` (R265, R266). -/
def State.invalidCode (s : State) : EngineError := ⟨.invalidCode, 0, s.engine.matcher.mstart⟩

/-- The body of the payload loop once a bit is read: append it, match, emit (R263). -/
def State.decBit (s : State) (b : Bool) : Except EngineError State :=
  let buf := s.engine.matcher.mbuf ++ [b]
  match s.dt.matchCode s.engine.work.nSym buf with
  | some e =>
    match s.emitSym (s.dt.sym.read e) with
    | .error err => .error err
    | .ok s' => .ok (s'.withMatcher ⟨[], s'.engine.unpacker.q, s'.engine.matcher.ocnt⟩)
  | none =>
    if buf.length = Config.maxCodeLen then .error s.invalidCode
    else .ok (s.withMatcher { s.engine.matcher with mbuf := buf })

/-- The payload loop `while Q < QLIM`, the first argument being the bits there are to read at most (R263). -/
def State.decLoop : Nat → State → Except EngineError State
  | 0, s => .ok s
  | n + 1, s =>
    match s.getBit with
    | (none, s') => .ok s'
    | (some b, s') =>
      match s'.decBit b with
      | .error err => .error err
      | .ok s'' => State.decLoop n s''

/-- The result registers of a successful DECODE (R268). -/
def Engine.decodeResults (e : Engine) : Results :=
  { dstLen := Word.ofNat e.matcher.ocnt
    height := e.work.h
    numSymbols := e.work.ns
    padK := BitVec.ofNat 3 e.work.k
    tableBits := Word.ofNat (e.work.tend - 24)
    payloadBits := Word.ofNat (e.unpacker.qlim - e.work.tend) }

/-- Phase DEC_PAYLOAD (R263 to R268). -/
def State.decPayload (s : State) : PhaseResult :=
  if 8 * s.params.srcDepth < s.engine.unpacker.qlim then .fault .srcRange
  else
    match State.decLoop (s.engine.unpacker.qlim - s.engine.unpacker.q)
        (s.withMatcher ⟨[], s.engine.unpacker.q, 0⟩) with
    | .error err => .raise err
    | .ok s' =>
      if s'.engine.matcher.mbuf.isEmpty then .finish s'.engine.decodeResults s' else .raise s'.invalidCode

end Sys2Proof.Machine
end

