-- ==== Sys2Proof/Machine/Dispatch.lean ====
section
/-! DEFINITION. The meaning of every instruction, one arm per constructor (40_host_access.md R152). -/

namespace Sys2Proof.Machine

def exec (i : Instr) (s : State) : Host.Outcome State Fault Refusal :=
  match i with
  | .nop => Sys2Proof.Machine.execNop s
  | .encode => Sys2Proof.Machine.execEncode s
  | .decode => Sys2Proof.Machine.execDecode s
  | .clearTable => Sys2Proof.Machine.execClearTable s
  | .reservedCmd cmd => Sys2Proof.Machine.execReservedCmd cmd s
  | .sreset => Sys2Proof.Machine.execSreset s

end Sys2Proof.Machine
end

