-- ==== Sys2Proof/Machine/Engine.lean ====
section
/-! DEFINITION. The engine's steps: which phase runs, ENGINE_STEPS, and completion (40_host_access.md R160 to R162). -/

namespace Sys2Proof.Machine

/-- Run the phase PHASE names (10_state.md R49); an idle engine has nothing to run. -/
def State.phaseStep (s : State) : PhaseResult :=
  match s.engine.phase with
  | .idle => .goOn s
  | .encScan => s.encScan
  | .encEmit => s.encEmit
  | .decHeader => s.decHeader
  | .decTable => s.decTable
  | .decPayload => s.decPayload
  | .clear => s.clearPhase

/-- Run at most as many phases as the first argument says, to the command's end. -/
def State.runPhases : Nat → State → PhaseResult
  | 0, s => .goOn s
  | n + 1, s =>
    match s.phaseStep with
    | .goOn s' => State.runPhases n s'
    | .finish r s' => .finish r s'
    | .raise e => .raise e
    | .fault f => .fault f

/-- No command has more phases than DECODE's three (43_decode.md R250). -/
abbrev maxPhases : Nat := 3

/-- What becomes of the command's last engine step: completion (R160), error entry (R161) or a fault. -/
def State.conclude (s : State) : PhaseResult → Host.Outcome State Fault Refusal
  | .goOn s' => .next s'
  | .finish r s' => .next (s'.complete r)
  | .raise e => .next (s.fail e)
  | .fault f => .fault f

/-- Count one engine step of ENGINE_STEPS. -/
def State.countStep (s : State) : State := s.withLeft (s.engine.left - 1)

/-- One engine step of a running command (R162). The last of its ENGINE_STEPS runs what is left of the command and
completes it; an earlier one runs one phase, unless that phase would end the command, which then waits. No result
depends on ENGINE_STEPS (assumption log 7). -/
def State.engineStep (s : State) : Host.Outcome State Fault Refusal :=
  if s.engine.left ≤ 1 then s.conclude (State.runPhases maxPhases s)
  else
    match s.phaseStep with
    | .goOn s' => .next s'.countStep
    | .finish _ _ => .next s.countStep
    | .raise _ => .next s.countStep
    | .fault _ => .next s.countStep

end Sys2Proof.Machine
end

