-- ==== Sys2Proof/Machine/Flags.lean ====
section
/-! DEFINITION. The status register, the error registers and the interrupt output (10_state.md R30 to R36, R47, R48;
60_exceptions.md R291, R307). -/

namespace Sys2Proof.Machine

/-- The STATUS word: BUSY [0], DONE [1], ERR [2], REJ [3], LAST_CMD [6:4], the rest 0 (10_state.md R30 to R34). -/
def State.statusWord (s : State) : Word :=
  0#25 ++ s.regs.lastCmd ++ BitVec.ofBool s.regs.rej ++ BitVec.ofBool s.regs.err ++ BitVec.ofBool s.regs.done
    ++ BitVec.ofBool s.busy

/-- ERROR.CODE by number (60_exceptions.md R291). -/
def ErrorCode.toByte : ErrorCode → BitVec 8
  | .none => 0x00#8
  | .emptyInput => 0x01#8
  | .alphabetOverflow => 0x02#8
  | .malformedHeader => 0x03#8
  | .invalidCode => 0x04#8
  | .unmappedSymbol => 0x05#8
  | .badCodeTable => 0x06#8
  | .dstOverflow => 0x07#8
  | .srcOverflow => 0x08#8
  | .illegalCommand => 0x09#8

/-- The ERROR word: CODE [7:0], DETAIL [15:8], the rest 0 (10_state.md R35). -/
def Regs.errorWord (r : Regs) : Word := 0#16 ++ r.errorDetail ++ r.errorCode.toByte

/-- A W1C bit after a write: cleared by 1, left by 0 (10_state.md R24). -/
def w1c (old written : Bool) : Bool := old && !written

/-- A write of STATUS: DONE, ERR and REJ are W1C by bits 1, 2 and 3, the rest of the value is ignored
(40_host_access.md R144). -/
def Regs.writeStatus (r : Regs) (v : Word) : Regs :=
  { r with done := w1c r.done (v.getLsbD 1), err := w1c r.err (v.getLsbD 2), rej := w1c r.rej (v.getLsbD 3) }

/-- A write of IRQ_EN: bits [2:0] (R145). -/
def Regs.writeIrqEn (r : Regs) (v : Word) : Regs := { r with irqEn := v.extractLsb' 0 3 }

/-- The interrupt output, level sensitive, a function of the state (10_state.md R48). -/
def State.irq (s : State) : Bool :=
  (s.regs.done && s.regs.irqEn.getLsbD 0) || (s.regs.err && s.regs.irqEn.getLsbD 1)
    || (s.regs.rej && s.regs.irqEn.getLsbD 2)

end Sys2Proof.Machine
end

