-- ==== Sys2Proof/Machine/Host.lean ====
section
/-! DEFINITION. Host transactions, the address map and whose turn it is (20_memory.md R70 to R75; 40_host_access.md
R140 to R151; 70_reset_and_hazards.md R330). -/

namespace Sys2Proof.Machine

/-! ## The address map -/

/-- A mapped word of the block (20_memory.md R71): a register by its byte offset, a word of a CT or DT entry, the
first of four bytes of a buffer. -/
inductive Region where
  | reg (off : Nat)
  | ct (sym w : Nat)
  | dt (e w : Nat)
  | src (i : Nat)
  | dst (i : Nat)
deriving DecidableEq, Repr

/-- The region of a byte offset; none where nothing is mapped (R71). -/
def regionOf (p : Params) (off : Nat) : Option Region :=
  if off < 0x100 then some (.reg off)
  else if 0x010000 ≤ off ∧ off < 0x014000 then some (.ct ((off - 0x010000) / 64) ((off - 0x010000) % 64 / 4))
  else if 0x020000 ≤ off ∧ off < 0x023FC0 then some (.dt ((off - 0x020000) / 64) ((off - 0x020000) % 64 / 4))
  else if 0x100000 ≤ off ∧ off < 0x100000 + p.srcDepth then some (.src (off - 0x100000))
  else if 0x200000 ≤ off ∧ off < 0x200000 + p.dstDepth then some (.dst (off - 0x200000))
  else none

/-- The word a transaction of `bytes` bytes at offset `off` accesses; none is BUSERR: a size other than 4 bytes (R72),
a misaligned offset (R73), an unmapped offset (R74). -/
def accessOf (p : Params) (off bytes : Nat) : Option Region :=
  if bytes = 4 ∧ off % 4 = 0 then regionOf p off else none

/-- The byte offset of a system address inside the block; none where the address is not the block's
(60_exceptions.md R312, `HBC_BASE`). -/
def offsetOf (p : Params) (addr : Nat) : Option Nat :=
  if p.hbcBase ≤ addr ∧ addr < p.hbcBase + Config.addressSpace then some (addr - p.hbcBase) else none

/-! ## Reads -/

/-- What a read of a register gives while the engine is idle, and of a register whose reads are defined at any time
(10_state.md R23 to R39, R47). -/
def State.regValue (s : State) (off : Nat) : Word :=
  match off with
  | 0x000 => 0x48554646#32
  | 0x004 => 0x00010000#32
  | 0x008 => 0#32
  | 0x00C => s.statusWord
  | 0x010 => s.regs.errorWord
  | 0x014 => s.regs.errPos
  | 0x018 => s.regs.srcLen
  | 0x01C => s.regs.results.dstLen
  | 0x020 => s.regs.results.height.setWidth 32
  | 0x024 => s.regs.results.numSymbols.setWidth 32
  | 0x028 => s.regs.results.padK.setWidth 32
  | 0x02C => s.regs.results.tableBits
  | 0x030 => s.regs.results.payloadBits
  | 0x034 => s.regs.irqEn.setWidth 32
  | 0x038 => Word.ofNat s.params.srcDepth
  | 0x03C => Word.ofNat s.params.dstDepth
  | _ => 0#32

/-- The registers a read of which gives ANY while BUSY = 1 (40_host_access.md R151): ERROR, ERR_POS, DST_LEN, HEIGHT,
NUM_SYMBOLS, PAD_K, TABLE_BITS, PAYLOAD_BITS. -/
def anyWhileBusy (off : Nat) : Bool :=
  [0x010, 0x014, 0x01C, 0x020, 0x024, 0x028, 0x02C, 0x030].contains off

/-- Word `w` of CT entry `sym` as the host sees it (10_state.md R40, 40_host_access.md R141). -/
def CodeTable.hostWord (ct : CodeTable) (sym w : Nat) : Word :=
  if w = 0 then ct.valid.read sym ++ 0#23 ++ ct.len.read sym
  else if w ≤ Config.codeWords then ct.wordOf sym (w - 1)
  else 0

/-- Word `w` of DT entry `e` as the host sees it (10_state.md R43, 40_host_access.md R141). -/
def DecodeTable.hostWord (dt : DecodeTable) (e w : Nat) : Word :=
  if w = 0 then dt.valid.read e ++ 0#15 ++ dt.sym.read e ++ dt.len.read e
  else if w ≤ Config.codeWords then codeWord (dt.code.read e) (w - 1)
  else 0

/-- The word of a buffer from byte `i` on (20_memory.md R75). -/
def Memory.laneWord (m : Memory 8) (i : Nat) : Word :=
  wordOfLanes (m.read i) (m.read (i + 1)) (m.read (i + 2)) (m.read (i + 3))

/-- What a read gives. -/
inductive ReadValue where
  /-- This word. -/
  | word (v : Word)
  /-- ANY (R151). -/
  | any
  /-- One of the two, ANY of them (R156: CT while CLEAR_TABLE runs). -/
  | either (v v' : Word)
deriving DecidableEq, Repr

/-- What a read of a mapped word gives (R141, R151, R156). -/
def State.readRegion (s : State) : Region → ReadValue
  | .reg off => if anyWhileBusy off && s.busy then .any else .word (s.regValue off)
  | .ct sym w =>
    if s.engine.phase = .clear then .either (s.ct.hostWord sym w) 0 else .word (s.ct.hostWord sym w)
  | .dt e w => if s.busy && s.regs.lastCmd == 2#3 then .any else .word (s.dt.hostWord e w)
  | .src i => .word (s.src.laneWord i)
  | .dst i => if s.busy then .any else .word (s.dst.laneWord i)

/-- Answer a read: ANY is a fresh word per read (R151). -/
def State.answer (s : State) : ReadValue → State
  | .word v => s.respond .okay (some v)
  | .any => (s.respond .okay (some (Config.freeValue 32 s.draw 0))).withDraw (s.draw + 1)
  | .either v v' =>
    (s.respond .okay (some (if Config.freeValue 1 s.draw 0 = 1 then v else v'))).withDraw (s.draw + 1)

/-- `RD(off)` (R141). -/
def State.hostRead (s : State) (off bytes : Nat) : State :=
  match accessOf s.params off bytes with
  | none => s.respond .busErr (some 0)
  | some r => s.answer (s.readRegion r)

/-! ## Writes -/

/-- The targets a write to which is dropped while busy (R143): SRC_LEN, CT, the SRC and the DST window. -/
def Region.busyGuarded : Region → Bool
  | .reg off => off == 0x018
  | .ct _ _ => true
  | .dt _ _ => false
  | .src _ => true
  | .dst _ => true

/-- Word `w` of CT entry `sym` written (R147). -/
def CodeTable.hostWrite (ct : CodeTable) (sym w : Nat) (v : Word) : CodeTable :=
  if w = 0 then
    { ct with
      valid := ct.valid.writeWithin Config.ctEntries sym (v.extractLsb' 31 1)
      len := ct.len.writeWithin Config.ctEntries sym (v.extractLsb' 0 8) }
  else if w ≤ Config.codeWords then
    { ct with
      code := ct.code.writeWithin (Config.codeWords * Config.ctEntries) (Config.codeWords * sym + (w - 1)) v }
  else ct

/-- The four bytes of a buffer from byte `i` on written (R149, R150). -/
def Memory.writeLanes (size : Nat) (m : Memory 8) (i : Nat) (v : Word) : Memory 8 :=
  m.writeList size i [lane v 0, lane v 1, lane v 2, lane v 3]

/-- A write that takes effect, by target (R142 to R150). CTRL is no target here: a write to it is a command (R152).
A write to DT never comes here (R142). -/
def State.writeRegion (s : State) (v : Word) : Region → State
  | .reg off =>
    if off = 0x00C then s.withRegs (s.regs.writeStatus v)
    else if off = 0x018 then s.withRegs { s.regs with srcLen := v }
    else if off = 0x034 then s.withRegs (s.regs.writeIrqEn v)
    else s
  | .ct sym w => s.withCt (s.ct.hostWrite sym w v)
  | .dt _ _ => s
  | .src i => s.withSrc (s.src.writeLanes s.params.srcDepth i v)
  | .dst i => s.withDst (s.dst.writeLanes s.params.dstDepth i v)

/-- `WR(off, v)` to a target other than CTRL (R142). -/
def State.hostWrite (s : State) (off bytes : Nat) (v : Word) : State :=
  match accessOf s.params off bytes with
  | none => s.respond .busErr none
  | some (.dt _ _) => s.respond .busErr none
  | some r => if r.busyGuarded && s.busy then s.reject.okay else (s.writeRegion v r).okay

/-! ## Whose turn it is -/

/-- The byte offset of CTRL (10_state.md R29). -/
abbrev ctrlOffset : Nat := 0x008

/-- What this step does. -/
inductive Turn where
  /-- The host writes `w` to CTRL: a command (R152). The state is the one the command meets, its response given. -/
  | command (w : Word) (s : State)
  /-- The engine takes a step of the running command. -/
  | engine (s : State)
  /-- Anything else, done. -/
  | done (s : State)
deriving DecidableEq, Repr

/-- The turn of a host transaction, already taken off the list. While `rst` is asserted, and for an address that is
not the block's, the block answers nothing (70_reset_and_hazards.md R330, 60_exceptions.md R312). -/
def State.hostTurn (s : State) (t : HostTxn) : Turn :=
  if s.port.rst then .done (s.withPort { s.port with response := none })
  else
    match t with
    | .rd addr bytes =>
      match offsetOf s.params addr with
      | none => .done (s.withPort { s.port with response := none })
      | some off => .done (s.hostRead off bytes)
    | .wr addr bytes v =>
      match offsetOf s.params addr with
      | none => .done (s.withPort { s.port with response := none })
      | some off =>
        if off = ctrlOffset ∧ bytes = 4 then .command v s.okay else .done (s.hostWrite off bytes v)

/-- The turn of the engine: a step of the running command; an idle engine takes none (60_exceptions.md R315). -/
def State.engineTurn (s : State) : Turn := if s.busy then .engine s else .done s

/-- The turn of a change of `rst` (R330): asserting it resets the block. -/
def State.rstTurn (s : State) (asserted : Bool) : Turn :=
  if asserted then .done (s.resetEffect.withPort { s.port with rst := true })
  else .done (s.withPort { s.port with rst := false })

/-- The turn of an event, already taken off the list. -/
def State.inputTurn (s : State) : Input → Turn
  | .host t => s.hostTurn t
  | .engine => s.engineTurn
  | .rst asserted => s.rstTurn asserted

/-- The turn of the first waiting event. When none waits it is the engine's: a started command is not kept from
ending (70_reset_and_hazards.md R345). -/
def State.turn (s : State) : Turn :=
  match s.port.inputs with
  | [] => s.engineTurn
  | i :: rest => (s.withPort { s.port with inputs := rest }).inputTurn i

end Sys2Proof.Machine
end

