-- ==== Sys2Proof/Machine/Step.lean ====
section
/-! DEFINITION. One step of the HBC: one event, of the host, the engine or the platform (10_state.md R20,
40_host_access.md R140, R162). -/

namespace Sys2Proof.Machine

/-- One step. A write to CTRL is decoded and executed (40_host_access.md R152); a turn of the engine is an engine step
of the running command; every other event is done by its turn. -/
def step (s : State) : Host.Outcome State Fault Refusal :=
  match s.turn with
  | .command w s' =>
    match decodeBits 32 w.toNat with
    | .ok i => exec i s'
    | .error _ => .refused .undecodable
  | .engine s' => s'.engineStep
  | .done s' => .next s'

/-- The state in which the next event is the host's write of the command word `w` (its low `nbits` bits) to CTRL, the
reset input released so that the block answers it. The HBC fetches no instructions (10_state.md R22): a command comes
to run by such a write (assumption log 9). -/
def State.withFetchWord (s : State) (nbits w : Nat) : State :=
  { s with
    port :=
      { s.port with
        rst := false
        inputs :=
          .host (.wr (s.params.hbcBase + ctrlOffset) 4 (BitVec.ofNat 32 (w % 2 ^ nbits))) :: s.port.inputs } }

end Sys2Proof.Machine
end

