-- ==== Sys2Proof/Machine/HostProgram.lean ====
section
/-! DEFINITION. The pseudo-instructions host programs are written in, as the writes they expand to (30_encoding.md R123,
R124). `WAITIDLE` is a loop of reads of STATUS, not a list of transactions, and has no expansion here. -/

namespace Sys2Proof.Machine

/-- The pseudo-instructions of R124. -/
inductive Pseudo where
  | nop
  | encode
  | decode
  | clrtab
  | sreset
  | ack
  | setcode (x : Byte) (L : BitVec 8) (c : BitVec 256)
  | clrcode (x : Byte)
  | loadsrc (bytes : List Byte)
deriving DecidableEq, Repr

/-- The byte offset of word 0 of CT entry `x` (10_state.md R40). -/
def ctEntryOffset (x : Byte) : Nat := 0x010000 + 64 * x.toNat

/-- The word of bytes `4 i .. 4 i + 3` of a list, missing bytes 0 (R124). -/
def loadWord (bytes : List Byte) (i : Nat) : Word :=
  wordOfLanes (bytes.getD (4 * i) 0) (bytes.getD (4 * i + 1) 0) (bytes.getD (4 * i + 2) 0) (bytes.getD (4 * i + 3) 0)

/-- The writes a pseudo-instruction expands to, as byte offset and value, in order (R124). -/
def Pseudo.writes : Pseudo → List (Nat × Word)
  | .nop => [(0x008, 0x00000000#32)]
  | .encode => [(0x008, 0x00000001#32)]
  | .decode => [(0x008, 0x00000002#32)]
  | .clrtab => [(0x008, 0x00000003#32)]
  | .sreset => [(0x008, 0x80000000#32)]
  | .ack => [(0x00C, 0x0000000E#32)]
  | .setcode x L c =>
    (ctEntryOffset x, 0x80000000#32 + L.setWidth 32)
      :: (List.range ((L.toNat + 31) / 32)).map fun w => (ctEntryOffset x + 4 + 4 * w, codeWord c w)
  | .clrcode x => [(ctEntryOffset x, 0x00000000#32)]
  | .loadsrc bytes =>
    ((List.range ((bytes.length + 3) / 4)).map fun i => (0x100000 + 4 * i, loadWord bytes i))
      ++ [(0x018, Word.ofNat bytes.length)]

/-- The events the writes of a pseudo-instruction are (R123). -/
def Pseudo.events (p : Params) (i : Pseudo) : List Input :=
  i.writes.map fun w => .host (.wr (p.hbcBase + w.1) 4 w.2)

end Sys2Proof.Machine
end

