-- ==== Sys2Proof/Machine/Reference.lean ====
section
/-! DEFINITION. The two functions of the spec that give a command's outcome in one piece, `Encode` (42_encode.md R226)
and `Decode` (43_decode.md R271), over bit sequences and without the engine's registers. Statements compare the
engine with them; no step calls them. -/

namespace Sys2Proof.Machine

/-! ## Encode -/

/-- `Ok` of R226: the bytes of the stream and the result registers as numbers. -/
structure EncodeOk where
  bytes : List Byte
  height : Nat
  numSymbols : Nat
  padK : Nat
  tableBits : Nat
  payloadBits : Nat
deriving DecidableEq, Repr

/-- One serialised entry (30_encoding.md R111). -/
def entryBits (ct : CodeTable) (x : Nat) : Bits :=
  List.replicate (ct.lenOf x) true ++ [false] ++ ct.codeBits x ++ bits8 (BitVec.ofNat 8 x)

/-- `T` of R226: the lookup table. -/
def tableBits (ct : CodeTable) (m : List Byte) : Bits :=
  (tableOrder ct (symbolsOf (presentSet m))).flatMap (entryBits ct)

/-- `Pl` of R226: the payload (30_encoding.md R113). -/
def payloadBits (ct : CodeTable) (m : List Byte) : Bits := m.flatMap fun b => ct.codeBits b.toNat

/-- The stream `S` of R226. -/
def streamOf (ct : CodeTable) (m : List Byte) : Bits :=
  let symbols := symbolsOf (presentSet m)
  let body := tableBits ct m ++ payloadBits ct m
  let k := padCount body.length
  bits8 (BitVec.ofNat 8 (maxLen ct symbols)) ++ bits8 (BitVec.ofNat 8 symbols.length) ++ bits8 (markerByte k)
    ++ body ++ List.replicate k true

/-- `Encode(m, n, CT)` with `n` = SRC_LEN and `m` = SRC[0..n) (R226). -/
def encodeFn (p : Params) (ct : CodeTable) (m : List Byte) (n : Nat) : Except EngineError EncodeOk :=
  if p.srcDepth < n then .error ⟨.srcOverflow, 0, 0⟩
  else if n = 0 then .error ⟨.emptyInput, 0, 0⟩
  else
    let symbols := symbolsOf (presentSet m)
    if Config.maxSymbols < symbols.length then .error ⟨.alphabetOverflow, 0, 0⟩
    else
      match lookupError ct 0 m with
      | some e => .error e
      | none =>
        let nout := (streamOf ct m).length / 8
        if p.dstDepth < nout then .error ⟨.dstOverflow, 0, nout⟩
        else
          .ok
            { bytes := bytesOfBits (streamOf ct m)
              height := maxLen ct symbols
              numSymbols := symbols.length
              padK := padCount (tableBits ct m ++ payloadBits ct m).length
              tableBits := (tableBits ct m).length
              payloadBits := (payloadBits ct m).length }

/-- The result registers of `Ok` of R226. -/
def EncodeOk.results (r : EncodeOk) : Results :=
  { dstLen := Word.ofNat r.bytes.length
    height := BitVec.ofNat 8 r.height
    numSymbols := BitVec.ofNat 8 r.numSymbols
    padK := BitVec.ofNat 3 r.padK
    tableBits := Word.ofNat r.tableBits
    payloadBits := Word.ofNat r.payloadBits }

/-! ## Decode -/

/-- One parsed table entry `(L, code, sym)` of R271. -/
structure Entry where
  len : Nat
  code : Nat
  sym : Byte
deriving DecidableEq, Repr

/-- `Ok` of R271. -/
structure DecodeOk where
  out : List Byte
  entries : List Entry
  height : Byte
  numSymbols : Byte
  padK : Nat
  tableBits : Nat
  payloadBits : Nat
deriving DecidableEq, Repr

/-- What reading a length prefix comes to. -/
inductive LengthPrefix where
  | len (L : Nat) (rest : Bits)
  | runsOut
  | tooLong
deriving DecidableEq, Repr

/-- The inner loop of R271: `L` one-bits counted, `more` short of 255. -/
def readLength (more L : Nat) : Bits → LengthPrefix
  | [] => .runsOut
  | false :: rest => .len L rest
  | true :: rest =>
    match more with
    | 0 => .tooLong
    | m + 1 => readLength m (L + 1) rest

/-- The table of R271: `n` entries read from `bits`, the first of which is stream bit `pos`. The entries so far are
`done`, in order. -/
def readEntries (n pos : Nat) (done : List Entry) (bits : Bits) : Except EngineError (List Entry × Bits) :=
  match n with
  | 0 => .ok (done, bits)
  | n + 1 =>
    match readLength Config.maxCodeLen 0 bits with
    | .runsOut => .error (malformed 6 pos)
    | .tooLong => .error (malformed 7 pos)
    | .len L rest =>
      if rest.length < L + 8 then .error (malformed 6 pos)
      else
        readEntries n (pos + (2 * L + 9))
          (done ++ [⟨L, bitsVal (rest.take L), BitVec.ofNat 8 (bitsVal ((rest.drop L).take 8))⟩])
          (rest.drop (L + 8))

/-- "lowest index with E[e].L = |buf| and E[e].code = val(buf), or none" (R271). -/
def findEntry (entries : List Entry) (buf : Bits) : Option Entry :=
  entries.find? fun e => e.len == buf.length && e.code == bitsVal buf

/-- The payload loop of R271: `buf` the bits since the last match, which began at stream bit `ms`, `pos` the next
stream bit, `out` the symbols so far. -/
def readPayload (p : Params) (entries : List Entry) (pos ms : Nat) (buf : Bits) (out : List Byte) :
    Bits → Except EngineError (List Byte)
  | [] => if buf.isEmpty then .ok out else .error ⟨.invalidCode, 0, ms⟩
  | b :: rest =>
    match findEntry entries (buf ++ [b]) with
    | some e =>
      if out.length = p.dstDepth then .error ⟨.dstOverflow, 0, ms⟩
      else readPayload p entries (pos + 1) (pos + 1) [] (out ++ [e.sym]) rest
    | none =>
      if (buf ++ [b]).length = Config.maxCodeLen then .error ⟨.invalidCode, 0, ms⟩
      else readPayload p entries (pos + 1) ms (buf ++ [b]) out rest

/-- Table and payload of R271, over the body `bits`, stream bits 24 on. -/
def decodeBody (p : Params) (height ns : Byte) (k : Nat) (bits : Bits) : Except EngineError DecodeOk :=
  match readEntries ns.toNat 24 [] bits with
  | .error e => .error e
  | .ok (entries, payload) =>
    let tend := 24 + (bits.length - payload.length)
    match readPayload p entries tend tend [] [] payload with
    | .error e => .error e
    | .ok out =>
      .ok
        { out := out, entries := entries, height := height, numSymbols := ns, padK := k
          tableBits := bits.length - payload.length, payloadBits := payload.length }

/-- `Decode(m, n)` with `n` = SRC_LEN and `m` = SRC[0..n) (R271). -/
def decodeFn (p : Params) (m : List Byte) (n : Nat) : Except EngineError DecodeOk :=
  let byte := fun i => m.getD i 0
  let k := leadingOnes (bits8 (byte 2))
  if p.srcDepth < n then .error ⟨.srcOverflow, 0, 0⟩
  else if n < 2 then .error (malformed 1 0)
  else if n < 3 then .error (malformed 2 16)
  else if byte 2 = 0xFF#8 then .error (malformed 3 16)
  else if 8 * (n - 3) < k then .error (malformed 4 16)
  else if byte 1 = 0#8 then .error (malformed 5 8)
  else decodeBody p (byte 0) (byte 1) k (streamBits byte 24 (8 * (n - 3) - k))

/-- The result registers of `Ok` of R271. -/
def DecodeOk.results (r : DecodeOk) : Results :=
  { dstLen := Word.ofNat r.out.length
    height := r.height
    numSymbols := r.numSymbols
    padK := BitVec.ofNat 3 r.padK
    tableBits := Word.ofNat r.tableBits
    payloadBits := Word.ofNat r.payloadBits }

/-- `DT[0..NS) = E` of R271, every later entry 0 (43_decode.md R268). -/
def storeEntries (dt : DecodeTable) (e : Nat) : List Entry → DecodeTable
  | [] => dt
  | x :: rest => storeEntries (dt.store e (BitVec.ofNat 8 x.len) (BitVec.ofNat 256 x.code) x.sym) (e + 1) rest

end Sys2Proof.Machine
end

