-- ==== Sys2Proof/Safety.lean ====
section
/-! DEFINITION. What counts as a good state of the HBC: the invariant every step keeps, in the terms statements use, and
the conditions on a loaded code table. -/

namespace Sys2Proof.Machine

/-! ## The invariant -/

/-- CT in canonical form (10_state.md R40). -/
def CodeTable.wf (ct : CodeTable) : Bool :=
  ct.valid.wf Config.ctEntries && ct.len.wf Config.ctEntries
    && ct.code.wf (Config.codeWords * Config.ctEntries)

/-- DT in canonical form (10_state.md R43). -/
def DecodeTable.wf (dt : DecodeTable) : Bool :=
  dt.valid.wf Config.dtEntries && dt.len.wf Config.dtEntries && dt.sym.wf Config.dtEntries
    && dt.code.wf Config.dtEntries

/-- Every memory of the block is in canonical form and lists no place it does not have. -/
def State.memoriesOk (s : State) : Bool :=
  s.ct.wf && s.dt.wf && s.src.wf s.params.srcDepth && s.dst.wf s.params.dstDepth

/-- A memory's free values were drawn before draw `draw`. -/
def Memory.drawnBefore {w : Nat} (draw : Nat) (m : Memory w) : Bool :=
  match m.fill with
  | .value _ => true
  | .any d => decide (d < draw)

/-- Every free value in a memory was drawn before the next draw, so the next draw is new. -/
def State.drawsOk (s : State) : Bool :=
  s.ct.valid.drawnBefore s.draw && s.ct.len.drawnBefore s.draw && s.ct.code.drawnBefore s.draw
    && s.dt.valid.drawnBefore s.draw && s.dt.len.drawnBefore s.draw && s.dt.sym.drawnBefore s.draw
    && s.dt.code.drawnBefore s.draw && s.src.drawnBefore s.draw && s.dst.drawnBefore s.draw

/-- The engine's working registers fit their widths: counters are below 2^32 (00_scope.md R10), K and ACC_N at most 7,
MBUF at most 255 bits (10_state.md R49 to R52). -/
structure Engine.InRange (e : Engine) : Prop where
  nSym : e.work.nSym < 2 ^ 32
  k : e.work.k ≤ 7
  tbits : e.work.tbits < 2 ^ 32
  pbits : e.work.pbits < 2 ^ 32
  start : e.work.start < 2 ^ 32
  tend : e.work.tend < 2 ^ 32
  optr : e.packer.optr < 2 ^ 32
  accN : e.packer.accN ≤ 7
  q : e.unpacker.q < 2 ^ 32
  qlim : e.unpacker.qlim < 2 ^ 32
  mbuf : e.matcher.mbuf.length ≤ 255
  mstart : e.matcher.mstart < 2 ^ 32
  ocnt : e.matcher.ocnt < 2 ^ 32

/-- ENC_SCAN's lengths are in the working registers and its checks are passed (42_encode.md R211 to R219). -/
structure State.EncReady (s : State) : Prop where
  src : s.regs.srcLen.toNat ≤ s.params.srcDepth
  present : s.engine.work.present = presentSet s.message
  tbits : s.engine.work.tbits = tableLength s.ct (symbolsOf s.engine.work.present)
  pbits : s.engine.work.pbits = payloadLength s.ct s.message
  k : s.engine.work.k = padCount (s.engine.work.tbits + s.engine.work.pbits)
  dst : s.engine.work.nout ≤ s.params.dstDepth

/-- The unpacker stands at bit `first` or later of a stream whose header is parsed (43_decode.md R251 to R258). -/
structure State.DecReady (s : State) (first : Nat) : Prop where
  src : s.regs.srcLen.toNat ≤ s.params.srcDepth
  qlim : s.engine.unpacker.qlim = 8 * s.regs.srcLen.toNat - s.engine.work.k
  first : first ≤ s.engine.unpacker.q
  q : s.engine.unpacker.q ≤ s.engine.unpacker.qlim

/-- What PHASE says of the working registers and of LAST_CMD (10_state.md R34, R49). -/
def State.PhaseOk (s : State) : Prop :=
  match s.engine.phase with
  | .idle => True
  | .encScan => s.regs.lastCmd = 1#3
  | .encEmit => s.regs.lastCmd = 1#3 ∧ s.EncReady
  | .decHeader => s.regs.lastCmd = 2#3
  | .decTable => s.regs.lastCmd = 2#3 ∧ s.DecReady 24
  | .decPayload => s.regs.lastCmd = 2#3 ∧ s.DecReady s.engine.work.tend ∧ 24 ≤ s.engine.work.tend
  | .clear => s.regs.lastCmd = 3#3

/-- While a command runs the registers its start cleared are still clear (40_host_access.md R144, R152). -/
structure Regs.Cleared (r : Regs) : Prop where
  done : r.done = false
  err : r.err = false
  errorCode : r.errorCode = .none
  errorDetail : r.errorDetail = 0
  errPos : r.errPos = 0
  results : r.results = Results.zero

/-- The invariant of the HBC. -/
structure State.Inv (s : State) : Prop where
  params : s.params.ok = true
  memories : s.memoriesOk = true
  draws : s.drawsOk = true
  engine : s.engine.InRange
  phase : s.PhaseOk
  running : s.busy = true → s.regs.Cleared
  /-- ERROR.DETAIL is 0 unless ERROR.CODE is MALFORMED_HEADER (10_state.md R35). -/
  detail : s.regs.errorCode ≠ .malformedHeader → s.regs.errorDetail = 0

/-! ## Conditions on a command -/

/-- The outcome of the encoder on what SRC, SRC_LEN and CT hold (42_encode.md R226). -/
def State.encodeOutcome (s : State) : Except EngineError EncodeOk :=
  encodeFn s.params s.ct s.message s.regs.srcLen.toNat

/-- The outcome of the decoder on what SRC and SRC_LEN hold (43_decode.md R271). -/
def State.decodeOutcome (s : State) : Except EngineError DecodeOk :=
  decodeFn s.params s.message s.regs.srcLen.toNat

/-- Completion of ENCODE with outcome `o`: `Ok` by 40_host_access.md R160, `Err` by R161 (42_encode.md R226). -/
def State.commitEncode (s : State) : Except EngineError EncodeOk → State
  | .ok r => (s.withDst (s.dst.writeList s.params.dstDepth 0 r.bytes)).complete r.results
  | .error e => s.fail e

/-- Completion of DECODE with outcome `o`: `Ok` by 40_host_access.md R160, `Err` by R161 (43_decode.md R271). -/
def State.commitDecode (s : State) : Except EngineError DecodeOk → State
  | .ok r =>
    ((s.withDst (s.dst.writeList s.params.dstDepth 0 r.out)).withDt
      (storeEntries DecodeTable.cleared 0 r.entries)).complete r.results
  | .error e => s.fail e

/-- The code words of the symbols of a message form a prefix code: none is a prefix of, or equal to, that of another
symbol (43_decode.md R272). -/
def PrefixCode (ct : CodeTable) (m : List Byte) : Prop :=
  ∀ x ∈ m, ∀ y ∈ m, x ≠ y → ¬ ct.codeBits x.toNat <+: ct.codeBits y.toNat

/-- The event a host program's `WR off, v` is (30_encoding.md R123), for the word at byte offset `off` of the block. -/
def State.wrEvent (s : State) (off : Nat) (v : Word) : Input := .host (.wr (s.params.hbcBase + off) 4 v)

/-- The event a host program's `RD off` is (30_encoding.md R123). -/
def State.rdEvent (s : State) (off : Nat) : Input := .host (.rd (s.params.hbcBase + off) 4)

/-- The state whose next event is `i`, the reset input released, all else as in `s`. -/
def State.withEvent (s : State) (i : Input) : State :=
  s.withPort { s.port with rst := false, inputs := i :: s.port.inputs }

/-- `s` with the reset input released and the response to a transaction given, all else as in `s`. -/
def State.answered (s : State) (status : BusStatus) (data : Option Word) : State :=
  (s.withPort { s.port with rst := false }).respond status data

/-- `k` steps from `s` lead to `t`. -/
def Runs (k : Nat) (s t : State) : Prop := Host.Core.run Sys2Proof.core k s = .next t

/-- The engine's next step raises `e` and so ends the command in it (40_host_access.md R161). -/
def State.Raises (s : State) (e : EngineError) : Prop := s.engineStep = .next (s.fail e)

/-- The next event is the assertion of `rst` or the host's SRESET command (70_reset_and_hazards.md R330). -/
def State.ResetNext (s : State) : Prop :=
  (∃ rest, s.port.inputs = .rst true :: rest) ∨
  ∃ rest addr v, s.port.inputs = .host (.wr addr 4 v) :: rest ∧ s.port.rst = false ∧
    offsetOf s.params addr = some ctrlOffset ∧ sresetField v = true

/-- The next event is the engine's: an engine step, or none waits while a command runs. -/
def State.EngineNext (s : State) : Prop :=
  s.busy = true ∧ (s.port.inputs = [] ∨ ∃ rest, s.port.inputs = .engine :: rest)

end Sys2Proof.Machine
end

