-- ==== Sys2Proof/Certificates/Slice0/Obligations.lean ====
section
/-! DEFINITION. The statements about the model. Each says which rule of spec/ it formalises; where it rests on a choice
of the model, it names the log entry. A statement about an engine step with `left` at most 1 is about a command's last
engine step, in which the model runs what is left of the command (log 7). -/

open Sys2Proof Sys2Proof.Machine

/-! ## Command words -/

/-- Encoding loses nothing of an instruction: 30_encoding.md section 2. -/
def Obligations.DecodeInvertsEncode : Prop :=
  ∀ i : Instr, i.wellFormed = true → decode (encode i) = i

/-- R103: words that differ in bits [30:3] only have the same effect, and every word belongs to exactly the row of
spec/opcode_table.json that its masked bits match. -/
def Obligations.ReservedBitsIgnoredAndRowsExact : Prop :=
  (∀ (w w' : Word) (s : State), w &&& 0x80000007#32 = w' &&& 0x80000007#32 → exec (decode w) s = exec (decode w') s) ∧
  (∀ (w : Word) (i : Instr), i.wellFormed = true →
    (w &&& i.tableMask = i.tableMatch ↔
      (decode w).tableMask = i.tableMask ∧ (decode w).tableMatch = i.tableMatch))

/-- R104: SRESET = 1 is SRESET whatever CMD holds. -/
def Obligations.SresetBitWinsOverCmd : Prop :=
  (∀ w : Word, w.getLsbD 31 = true → decode w = .sreset) ∧ decode 0x80000001#32 = .sreset

/-- Words of 30_encoding.md section 2 and spec/95_test_vectors.md L2.2 decode to the commands they stand for. -/
def Obligations.VectorWordsDecode : Prop :=
  decode 0x00000000#32 = .nop ∧ decode 0x7FFFFFF8#32 = .nop ∧ decode 0x00000001#32 = .encode ∧
  decode 0x00000009#32 = .encode ∧ decode 0x00000002#32 = .decode ∧ decode 0x00000003#32 = .clearTable ∧
  decode 0x00000004#32 = .reservedCmd 4#3 ∧ decode 0x00000005#32 = .reservedCmd 5#3 ∧
  decode 0x00000007#32 = .reservedCmd 7#3 ∧ decode 0x80000000#32 = .sreset ∧ decode 0x80000002#32 = .sreset

/-! ## What a step is -/

/-- A write to CTRL answers OKAY and runs the decoded command (40_host_access.md section 2; the event list is the
model's own, log 3). -/
def Obligations.StepRunsDecodedCommand : Prop :=
  ∀ (s : State) (v : Word), step (s.withEvent (s.wrEvent 0x008 v)) = exec (decode v) (s.answered .okay none)

/-- A turn of the engine is an engine step while a command runs; an idle engine takes none and every state element
keeps its value (60_exceptions.md section 5; the turns are the model's own, log 3). -/
def Obligations.EngineTurnsStepOnlyWhileBusy : Prop :=
  ∀ s : State,
    (∀ rest, s.port.inputs = .engine :: rest →
      (s.busy = true → step s = (s.withPort { s.port with inputs := rest }).engineStep) ∧
      (s.busy = false → step s = .next (s.withPort { s.port with inputs := rest }))) ∧
    (s.port.inputs = [] → (s.busy = true → step s = s.engineStep) ∧ (s.busy = false → step s = .next s))

/-- The dispatch of a command word, whole, in its order, with the response OKAY (40_host_access.md section 2). The model's
own in it: the event list (log 3), the engine steps left that a start sets (log 7) and the kept response (log 19). -/
def Obligations.CommandDispatchOrder : Prop :=
  ∀ (s : State) (v : Word),
    let u := s.answered .okay none
    let start (c : BitVec 3) (p : Phase) : State :=
      { u with
        regs :=
          { u.regs with
            done := false, err := false, lastCmd := c, errorCode := .none, errorDetail := 0, errPos := 0
            results := ⟨0, 0, 0, 0, 0, 0⟩ }
        engine := { u.engine with phase := p, left := u.params.engineSteps } }
    ∃ t, step (s.withEvent (s.wrEvent 0x008 v)) = .next t ∧ t.port.response = some ⟨.okay, none⟩ ∧
      t =
        if v.getLsbD 31 = true then u.resetEffect
        else if v.extractLsb' 0 3 = 0#3 then u
        else if u.busy = true then { u with regs := { u.regs with rej := true } }
        else if v.extractLsb' 0 3 = 1#3 then start 1#3 .encScan
        else if v.extractLsb' 0 3 = 2#3 then start 2#3 .decHeader
        else if v.extractLsb' 0 3 = 3#3 then start 3#3 .clear
        else u.refuseReserved (v.extractLsb' 0 3)

/-! ## The commands -/

/-- R153: NOP changes nothing, in every state, whatever its bits [30:3]. -/
def Obligations.NopChangesNothing : Prop :=
  (∀ s : State, exec .nop s = .next s) ∧ ∀ w : Word, w &&& 0x80000007#32 = 0#32 → decode w = .nop

/-- An idle block starts ENCODE, DECODE or CLEAR_TABLE: the registers the start writes, BUSY and PHASE, and nothing else
(40_host_access.md section 2; `left` is the model's own, log 7). -/
def Obligations.IdleBlockStartsCommands : Prop :=
  ∀ s : State, s.busy = false →
    let regs (c : BitVec 3) : Regs :=
      { s.regs with
        done := false, err := false, lastCmd := c, errorCode := .none, errorDetail := 0, errPos := 0
        results := ⟨0, 0, 0, 0, 0, 0⟩ }
    let engine (p : Phase) : Engine := { s.engine with phase := p, left := s.params.engineSteps }
    exec .encode s = .next { s with regs := regs 1#3, engine := engine .encScan } ∧
    exec .decode s = .next { s with regs := regs 2#3, engine := engine .decHeader } ∧
    exec .clearTable s = .next { s with regs := regs 3#3, engine := engine .clear }

/-- R159: while busy every command but NOP and SRESET is dropped: REJ is set and nothing else changes. -/
def Obligations.BusyBlockDropsCommands : Prop :=
  ∀ s : State, s.busy = true →
    let dropped : Host.Outcome State Fault Refusal := .next { s with regs := { s.regs with rej := true } }
    exec .encode s = dropped ∧ exec .decode s = dropped ∧ exec .clearTable s = dropped ∧
      ∀ c, exec (.reservedCmd c) s = dropped

/-- R158: a reserved command on an idle block is refused with ILLEGAL_COMMAND; BUSY stays 0 and SRC, DST, CT and DT are
unchanged. While busy it is R159 instead. -/
def Obligations.ReservedCommandsRefused : Prop :=
  (∀ w : Word, w &&& 0x80000004#32 = 0x00000004#32 → decode w = .reservedCmd (w.extractLsb' 0 3)) ∧
  ∀ (s : State) (c : BitVec 3), c.getLsbD 2 = true →
    (s.busy = false →
      ∃ t, exec (.reservedCmd c) s = .next t ∧ t.busy = false ∧
        t =
          { s with
            regs :=
              { s.regs with
                done := true, err := true, lastCmd := c, errorCode := .illegalCommand, errorDetail := 0, errPos := 0
                results := ⟨0, 0, 0, 0, 0, 0⟩ } }) ∧
    (s.busy = true → exec (.reservedCmd c) s = .next { s with regs := { s.regs with rej := true } })

/-- R331: SRESET, in every state, and the assertion of `rst` take every state element to its reset value in one event;
the contents of SRC and DST, CT LEN and CODE and DT LEN, SYM and CODE become ANY, each by a draw not taken before (the
draws are the model's own, log 2). -/
def Obligations.ResetEffectOfSresetAndRst : Prop :=
  ∀ s : State,
    let isReset (t : State) : Prop :=
      t.statusWord = 0 ∧ t.regs.errorWord = 0 ∧ t.regs.errPos = 0 ∧ t.regs.srcLen = 0 ∧
      t.regs.results = ⟨0, 0, 0, 0, 0, 0⟩ ∧ t.regs.irqEn = 0 ∧ t.irq = false ∧ t.engine.phase = .idle ∧
      (∀ x, t.ct.isValid x = false) ∧ (∀ e, t.dt.isValid e = false) ∧
      (∃ d1 d2 d3 d4 d5 d6 d7, [d1, d2, d3, d4, d5, d6, d7].Nodup ∧
        (∀ d ∈ [d1, d2, d3, d4, d5, d6, d7], s.draw ≤ d ∧ d < t.draw) ∧
        t.ct.len = ⟨.any d1, []⟩ ∧ t.ct.code = ⟨.any d2, []⟩ ∧ t.dt.len = ⟨.any d3, []⟩ ∧
        t.dt.sym = ⟨.any d4, []⟩ ∧ t.dt.code = ⟨.any d5, []⟩ ∧ t.src = ⟨.any d6, []⟩ ∧ t.dst = ⟨.any d7, []⟩) ∧
      t.params = s.params
    (∃ t, exec .sreset s = .next t ∧ isReset t ∧ t.port = s.port) ∧
    ∀ rest, s.port.inputs = .rst true :: rest →
      ∃ t, step s = .next t ∧ isReset t ∧ t.port = { s.port with rst := true, inputs := rest }

/-- A reset while a command runs abandons it: from a running command SRESET leads to an idle block without DONE and
ERR, on which any number of further turns of the engine change nothing but the list of events
(70_reset_and_hazards.md section 1; the list is the model's own, log 3). -/
def Obligations.SresetAbandonsRunningCommand : Prop :=
  ∀ (s : State) (k : Nat), s.busy = true →
    ∃ t, exec .sreset s = .next t ∧ t.busy = false ∧ t.regs.done = false ∧ t.regs.err = false ∧
      ∀ rest, Runs k (t.withPort { t.port with inputs := List.replicate k .engine ++ rest })
        (t.withPort { t.port with inputs := rest })

/-- While `rst` is asserted no transaction is answered (70_reset_and_hazards.md section 1). The model's choice: that such a
transaction is lost, not held by the bus, and without effect (log 13), the event list it is taken off (log 3), and that
no response is then kept (log 19). -/
def Obligations.AssertedRstAnswersNothing : Prop :=
  ∀ (s : State) (t : HostTxn) (rest : List Input), s.port.rst = true → s.port.inputs = .host t :: rest →
    step s = .next { s with port := { rst := true, inputs := rest, response := none } }

/-! ## Commands run to their end -/

/-- R226: from an idle block ENCODE runs, in ENGINE_STEPS engine steps, to the completion of `Encode`'s outcome: its
stream in DST and its results, or its error (`commitEncode`; no other event in between). -/
def Obligations.EncodeRunsToEncodeOutcome : Prop :=
  ∀ s : State, s.params.ok = true → s.busy = false → s.port.inputs = [] →
    ∃ t, exec .encode s = .next t ∧ Runs s.params.engineSteps t (t.commitEncode s.encodeOutcome)

/-- R271: from an idle block DECODE runs, in ENGINE_STEPS engine steps, to the completion of `Decode`'s outcome: its
message in DST, its entries in DT and its results, or its error (`commitDecode`; no other event in between). -/
def Obligations.DecodeRunsToDecodeOutcome : Prop :=
  ∀ s : State, s.params.ok = true → s.busy = false → s.port.inputs = [] →
    ∃ t, exec .decode s = .next t ∧ Runs s.params.engineSteps t (t.commitDecode s.decodeOutcome)

/-- CLEAR_TABLE runs, in ENGINE_STEPS engine steps, to a CT of zeros; DT, SRC, DST and SRC_LEN are unchanged
(40_host_access.md section 2). -/
def Obligations.ClearTableRunsToZeroTable : Prop :=
  ∀ s : State, s.params.ok = true → s.busy = false → s.port.inputs = [] →
    ∃ t u, exec .clearTable s = .next t ∧ Runs s.params.engineSteps t u ∧
      (∀ x w, u.ct.isValid x = false ∧ u.ct.lenOf x = 0 ∧ u.ct.wordOf x w = 0) ∧
      u.dt = s.dt ∧ u.src = s.src ∧ u.dst = s.dst ∧ u.params = s.params ∧ u.port = s.port ∧ u.busy = false ∧
      u.regs =
        { s.regs with
          done := true, err := false, lastCmd := 3#3, errorCode := .none, errorDetail := 0, errPos := 0
          results := ⟨0, 0, 0, 0, 0, 0⟩ }

/-- A started command is still running after every number of engine steps below ENGINE_STEPS, with the host's view of
its inputs unchanged, and has completed after ENGINE_STEPS (40_host_access.md section 3, log 7). -/
def Obligations.CommandsTakeEngineSteps : Prop :=
  ∀ (s t : State) (i : Instr), s.params.ok = true → s.busy = false → s.port.inputs = [] →
    i ∈ [Instr.encode, Instr.decode, Instr.clearTable] → exec i s = .next t →
    (∀ k, k < s.params.engineSteps →
      ∃ u, Runs k t u ∧ u.busy = true ∧ u.regs = t.regs ∧ u.ct = s.ct ∧ u.src = s.src ∧ u.dst = s.dst) ∧
    ∃ u, Runs s.params.engineSteps t u ∧ u.busy = false ∧ u.regs.done = true

/-- A running command is changed by no host transaction but SRESET: what the engine works on and with stays
(40_host_access.md section 3). -/
def Obligations.HostCannotDisturbRunningCommand : Prop :=
  ∀ (s : State) (x : HostTxn), s.busy = true →
    (∀ addr v, x = .wr addr 4 v → offsetOf s.params addr = some 0x008 → v.getLsbD 31 = false) →
    ∃ t, step (s.withEvent (.host x)) = .next t ∧ t.engine = s.engine ∧ t.params = s.params ∧ t.ct = s.ct ∧
      t.dt = s.dt ∧ t.src = s.src ∧ t.dst = s.dst ∧ t.regs.srcLen = s.regs.srcLen ∧
      t.regs.lastCmd = s.regs.lastCmd ∧ t.regs.results = s.regs.results ∧ t.regs.errorCode = s.regs.errorCode ∧
      t.port.inputs = s.port.inputs

/-- R161: the event that ends a command in an engine error, everything it changes; every DST byte, and for DECODE every
DT field, becomes ANY by a draw not taken before (the draws are the model's own, log 2). -/
def Obligations.EngineErrorEntry : Prop :=
  ∀ (s : State) (e : EngineError), s.engine.left ≤ 1 → State.runPhases maxPhases s = .raise e →
    ∃ t, s.engineStep = .next t ∧
      t.regs =
        { s.regs with
          done := true, err := true, errorCode := e.code, errorDetail := e.detail, errPos := Word.ofNat e.pos
          results := ⟨0, 0, 0, 0, 0, 0⟩ } ∧
      t.busy = false ∧ t.engine.phase = .idle ∧ t.ct = s.ct ∧ t.src = s.src ∧ t.params = s.params ∧
      t.port = s.port ∧
      (∃ d, t.dst = ⟨.any d, []⟩ ∧ s.draw ≤ d ∧ d < t.draw) ∧
      (s.engine.phase.decoding = false → t.dt = s.dt) ∧
      (s.engine.phase.decoding = true →
        ∃ d1 d2 d3 d4, t.dt = ⟨⟨.any d1, []⟩, ⟨.any d2, []⟩, ⟨.any d3, []⟩, ⟨.any d4, []⟩⟩ ∧
          [d1, d2, d3, d4].Nodup ∧ ∀ d ∈ [d1, d2, d3, d4], s.draw ≤ d ∧ d < t.draw)

/-! ## What ENCODE checks -/

/-- R211: SRC_OVERFLOW first, then EMPTY_INPUT, both at position 0. -/
def Obligations.EncodeFirstChecks : Prop :=
  ∀ s : State, s.engine.phase = .encScan → s.engine.left ≤ 1 →
    (s.params.srcDepth < s.regs.srcLen.toNat → s.Raises ⟨.srcOverflow, 0, 0⟩) ∧
    (¬ s.params.srcDepth < s.regs.srcLen.toNat → s.regs.srcLen = 0 → s.Raises ⟨.emptyInput, 0, 0⟩)

/-- R293: a message in which all 256 byte values occur is refused with ALPHABET_OVERFLOW. -/
def Obligations.EncodeAlphabetOverflow : Prop :=
  ∀ s : State, s.engine.phase = .encScan → s.engine.left ≤ 1 → s.regs.srcLen.toNat ≤ s.params.srcDepth →
    (∀ b : Byte, ∃ i, i < s.regs.srcLen.toNat ∧ s.src.read i = b) → s.Raises ⟨.alphabetOverflow, 0, 0⟩

/-- R213: the lowest index whose byte is unmapped or has an empty code word is reported. -/
def Obligations.EncodeFirstBadSymbol : Prop :=
  ∀ (s : State) (i : Nat), s.engine.phase = .encScan → s.engine.left ≤ 1 →
    s.regs.srcLen.toNat ≤ s.params.srcDepth →
    (∃ b : Byte, ∀ j, j < s.regs.srcLen.toNat → s.src.read j ≠ b) → i < s.regs.srcLen.toNat →
    (∀ j, j < i → s.ct.isValid (s.src.read j).toNat = true ∧ s.ct.lenOf (s.src.read j).toNat ≠ 0) →
    (s.ct.isValid (s.src.read i).toNat = false → s.Raises ⟨.unmappedSymbol, 0, i⟩) ∧
    (s.ct.isValid (s.src.read i).toNat = true → s.ct.lenOf (s.src.read i).toNat = 0 →
      s.Raises ⟨.badCodeTable, 0, i⟩)

/-- A stream that does not fit is refused with DST_OVERFLOW and its length in ERR_POS; the length is computed from the
message's code-word lengths (42_encode.md section 1). -/
def Obligations.EncodeDstOverflow : Prop :=
  ∀ s : State, s.engine.phase = .encScan → s.engine.left ≤ 1 → s.regs.srcLen.toNat ≤ s.params.srcDepth →
    s.regs.srcLen ≠ 0 → (∃ b : Byte, b ∉ s.message) →
    (∀ b ∈ s.message, s.ct.isValid b.toNat = true ∧ s.ct.lenOf b.toNat ≠ 0) →
    let tbits := (((List.range 256).filter fun x => BitVec.ofNat 8 x ∈ s.message).map fun x => 2 * s.ct.lenOf x + 9).sum
    let pbits := (s.message.map fun b => s.ct.lenOf b.toNat).sum
    let k := (8 - (tbits + pbits) % 8) % 8
    let nout := 3 + (tbits + pbits + k) / 8
    s.params.dstDepth < nout → s.Raises ⟨.dstOverflow, 0, nout⟩

/-! ## What DECODE checks in the header -/

/-- The header checks of DECODE in their order (43_decode.md section 1): SRC_OVERFLOW, then MALFORMED_HEADER details 1
to 5, `k` being the number of leading one-bits of the marker. -/
def Obligations.DecodeHeaderChecks : Prop :=
  ∀ s : State, s.engine.phase = .decHeader → s.engine.left ≤ 1 →
    let n := s.regs.srcLen.toNat
    let marker := s.src.read 2
    (s.params.srcDepth < n → s.Raises ⟨.srcOverflow, 0, 0⟩) ∧
    (n ≤ s.params.srcDepth → n < 2 → s.Raises ⟨.malformedHeader, 1, 0⟩) ∧
    (n ≤ s.params.srcDepth → n = 2 → s.Raises ⟨.malformedHeader, 2, 16⟩) ∧
    (n ≤ s.params.srcDepth → 3 ≤ n → marker = 0xFF#8 → s.Raises ⟨.malformedHeader, 3, 16⟩) ∧
    (n ≤ s.params.srcDepth → 3 ≤ n →
      ∀ k, k ≤ 7 → (∀ j, j < k → marker.getLsbD (7 - j) = true) → marker.getLsbD (7 - k) = false →
      (8 * (n - 3) < k → s.Raises ⟨.malformedHeader, 4, 16⟩) ∧
      (k ≤ 8 * (n - 3) → s.src.read 1 = 0#8 → s.Raises ⟨.malformedHeader, 5, 8⟩))

/-! ## Stages of the bit stream -/

/-- From a byte boundary the packer puts a bit sequence into DST most significant bit first, and touches no byte it does
not complete (41_bit_stream.md section 2, 20_memory.md section 3). -/
def Obligations.PackerPutsBitsMsbFirst : Prop :=
  ∀ (s : State) (bits : Bits), s.engine.packer.accN = 0 →
    s.engine.packer.optr + bits.length / 8 ≤ s.params.dstDepth →
    let t := s.putBits bits
    t.engine.packer.optr = s.engine.packer.optr + bits.length / 8 ∧ t.engine.packer.accN = bits.length % 8 ∧
    (∀ q (h : q < bits.length), q / 8 < bits.length / 8 →
      streamBit t.dst.read (8 * s.engine.packer.optr + q) = bits[q]) ∧
    ∀ j, j < s.engine.packer.optr ∨ s.engine.packer.optr + bits.length / 8 ≤ j → t.dst.read j = s.dst.read j

/-- R189: `GetUnary` counts the one-bits up to the first zero-bit, and fails where they run out or a 256th is met. -/
def Obligations.GetUnaryCountsOnes : Prop :=
  ∀ (s : State) (L : Nat), let q := s.engine.unpacker.q
    (∀ j, j < L → s.bitAt (q + j) = true) →
    (L ≤ 255 → q + L < s.engine.unpacker.qlim → s.bitAt (q + L) = false →
      s.getUnary = (.len L, s.withUnpacker ⟨q + L + 1, s.engine.unpacker.qlim⟩)) ∧
    (L ≤ 255 → q + L = s.engine.unpacker.qlim →
      s.getUnary = (.exhausted, s.withUnpacker ⟨q + L, s.engine.unpacker.qlim⟩)) ∧
    (L = 256 → q + L ≤ s.engine.unpacker.qlim →
      s.getUnary = (.tooLong, s.withUnpacker ⟨q + L, s.engine.unpacker.qlim⟩))

/-- R192: `Match` gives the lowest index whose entry has the length and the value of the bits, or none; an
entry of length 0 never matches a bit sequence that is not empty (41_bit_stream.md section 5). -/
def Obligations.MatchGivesLowestIndex : Prop :=
  ∀ (dt : DecodeTable) (n : Nat) (buf : Bits), buf ≠ [] →
    let isCode (e : Nat) : Prop := (dt.len.read e).toNat = buf.length ∧ (dt.code.read e).toNat = bitsVal buf
    (∀ e, dt.matchCode n buf = some e ↔ e < n ∧ isCode e ∧ ∀ j, j < e → ¬ isCode j) ∧
    (dt.matchCode n buf = none ↔ ∀ e, e < n → ¬ isCode e) ∧
    ∀ e, dt.len.read e = 0 → dt.matchCode n buf ≠ some e

/-- R117: the code word the encoder puts is the LEN low bits of CODE, most significant first, CODE being the sum of the
eight words times powers of 2^32. -/
def Obligations.CodeWordFromCodeWords : Prop :=
  ∀ (ct : CodeTable) (x : Nat),
    ct.codeBits x = codebits (ct.codeValue x) (ct.lenOf x) ∧
    (ct.codeValue x).toNat = ((List.range 8).map fun w => (ct.wordOf x w).toNat * 2 ^ (32 * w)).sum

/-- The marker byte: for K = 0..7 the encoder writes the byte of the table of 30_encoding.md section 3 and the decoder
reads K back; the decoder reads from any marker but 0xFF the number of its leading one-bits. -/
def Obligations.MarkerCarriesPadCount : Prop :=
  ((List.range 8).map markerByte = [0x00#8, 0x80#8, 0xC0#8, 0xE0#8, 0xF0#8, 0xF8#8, 0xFC#8, 0xFE#8]) ∧
  (∀ k, k < 8 → markerCount (markerByte k) = k) ∧
  ∀ m : Byte, m ≠ 0xFF#8 →
    markerCount m ≤ 7 ∧ (∀ j, j < markerCount m → m.getLsbD (7 - j) = true) ∧ m.getLsbD (7 - markerCount m) = false

/-- R115: the stream of `Encode` is whole bytes, 3 + (|T| + |P| + k) / 8 of them, with |T| the sum of
2 L + 9 over the serialised entries. -/
def Obligations.StreamLength : Prop :=
  ∀ (ct : CodeTable) (m : List Byte), (∀ b ∈ m, ct.lenOf b.toNat ≠ 0) →
    let body := tableBits ct m ++ payloadBits ct m
    let k := padCount body.length
    k ≤ 7 ∧ (body.length + k) % 8 = 0 ∧ (streamOf ct m).length = 8 * (3 + (body.length + k) / 8) ∧
    (bytesOfBits (streamOf ct m)).length = 3 + (body.length + k) / 8 ∧
    (tableBits ct m).length =
      (((List.range 256).filter fun x => BitVec.ofNat 8 x ∈ m).map fun x => 2 * ct.lenOf x + 9).sum ∧
    (payloadBits ct m).length = (m.map fun b => ct.lenOf b.toNat).sum

/-! ## Whole streams -/

/-- `Decode` undoes `Encode` (43_decode.md section 4): for a code table whose code words on the message form a prefix
code, on buffers large enough, the message and the five result values come back. -/
def Obligations.DecodeUndoesEncode : Prop :=
  ∀ (p p' : Params) (ct : CodeTable) (m : List Byte) (r : EncodeOk),
    encodeFn p ct m m.length = .ok r → PrefixCode ct m → r.bytes.length ≤ p'.srcDepth → m.length ≤ p'.dstDepth →
    ∃ d, decodeFn p' r.bytes r.bytes.length = .ok d ∧ d.out = m ∧ d.height = BitVec.ofNat 8 r.height ∧
      d.numSymbols = BitVec.ofNat 8 r.numSymbols ∧ d.padK = r.padK ∧ d.tableBits = r.tableBits ∧
      d.payloadBits = r.payloadBits

/-- R272 on the block: what a successful ENCODE leaves in DST, copied to SRC of the same or another block, decodes to
the message, with equal HEIGHT, NUM_SYMBOLS, PAD_K, TABLE_BITS and PAYLOAD_BITS. Both commands run whole, from an idle
block through all its ENGINE_STEPS engine steps (no other event in between, log 3). -/
def Obligations.EncodeThenDecodeOnTheBlock : Prop :=
  ∀ s s1 t u : State, s.params.ok = true → s.busy = false → s.port.inputs = [] → exec .encode s = .next s1 →
    Runs s.params.engineSteps s1 t → t.regs.errorCode = .none → PrefixCode s.ct s.message →
    u.params.ok = true → u.busy = false → u.port.inputs = [] → u.regs.srcLen = t.regs.results.dstLen →
    t.regs.results.dstLen.toNat ≤ u.params.srcDepth → s.regs.srcLen.toNat ≤ u.params.dstDepth →
    (∀ i, i < t.regs.results.dstLen.toNat → u.src.read i = t.dst.read i) →
    ∃ u1 v, exec .decode u = .next u1 ∧ Runs u.params.engineSteps u1 v ∧
      v.regs.errorCode = .none ∧ v.regs.done = true ∧ v.regs.err = false ∧ v.busy = false ∧
      (∀ i, i < s.regs.srcLen.toNat → v.dst.read i = s.src.read i) ∧
      v.regs.results = { t.regs.results with dstLen := s.regs.srcLen }

/-- ENCODE reads no CT entry of an absent symbol, no CODE bit at or above LEN and no SRC byte at or past SRC_LEN
(42_encode.md section 4): two states that agree on the rest give the same outcome. -/
def Obligations.EncodeReadsOnlyItsInputs : Prop :=
  ∀ s s' : State, s.params = s'.params → s.regs.srcLen = s'.regs.srcLen →
    (∀ i, i < s.regs.srcLen.toNat → s.src.read i = s'.src.read i) →
    (∀ b ∈ s.message, s.ct.isValid b.toNat = s'.ct.isValid b.toNat ∧ s.ct.lenOf b.toNat = s'.ct.lenOf b.toNat ∧
      ∀ j, j < s.ct.lenOf b.toNat → s.ct.codeBit b.toNat j = s'.ct.codeBit b.toNat j) →
    s.encodeOutcome = s'.encodeOutcome

/-- What a successful ENCODE leaves in the block (42_encode.md section 2, 10_state.md section 3): the stream in
DST[0..DST_LEN), every other DST byte, CT, DT, SRC and SRC_LEN unchanged. The command runs whole, through all its
ENGINE_STEPS engine steps (log 7; no other event in between, log 3). -/
def Obligations.EncodeSuccessFrame : Prop :=
  ∀ (s : State) (r : EncodeOk), s.params.ok = true → s.busy = false → s.port.inputs = [] → s.encodeOutcome = .ok r →
    ∃ s1 t, exec .encode s = .next s1 ∧ Runs s.params.engineSteps s1 t ∧
      t.regs =
        { s.regs with
          done := true, err := false, lastCmd := 1#3, errorCode := .none, errorDetail := 0, errPos := 0
          results := r.results } ∧
      t.regs.results.dstLen.toNat = r.bytes.length ∧ r.bytes.length ≤ s.params.dstDepth ∧
      (∀ j (h : j < r.bytes.length), t.dst.read j = r.bytes[j]) ∧
      (∀ j, r.bytes.length ≤ j → t.dst.read j = s.dst.read j) ∧
      t.ct = s.ct ∧ t.dt = s.dt ∧ t.src = s.src ∧ t.params = s.params ∧ t.port = s.port ∧ t.busy = false

/-- What a successful DECODE leaves in the block (43_decode.md section 3, 10_state.md section 3): the message in
DST[0..DST_LEN), every other DST byte unchanged, the entries in DT, every later entry 0, CT, SRC and SRC_LEN unchanged.
The command runs whole, through all its ENGINE_STEPS engine steps (log 7; no other event in between, log 3). -/
def Obligations.DecodeSuccessFrame : Prop :=
  ∀ (s : State) (r : DecodeOk), s.params.ok = true → s.busy = false → s.port.inputs = [] → s.decodeOutcome = .ok r →
    ∃ s1 t, exec .decode s = .next s1 ∧ Runs s.params.engineSteps s1 t ∧
      t.regs =
        { s.regs with
          done := true, err := false, lastCmd := 2#3, errorCode := .none, errorDetail := 0, errPos := 0
          results := r.results } ∧
      t.regs.results.dstLen.toNat = r.out.length ∧ r.out.length ≤ s.params.dstDepth ∧
      (∀ j (h : j < r.out.length), t.dst.read j = r.out[j]) ∧
      (∀ j, r.out.length ≤ j → t.dst.read j = s.dst.read j) ∧
      r.entries.length = (s.src.read 1).toNat ∧
      (∀ e (h : e < r.entries.length), t.dt.valid.read e = 1 ∧ (t.dt.len.read e).toNat = r.entries[e].len ∧
        (t.dt.code.read e).toNat = r.entries[e].code ∧ t.dt.sym.read e = r.entries[e].sym) ∧
      (∀ e, r.entries.length ≤ e → t.dt.valid.read e = 0 ∧ t.dt.len.read e = 0 ∧ t.dt.code.read e = 0 ∧
        t.dt.sym.read e = 0) ∧
      t.ct = s.ct ∧ t.src = s.src ∧ t.params = s.params ∧ t.port = s.port ∧ t.busy = false

/-! ## Host transactions -/

/-- A read has no side effect: it changes the response, the event list and the draw counter only, the last two being
the model's own (20_memory.md section 4, log 2 and 3). -/
def Obligations.ReadsHaveNoSideEffects : Prop :=
  ∀ (s : State) (addr bytes : Nat), ∃ t, step (s.withEvent (.host (.rd addr bytes))) = .next t ∧
    t.regs = s.regs ∧ t.ct = s.ct ∧ t.dt = s.dt ∧ t.src = s.src ∧ t.dst = s.dst ∧ t.engine = s.engine ∧
    t.params = s.params ∧ t.port.inputs = s.port.inputs

/-- R301: a transaction of another size, misaligned, or unmapped, or a write to DT, is answered BUSERR (a read with data
0) and changes nothing, ERROR and STATUS among it. -/
def Obligations.BusErrorsChangeNothing : Prop :=
  ∀ (s : State) (off bytes : Nat) (v : Word), off < 2 ^ 22 →
    (bytes ≠ 4 ∨ off % 4 ≠ 0 ∨ regionOf s.params off = none →
      step (s.withEvent (.host (.rd (s.params.hbcBase + off) bytes))) = .next (s.answered .busErr (some 0)) ∧
      step (s.withEvent (.host (.wr (s.params.hbcBase + off) bytes v))) = .next (s.answered .busErr none)) ∧
    (0x020000 ≤ off → off < 0x023FC0 →
      step (s.withEvent (.host (.wr (s.params.hbcBase + off) bytes v))) = .next (s.answered .busErr none))

/-- The address map: each offset of 20_memory.md section 1 lies in the region the table gives, for every instance. -/
def Obligations.AddressMap : Prop :=
  ∀ (p : Params) (off : Nat), p.ok = true → off < 2 ^ 22 →
    (off ≤ 0x0000FF ↔ ∃ r, regionOf p off = some (.reg r)) ∧
    ((0x010000 ≤ off ∧ off ≤ 0x013FFF) ↔ ∃ x w, regionOf p off = some (.ct x w)) ∧
    ((0x020000 ≤ off ∧ off ≤ 0x023FBF) ↔ ∃ e w, regionOf p off = some (.dt e w)) ∧
    ((0x100000 ≤ off ∧ off ≤ 0x100000 + p.srcDepth - 1) ↔ ∃ i, regionOf p off = some (.src i)) ∧
    ((0x200000 ≤ off ∧ off ≤ 0x200000 + p.dstDepth - 1) ↔ ∃ i, regionOf p off = some (.dst i))

/-- R149: an SRC word write on an idle block sets the four bytes in little-endian lanes and nothing else; an SRC word
read gives the stored bytes in the same lanes, also while busy. -/
def Obligations.SrcWindowWords : Prop :=
  ∀ (s : State) (i : Nat) (v : Word), s.params.ok = true → i % 4 = 0 → i < s.params.srcDepth →
    (s.busy = false →
      ∃ m, step (s.withEvent (s.wrEvent (0x100000 + i) v)) = .next ((s.withSrc m).answered .okay none) ∧
        m.read i = v.extractLsb' 0 8 ∧ m.read (i + 1) = v.extractLsb' 8 8 ∧ m.read (i + 2) = v.extractLsb' 16 8 ∧
        m.read (i + 3) = v.extractLsb' 24 8 ∧ ∀ j, j < i ∨ i + 4 ≤ j → m.read j = s.src.read j) ∧
    step (s.withEvent (s.rdEvent (0x100000 + i))) =
      .next (s.answered .okay
        (some (s.src.read (i + 3) ++ s.src.read (i + 2) ++ s.src.read (i + 1) ++ s.src.read i)))

/-- On an idle block a DST word write sets the four bytes as for SRC and nothing else, and a DST word read gives them
(40_host_access.md section 1). -/
def Obligations.DstWindowWords : Prop :=
  ∀ (s : State) (i : Nat) (v : Word), s.params.ok = true → s.busy = false → i % 4 = 0 → i < s.params.dstDepth →
    (∃ m, step (s.withEvent (s.wrEvent (0x200000 + i) v)) = .next ((s.withDst m).answered .okay none) ∧
      m.read i = v.extractLsb' 0 8 ∧ m.read (i + 1) = v.extractLsb' 8 8 ∧ m.read (i + 2) = v.extractLsb' 16 8 ∧
      m.read (i + 3) = v.extractLsb' 24 8 ∧ ∀ j, j < i ∨ i + 4 ≤ j → m.read j = s.dst.read j) ∧
    step (s.withEvent (s.rdEvent (0x200000 + i))) =
      .next (s.answered .okay
        (some (s.dst.read (i + 3) ++ s.dst.read (i + 2) ++ s.dst.read (i + 1) ++ s.dst.read i)))

/-- R147: CT word writes on an idle block: word 0 sets VALID and LEN, words 1 to 8 one word of CODE, words 9 to 15
nothing; no other entry, field or state changes. -/
def Obligations.CtWordWrites : Prop :=
  ∀ (s : State) (x w : Nat) (v : Word), s.busy = false → x < 256 → w < 16 →
    ∃ ct, step (s.withEvent (s.wrEvent (0x010000 + 64 * x + 4 * w) v)) = .next ((s.withCt ct).answered .okay none) ∧
      (∀ y, ct.isValid y = if y = x ∧ w = 0 then v.getLsbD 31 else s.ct.isValid y) ∧
      (∀ y, ct.lenOf y = if y = x ∧ w = 0 then (v.extractLsb' 0 8).toNat else s.ct.lenOf y) ∧
      (∀ y u, u < 8 → ct.wordOf y u = if y = x ∧ w = u + 1 then v else s.ct.wordOf y u)

/-- CT and DT word reads (40_host_access.md section 1), DT while no DECODE runs, CT while no CLEAR_TABLE runs. -/
def Obligations.TableWordReads : Prop :=
  ∀ (s : State) (w : Nat), w < 16 →
    (∀ x, x < 256 → s.engine.phase ≠ .clear →
      step (s.withEvent (s.rdEvent (0x010000 + 64 * x + 4 * w))) =
        .next (s.answered .okay (some
          (if w = 0 then
            (BitVec.ofBool (s.ct.isValid x)).setWidth 32 <<< 31 ||| BitVec.ofNat 32 (s.ct.lenOf x)
          else if w ≤ 8 then s.ct.wordOf x (w - 1)
          else 0)))) ∧
    (∀ e, e < 255 → (s.busy && s.regs.lastCmd == 2#3) = false →
      step (s.withEvent (s.rdEvent (0x020000 + 64 * e + 4 * w))) =
        .next (s.answered .okay (some
          (if w = 0 then
            (BitVec.ofBool (s.dt.isValid e)).setWidth 32 <<< 31 ||| (s.dt.sym.read e).setWidth 32 <<< 8
              ||| (s.dt.len.read e).setWidth 32
          else if w ≤ 8 then (s.dt.code.read e).extractLsb' (32 * (w - 1)) 32
          else 0))))

/-- While busy, a write to SRC_LEN, CT, the SRC window or the DST window is dropped: REJ is set, the response is OKAY
and nothing else changes (40_host_access.md section 1). -/
def Obligations.BusyGuardedWritesDropped : Prop :=
  ∀ (s : State) (off : Nat) (v : Word), s.params.ok = true → s.busy = true → off % 4 = 0 →
    (off = 0x018 ∨ (0x010000 ≤ off ∧ off ≤ 0x013FFF) ∨
      (0x100000 ≤ off ∧ off < 0x100000 + s.params.srcDepth) ∨
      (0x200000 ≤ off ∧ off < 0x200000 + s.params.dstDepth)) →
    step (s.withEvent (s.wrEvent off v)) =
      .next ({ s with regs := { s.regs with rej := true } }.answered .okay none)

/-- R144: a STATUS write clears DONE, ERR and REJ where bits 1, 2 and 3 are 1, at any time, and changes nothing else. -/
def Obligations.StatusWriteClearsW1C : Prop :=
  ∀ (s : State) (v : Word), step (s.withEvent (s.wrEvent 0x00C v)) =
    .next ({ s with
      regs :=
        { s.regs with
          done := if v.getLsbD 1 = true then false else s.regs.done
          err := if v.getLsbD 2 = true then false else s.regs.err
          rej := if v.getLsbD 3 = true then false else s.regs.rej } }.answered .okay none)

/-- R145: IRQ_EN takes bits [2:0] at any time, with effect at once on `irq`. SRC_LEN takes all 32 bits while idle
(40_host_access.md section 1). Nothing else changes. -/
def Obligations.IrqEnAndSrcLenWrites : Prop :=
  ∀ (s : State) (v : Word),
    (∃ t, step (s.withEvent (s.wrEvent 0x034 v)) = .next t ∧
      t = { s with regs := { s.regs with irqEn := v.extractLsb' 0 3 } }.answered .okay none ∧
      (t.irq = true ↔
        (s.regs.done = true ∧ v.getLsbD 0 = true) ∨ (s.regs.err = true ∧ v.getLsbD 1 = true) ∨
          (s.regs.rej = true ∧ v.getLsbD 2 = true))) ∧
    (s.busy = false →
      step (s.withEvent (s.wrEvent 0x018 v)) = .next ({ s with regs := { s.regs with srcLen := v } }.answered .okay none))

/-- A write to a read-only register or a reserved offset is accepted and ignored, at any time, with no REJ
(40_host_access.md section 1, 10_state.md section 2). -/
def Obligations.ReadOnlyWritesIgnored : Prop :=
  ∀ (s : State) (off : Nat) (v : Word), off % 4 = 0 → off < 0x100 →
    off ∉ [0x008, 0x00C, 0x018, 0x034] →
    step (s.withEvent (s.wrEvent off v)) = .next (s.answered .okay none)

/-- What register reads give, register by register (10_state.md section 2, 40_host_access.md section 1): the registers
whose reads are always defined in every state, STATUS with its BUSY bit among them; ERROR, ERR_POS and the result
registers on an idle block (while busy they are ANY, BusyReadsGiveAny). -/
def Obligations.RegisterReads : Prop :=
  ∀ s : State,
    let reads (off : Nat) (v : Word) : Prop :=
      step (s.withEvent (s.rdEvent off)) = .next (s.answered .okay (some v))
    (reads 0x000 0x48554646#32 ∧ reads 0x004 0x00010000#32 ∧ reads 0x008 0#32 ∧
      reads 0x00C ((s.regs.lastCmd.setWidth 32 <<< 4) ||| ((BitVec.ofBool s.regs.rej).setWidth 32 <<< 3)
        ||| ((BitVec.ofBool s.regs.err).setWidth 32 <<< 2) ||| ((BitVec.ofBool s.regs.done).setWidth 32 <<< 1)
        ||| (if s.engine.phase = .idle then 0#32 else 1#32)) ∧
      reads 0x018 s.regs.srcLen ∧ reads 0x034 (s.regs.irqEn.setWidth 32) ∧
      reads 0x038 (BitVec.ofNat 32 s.params.srcDepth) ∧ reads 0x03C (BitVec.ofNat 32 s.params.dstDepth) ∧
      ∀ off, 0x040 ≤ off → off ≤ 0x0FC → off % 4 = 0 → reads off 0#32) ∧
    (s.busy = false →
      reads 0x010 ((s.regs.errorDetail.setWidth 32 <<< 8) ||| s.regs.errorCode.toByte.setWidth 32) ∧
      reads 0x014 s.regs.errPos ∧ reads 0x01C s.regs.results.dstLen ∧
      reads 0x020 (s.regs.results.height.setWidth 32) ∧ reads 0x024 (s.regs.results.numSymbols.setWidth 32) ∧
      reads 0x028 (s.regs.results.padK.setWidth 32) ∧ reads 0x02C s.regs.results.tableBits ∧
      reads 0x030 s.regs.results.payloadBits)

/-- While busy, a read of ERROR, ERR_POS, a result register or the DST window, and while DECODE runs of DT, gives ANY: a
value of a draw not taken before (40_host_access.md section 1; the draw is the model's own, log 2). -/
def Obligations.BusyReadsGiveAny : Prop :=
  ∀ (s : State) (off : Nat), s.params.ok = true → s.busy = true → off % 4 = 0 →
    (off ∈ [0x010, 0x014, 0x01C, 0x020, 0x024, 0x028, 0x02C, 0x030] ∨
      (0x200000 ≤ off ∧ off < 0x200000 + s.params.dstDepth) ∨
      (s.regs.lastCmd = 2#3 ∧ 0x020000 ≤ off ∧ off < 0x023FC0)) →
    step (s.withEvent (s.rdEvent off)) =
      .next ((s.answered .okay (some (Config.freeValue 32 s.draw 0))).withDraw (s.draw + 1))

/-- While CLEAR_TABLE runs, a read of a CT word gives the old word or the cleared one (40_host_access.md section 2). -/
def Obligations.CtReadsWhileClearing : Prop :=
  ∀ (s : State) (x w : Nat), s.engine.phase = .clear → x < 256 → w < 16 →
    ∃ t d, step (s.withEvent (s.rdEvent (0x010000 + 64 * x + 4 * w))) = .next t ∧
      t.port.response = some ⟨.okay, some d⟩ ∧ (d = s.ct.hostWord x w ∨ d = 0) ∧ t.ct = s.ct ∧ t.regs = s.regs ∧
      t.engine = s.engine ∧ t.dt = s.dt ∧ t.src = s.src ∧ t.dst = s.dst

/-- What the host's loading of a table entry and of a message comes to on an idle block (30_encoding.md section 5,
70_reset_and_hazards.md section 2): after the writes of SETCODE the symbol has the code word given, and no other entry
and no other state has changed; after the writes of LOADSRC the message is the bytes given. -/
def Obligations.SetcodeAndLoadsrcLoad : Prop :=
  (∀ (s : State) (x : Byte) (L : BitVec 8) (c : BitVec 256), s.busy = false → s.port.rst = false →
    s.port.inputs = (Pseudo.setcode x L c).events s.params →
    ∃ t, Runs s.port.inputs.length s t ∧ t.port.inputs = [] ∧ t.ct.isValid x.toNat = true ∧
      t.ct.lenOf x.toNat = L.toNat ∧ t.ct.codeBits x.toNat = codebits c L.toNat ∧
      (∀ y, y ≠ x.toNat → t.ct.isValid y = s.ct.isValid y ∧ t.ct.lenOf y = s.ct.lenOf y ∧
        t.ct.codeBits y = s.ct.codeBits y) ∧
      t.regs = s.regs ∧ t.dt = s.dt ∧ t.src = s.src ∧ t.dst = s.dst ∧ t.engine = s.engine ∧ t.params = s.params) ∧
  ∀ (s : State) (bytes : List Byte), s.params.ok = true → s.busy = false → s.port.rst = false →
    bytes.length ≤ s.params.srcDepth → s.port.inputs = (Pseudo.loadsrc bytes).events s.params →
    ∃ t, Runs s.port.inputs.length s t ∧ t.port.inputs = [] ∧ t.message = bytes ∧
      t.regs = { s.regs with srcLen := BitVec.ofNat 32 bytes.length } ∧
      (∀ i, 4 * ((bytes.length + 3) / 4) ≤ i → t.src.read i = s.src.read i) ∧
      t.ct = s.ct ∧ t.dt = s.dt ∧ t.dst = s.dst ∧ t.engine = s.engine ∧ t.params = s.params

/-! ## Interrupt -/

/-- `irq` is the OR of the enabled status bits; ACK (`WR 0x00C, 0xE`) lowers it, and an accepted command lowers what
DONE and ERR raise (10_state.md section 4, 60_exceptions.md section 4). -/
def Obligations.IrqFollowsStatusAndEnables : Prop :=
  (∀ s : State, s.irq = true ↔
    (s.regs.done = true ∧ s.regs.irqEn.getLsbD 0 = true) ∨ (s.regs.err = true ∧ s.regs.irqEn.getLsbD 1 = true) ∨
      (s.regs.rej = true ∧ s.regs.irqEn.getLsbD 2 = true)) ∧
  (∀ s t : State, step (s.withEvent (s.wrEvent 0x00C 0xE#32)) = .next t → t.irq = false) ∧
  ∀ (s t : State) (i : Instr), s.busy = false → i ∈ [Instr.encode, Instr.decode, Instr.clearTable] →
    exec i s = .next t → (t.irq = true ↔ s.regs.rej = true ∧ s.regs.irqEn.getLsbD 2 = true)

/-! ## Invariants and whole-machine rules -/

/-- The state after reset holds the values of 10_state.md section 6 that the spec gives. -/
def Obligations.ResetStateValues : Prop :=
  State.reset.statusWord = 0 ∧ State.reset.regs.errorWord = 0 ∧ State.reset.regs.errPos = 0 ∧
  State.reset.regs.srcLen = 0 ∧ State.reset.regs.results = ⟨0, 0, 0, 0, 0, 0⟩ ∧ State.reset.regs.irqEn = 0 ∧
  State.reset.irq = false ∧ State.reset.engine.phase = .idle ∧ (∀ x, State.reset.ct.isValid x = false) ∧
  (∀ e, State.reset.dt.isValid e = false)

/-- The invariant holds of the state after reset. -/
def Obligations.ResetStateIsGood : Prop := State.reset.Inv

/-- Every step from a good state gives a good state: memories stay in canonical form, counters stay within 32 bits,
PHASE, LAST_CMD and the working registers agree, and the registers a start cleared stay clear while it runs. -/
def Obligations.StepKeepsGoodStates : Prop := ∀ s t : State, s.Inv → step s = .next t → t.Inv

/-- A good state never stops: its step gives a next state, with no fault and no refusal. -/
def Obligations.GoodStatesNeverStop : Prop := ∀ s : State, s.Inv → ∃ t, step s = .next t

/-- No step changes the instance's parameters. -/
def Obligations.ParametersNeverChange : Prop := ∀ s t : State, step s = .next t → t.params = s.params

/-- REJ is cleared only by a host write of 1 to its STATUS bit or by reset, never by a command start (10_state.md
section 2). -/
def Obligations.RejClearedOnlyByAckOrReset : Prop :=
  ∀ s t : State, step s = .next t → s.regs.rej = true → t.regs.rej = false →
    s.ResetNext ∨ ∃ rest addr v, s.port.inputs = .host (.wr addr 4 v) :: rest ∧
      offsetOf s.params addr = some 0x00C ∧ v.getLsbD 3 = true

/-- DT changes only by an engine step of DECODE or by reset (40_host_access.md section 1). -/
def Obligations.DtWrittenOnlyByDecodeOrReset : Prop :=
  ∀ s t : State, step s = .next t → t.dt ≠ s.dt → s.ResetNext ∨ (s.EngineNext ∧ s.engine.phase.decoding = true)

/-- SRC changes only by a host write while idle or by reset: no command changes it (10_state.md section 3,
70_reset_and_hazards.md section 3). -/
def Obligations.SrcNeverChangedByCommands : Prop :=
  ∀ s t : State, step s = .next t → t.src ≠ s.src →
    s.ResetNext ∨ (s.busy = false ∧ ∃ rest addr v off i, s.port.inputs = .host (.wr addr 4 v) :: rest ∧
      offsetOf s.params addr = some off ∧ regionOf s.params off = some (.src i))
end

