-- ==== Sys2Proof/Laws/Memory.lean ====
section
/-! SUPPORT. What every memory operation does: reads after writes, and that every write keeps the canonical form. -/

namespace Sys2Proof.Machine

variable {w : Nat}

/-! ## Lists of cells -/

theorem lookupCell_insertCell_same (k : Nat) (v : BitVec w) (l : List (Nat × BitVec w)) :
    lookupCell k (insertCell k v l) = some v := by
  induction l with
  | nil => simp [insertCell, lookupCell]
  | cons c rest ih =>
    obtain ⟨k', v'⟩ := c
    simp only [insertCell]
    split_ifs with h1 h2
    · simp [lookupCell]
    · simp [lookupCell]
    · simp [lookupCell, h2, ih]

theorem lookupCell_insertCell_other {j k : Nat} (h : j ≠ k) (v : BitVec w) (l : List (Nat × BitVec w)) :
    lookupCell j (insertCell k v l) = lookupCell j l := by
  induction l with
  | nil => simp [insertCell, lookupCell, h]
  | cons c rest ih =>
    obtain ⟨k', v'⟩ := c
    simp only [insertCell]
    split_ifs with h1 h2
    · simp [lookupCell, h]
    · subst h2; simp [lookupCell, h]
    · simp [lookupCell, ih]

theorem lookupCell_eraseCell_same (k : Nat) (l : List (Nat × BitVec w)) :
    lookupCell k (eraseCell k l) = none := by
  induction l with
  | nil => rfl
  | cons c rest ih =>
    obtain ⟨k', v'⟩ := c
    simp only [eraseCell]
    split_ifs with h1
    · exact ih
    · simp [lookupCell, h1, ih]

theorem lookupCell_eraseCell_other {j k : Nat} (h : j ≠ k) (l : List (Nat × BitVec w)) :
    lookupCell j (eraseCell k l) = lookupCell j l := by
  induction l with
  | nil => rfl
  | cons c rest ih =>
    obtain ⟨k', v'⟩ := c
    simp only [eraseCell]
    split_ifs with h1
    · subst h1; simp [lookupCell, ih, h]
    · simp [lookupCell, ih]

theorem risingFrom_mono {a b n : Nat} (hab : a ≤ b) :
    (l : List (Nat × BitVec w)) → risingFrom b n l = true → risingFrom a n l = true
  | [] => fun _ => rfl
  | (k, _) :: _ => by
    simp only [risingFrom, Bool.and_eq_true, decide_eq_true_eq]
    exact fun h => ⟨⟨by omega, h.1.2⟩, h.2⟩

theorem risingFrom_insertCell {a n k : Nat} (v : BitVec w) (ha : a ≤ k) (hn : k < n) :
    (l : List (Nat × BitVec w)) → risingFrom a n l = true → risingFrom a n (insertCell k v l) = true
  | [] => fun _ => by simp [insertCell, risingFrom, ha, hn]
  | (k', v') :: rest => by
    intro h
    simp only [risingFrom, Bool.and_eq_true, decide_eq_true_eq] at h
    simp only [insertCell]
    split_ifs with h1 h2
    · simp only [risingFrom, Bool.and_eq_true, decide_eq_true_eq]
      exact ⟨⟨ha, hn⟩, ⟨by omega, h.1.2⟩, h.2⟩
    · subst h2
      simp only [risingFrom, Bool.and_eq_true, decide_eq_true_eq]
      exact h
    · simp only [risingFrom, Bool.and_eq_true, decide_eq_true_eq]
      exact ⟨h.1, risingFrom_insertCell v (by omega) hn rest h.2⟩

theorem risingFrom_eraseCell {n : Nat} (k : Nat) :
    (l : List (Nat × BitVec w)) → (a : Nat) → risingFrom a n l = true → risingFrom a n (eraseCell k l) = true
  | [] => fun _ _ => rfl
  | (k', v') :: rest => by
    intro a h
    simp only [risingFrom, Bool.and_eq_true, decide_eq_true_eq] at h
    simp only [eraseCell]
    split_ifs with h1
    · exact risingFrom_eraseCell k rest a (risingFrom_mono (by omega) rest h.2)
    · simp only [risingFrom, Bool.and_eq_true, decide_eq_true_eq]
      exact ⟨h.1, risingFrom_eraseCell k rest _ h.2⟩

theorem noneFill_insertCell {f : Fill w} {v : BitVec w} (hv : f ≠ .value v) (k : Nat) (l : List (Nat × BitVec w))
    (h : noneFill f l = true) : noneFill f (insertCell k v l) = true := by
  induction l with
  | nil => simp [insertCell, noneFill, hv]
  | cons c rest ih =>
    obtain ⟨k', v'⟩ := c
    simp only [noneFill, List.all_cons, Bool.and_eq_true, Bool.not_eq_true', decide_eq_false_iff_not] at h ih
    simp only [insertCell]
    split_ifs <;>
      simp only [noneFill, List.all_cons, Bool.and_eq_true, Bool.not_eq_true', decide_eq_false_iff_not]
    · exact ⟨hv, h.1, h.2⟩
    · exact ⟨hv, h.2⟩
    · exact ⟨h.1, ih h.2⟩

theorem noneFill_eraseCell (f : Fill w) (k : Nat) (l : List (Nat × BitVec w)) (h : noneFill f l = true) :
    noneFill f (eraseCell k l) = true := by
  induction l with
  | nil => rfl
  | cons c rest ih =>
    obtain ⟨k', v'⟩ := c
    simp only [noneFill, List.all_cons, Bool.and_eq_true] at h ih
    simp only [eraseCell]
    split_ifs
    · exact ih h.2
    · simp only [noneFill, List.all_cons, Bool.and_eq_true]; exact ⟨h.1, ih h.2⟩

/-! ## Memories -/

@[simp] theorem Memory.write_fill (m : Memory w) (k : Nat) (v : BitVec w) : (m.write k v).fill = m.fill := rfl

@[simp] theorem Memory.read_write_same (m : Memory w) (k : Nat) (v : BitVec w) : (m.write k v).read k = v := by
  unfold Memory.read Memory.write
  split_ifs with h
  · simp [lookupCell_eraseCell_same, h, Fill.at]
  · simp [lookupCell_insertCell_same]

theorem Memory.read_write_other (m : Memory w) {j k : Nat} (h : j ≠ k) (v : BitVec w) :
    (m.write k v).read j = m.read j := by
  unfold Memory.read Memory.write
  split_ifs
  · simp [lookupCell_eraseCell_other h]
  · simp [lookupCell_insertCell_other h]

/-- A write gives the written place its value and leaves every other place alone. -/
theorem Memory.read_write (m : Memory w) (j k : Nat) (v : BitVec w) :
    (m.write k v).read j = if j = k then v else m.read j := by
  split_ifs with h
  · subst h; exact m.read_write_same j v
  · exact m.read_write_other h v

theorem Memory.read_writeWithin (size : Nat) (m : Memory w) (j k : Nat) (v : BitVec w) :
    (m.writeWithin size k v).read j = if j = k ∧ k < size then v else m.read j := by
  unfold Memory.writeWithin
  split_ifs with h1 h2 h2
  · rw [h2.1]; exact m.read_write_same k v
  · exact m.read_write_other (fun h => h2 ⟨h, h1⟩) v
  · exact absurd h2.2 h1
  · rfl

@[simp] theorem Memory.writeWithin_fill (size : Nat) (m : Memory w) (k : Nat) (v : BitVec w) :
    (m.writeWithin size k v).fill = m.fill := by
  unfold Memory.writeWithin; split_ifs <;> rfl

@[simp] theorem Memory.writeList_fill (size : Nat) (l : List (BitVec w)) :
    ∀ (m : Memory w) (k : Nat), (m.writeList size k l).fill = m.fill := by
  induction l with
  | nil => exact fun _ _ => rfl
  | cons v rest ih => intro m k; simp [Memory.writeList, ih]

/-- A place before the written ones keeps its value. -/
theorem Memory.read_writeList_before (size : Nat) (l : List (BitVec w)) :
    ∀ (m : Memory w) (k j : Nat), j < k → (m.writeList size k l).read j = m.read j := by
  induction l with
  | nil => exact fun _ _ _ _ => rfl
  | cons v rest ih =>
    intro m k j h
    rw [Memory.writeList, ih _ _ _ (by omega), Memory.read_writeWithin, if_neg (by omega)]

/-- What `writeList` does, all of it: the places `k, k + 1, ...` inside the memory get the listed values, every other
place keeps its value. -/
theorem Memory.read_writeList (size : Nat) (l : List (BitVec w)) :
    ∀ (m : Memory w) (k j : Nat),
      (m.writeList size k l).read j
        = if h : k ≤ j ∧ j < k + l.length ∧ j < size then l[j - k] else m.read j := by
  induction l with
  | nil => intro m k j; rw [dif_neg (by simp only [List.length_nil]; omega)]; rfl
  | cons v rest ih =>
    intro m k j
    rw [Memory.writeList]
    rcases Nat.lt_trichotomy j k with h | h | h
    · rw [Memory.read_writeList_before _ _ _ _ _ (by omega), Memory.read_writeWithin, if_neg (by omega),
        dif_neg (by omega)]
    · subst h
      rw [Memory.read_writeList_before _ _ _ _ _ (by omega), Memory.read_writeWithin]
      by_cases hs : j < size
      · rw [if_pos ⟨rfl, hs⟩, dif_pos (by simp only [List.length_cons]; omega)]; simp
      · rw [if_neg (by omega), dif_neg (by omega)]
    · rw [ih, Memory.read_writeWithin]
      by_cases hj : k + 1 ≤ j ∧ j < k + 1 + rest.length ∧ j < size
      · rw [dif_pos hj, dif_pos (by simp only [List.length_cons]; omega), List.getElem_cons, dif_neg (by omega)]
        congr 1
      · rw [dif_neg hj, if_neg (by omega), dif_neg (by simp only [List.length_cons]; omega)]

/-! ## The canonical form -/

theorem Memory.wf_anyAll (size draw : Nat) : (Memory.anyAll draw : Memory w).wf size = true := rfl

theorem Memory.wf_zeroAll (size : Nat) : (Memory.zeroAll : Memory w).wf size = true := rfl

theorem Memory.write_wf {size : Nat} {m : Memory w} (h : m.wf size = true) {k : Nat} (hk : k < size) (v : BitVec w) :
    (m.write k v).wf size = true := by
  simp only [Memory.wf, Bool.and_eq_true] at h ⊢
  unfold Memory.write
  split_ifs with hv
  · exact ⟨risingFrom_eraseCell k _ 0 h.1, noneFill_eraseCell _ k _ h.2⟩
  · exact ⟨risingFrom_insertCell v (Nat.zero_le k) hk _ h.1, noneFill_insertCell hv k _ h.2⟩

theorem Memory.writeWithin_wf {size : Nat} {m : Memory w} (h : m.wf size = true) (k : Nat) (v : BitVec w) :
    (m.writeWithin size k v).wf size = true := by
  unfold Memory.writeWithin
  split_ifs with hk
  · exact Memory.write_wf h hk v
  · exact h

theorem Memory.writeList_wf {size : Nat} (l : List (BitVec w)) :
    ∀ (m : Memory w) (k : Nat), m.wf size = true → (m.writeList size k l).wf size = true := by
  induction l with
  | nil => exact fun _ _ h => h
  | cons v rest ih => exact fun m k h => ih _ _ (Memory.writeWithin_wf h k v)

/-! ## Equal memories are equal data -/

/-- In a canonical list an index below the first one is not listed. -/
theorem lookupCell_of_lt {a n k : Nat} (hk : k < a) :
    (l : List (Nat × BitVec w)) → risingFrom a n l = true → lookupCell k l = none
  | [] => fun _ => rfl
  | (k', v') :: rest => by
    intro h
    simp only [risingFrom, Bool.and_eq_true, decide_eq_true_eq] at h
    rw [lookupCell, if_neg (by omega)]
    exact lookupCell_of_lt (by omega) rest h.2

/-- Two canonical lists that list the same values at every index are equal. -/
theorem cells_ext {n : Nat} :
    (l l' : List (Nat × BitVec w)) → (a a' : Nat) → risingFrom a n l = true → risingFrom a' n l' = true →
      (∀ k, lookupCell k l = lookupCell k l') → l = l'
  | [], [] => fun _ _ _ _ _ => rfl
  | [], (k, v) :: _ => fun _ _ _ _ h => by simpa [lookupCell] using h k
  | (k, v) :: _, [] => fun _ _ _ _ h => by simpa [lookupCell] using h k
  | (k, v) :: l, (k', v') :: l' => by
    intro a a' h h' he
    simp only [risingFrom, Bool.and_eq_true, decide_eq_true_eq] at h h'
    have hkk : k = k' := by
      rcases Nat.lt_trichotomy k k' with c | c | c
      · have := he k
        rw [lookupCell, if_pos rfl, lookupCell, if_neg (by omega), lookupCell_of_lt (by omega) l' h'.2] at this
        simp at this
      · exact c
      · have := he k'
        rw [lookupCell, if_neg (by omega), lookupCell, if_pos rfl, lookupCell_of_lt (by omega) l h.2] at this
        simp at this
    subst hkk
    have hv : v = v' := by simpa [lookupCell] using he k
    subst hv
    have : l = l' := by
      refine cells_ext l l' (k + 1) (k + 1) h.2 h'.2 fun j => ?_
      by_cases hj : j = k
      · subst hj
        rw [lookupCell_of_lt (by omega) l h.2, lookupCell_of_lt (by omega) l' h'.2]
      · simpa [lookupCell, hj] using he j
    rw [this]

/-! ## Reading runs of places -/

@[simp] theorem Memory.readList_length (m : Memory w) (n : Nat) : ∀ i, (m.readList i n).length = n := by
  induction n with
  | zero => exact fun _ => rfl
  | succ n ih => intro i; simp [Memory.readList, ih]

theorem Memory.readList_getElem (m : Memory w) (n : Nat) :
    ∀ (i j : Nat) (h : j < (m.readList i n).length), (m.readList i n)[j] = m.read (i + j) := by
  induction n with
  | zero => intro i j h; simp [Memory.readList] at h
  | succ n ih =>
    intro i j h
    cases j with
    | zero => rfl
    | succ j =>
      simp only [Memory.readList, List.getElem_cons_succ]
      rw [ih]; congr 1; omega

end Sys2Proof.Machine
end

