-- ==== Sys2Proof/Laws/State.lean ====
section
/-! SUPPORT. One lemma per field of the state per named update, so that no later proof unfolds a record update. -/

namespace Sys2Proof.Machine

section Updates

variable (s : State)

@[simp] theorem State.withRegs_params (x : Regs) : (s.withRegs x).params = s.params := rfl
@[simp] theorem State.withRegs_regs (x : Regs) : (s.withRegs x).regs = x := rfl
@[simp] theorem State.withRegs_ct (x : Regs) : (s.withRegs x).ct = s.ct := rfl
@[simp] theorem State.withRegs_dt (x : Regs) : (s.withRegs x).dt = s.dt := rfl
@[simp] theorem State.withRegs_src (x : Regs) : (s.withRegs x).src = s.src := rfl
@[simp] theorem State.withRegs_dst (x : Regs) : (s.withRegs x).dst = s.dst := rfl
@[simp] theorem State.withRegs_engine (x : Regs) : (s.withRegs x).engine = s.engine := rfl
@[simp] theorem State.withRegs_port (x : Regs) : (s.withRegs x).port = s.port := rfl
@[simp] theorem State.withRegs_draw (x : Regs) : (s.withRegs x).draw = s.draw := rfl

@[simp] theorem State.withCt_params (x : CodeTable) : (s.withCt x).params = s.params := rfl
@[simp] theorem State.withCt_regs (x : CodeTable) : (s.withCt x).regs = s.regs := rfl
@[simp] theorem State.withCt_ct (x : CodeTable) : (s.withCt x).ct = x := rfl
@[simp] theorem State.withCt_dt (x : CodeTable) : (s.withCt x).dt = s.dt := rfl
@[simp] theorem State.withCt_src (x : CodeTable) : (s.withCt x).src = s.src := rfl
@[simp] theorem State.withCt_dst (x : CodeTable) : (s.withCt x).dst = s.dst := rfl
@[simp] theorem State.withCt_engine (x : CodeTable) : (s.withCt x).engine = s.engine := rfl
@[simp] theorem State.withCt_port (x : CodeTable) : (s.withCt x).port = s.port := rfl
@[simp] theorem State.withCt_draw (x : CodeTable) : (s.withCt x).draw = s.draw := rfl

@[simp] theorem State.withDt_params (x : DecodeTable) : (s.withDt x).params = s.params := rfl
@[simp] theorem State.withDt_regs (x : DecodeTable) : (s.withDt x).regs = s.regs := rfl
@[simp] theorem State.withDt_ct (x : DecodeTable) : (s.withDt x).ct = s.ct := rfl
@[simp] theorem State.withDt_dt (x : DecodeTable) : (s.withDt x).dt = x := rfl
@[simp] theorem State.withDt_src (x : DecodeTable) : (s.withDt x).src = s.src := rfl
@[simp] theorem State.withDt_dst (x : DecodeTable) : (s.withDt x).dst = s.dst := rfl
@[simp] theorem State.withDt_engine (x : DecodeTable) : (s.withDt x).engine = s.engine := rfl
@[simp] theorem State.withDt_port (x : DecodeTable) : (s.withDt x).port = s.port := rfl
@[simp] theorem State.withDt_draw (x : DecodeTable) : (s.withDt x).draw = s.draw := rfl

@[simp] theorem State.withSrc_params (x : Memory 8) : (s.withSrc x).params = s.params := rfl
@[simp] theorem State.withSrc_regs (x : Memory 8) : (s.withSrc x).regs = s.regs := rfl
@[simp] theorem State.withSrc_ct (x : Memory 8) : (s.withSrc x).ct = s.ct := rfl
@[simp] theorem State.withSrc_dt (x : Memory 8) : (s.withSrc x).dt = s.dt := rfl
@[simp] theorem State.withSrc_src (x : Memory 8) : (s.withSrc x).src = x := rfl
@[simp] theorem State.withSrc_dst (x : Memory 8) : (s.withSrc x).dst = s.dst := rfl
@[simp] theorem State.withSrc_engine (x : Memory 8) : (s.withSrc x).engine = s.engine := rfl
@[simp] theorem State.withSrc_port (x : Memory 8) : (s.withSrc x).port = s.port := rfl
@[simp] theorem State.withSrc_draw (x : Memory 8) : (s.withSrc x).draw = s.draw := rfl

@[simp] theorem State.withDst_params (x : Memory 8) : (s.withDst x).params = s.params := rfl
@[simp] theorem State.withDst_regs (x : Memory 8) : (s.withDst x).regs = s.regs := rfl
@[simp] theorem State.withDst_ct (x : Memory 8) : (s.withDst x).ct = s.ct := rfl
@[simp] theorem State.withDst_dt (x : Memory 8) : (s.withDst x).dt = s.dt := rfl
@[simp] theorem State.withDst_src (x : Memory 8) : (s.withDst x).src = s.src := rfl
@[simp] theorem State.withDst_dst (x : Memory 8) : (s.withDst x).dst = x := rfl
@[simp] theorem State.withDst_engine (x : Memory 8) : (s.withDst x).engine = s.engine := rfl
@[simp] theorem State.withDst_port (x : Memory 8) : (s.withDst x).port = s.port := rfl
@[simp] theorem State.withDst_draw (x : Memory 8) : (s.withDst x).draw = s.draw := rfl

@[simp] theorem State.withEngine_params (x : Engine) : (s.withEngine x).params = s.params := rfl
@[simp] theorem State.withEngine_regs (x : Engine) : (s.withEngine x).regs = s.regs := rfl
@[simp] theorem State.withEngine_ct (x : Engine) : (s.withEngine x).ct = s.ct := rfl
@[simp] theorem State.withEngine_dt (x : Engine) : (s.withEngine x).dt = s.dt := rfl
@[simp] theorem State.withEngine_src (x : Engine) : (s.withEngine x).src = s.src := rfl
@[simp] theorem State.withEngine_dst (x : Engine) : (s.withEngine x).dst = s.dst := rfl
@[simp] theorem State.withEngine_engine (x : Engine) : (s.withEngine x).engine = x := rfl
@[simp] theorem State.withEngine_port (x : Engine) : (s.withEngine x).port = s.port := rfl
@[simp] theorem State.withEngine_draw (x : Engine) : (s.withEngine x).draw = s.draw := rfl

@[simp] theorem State.withPort_params (x : Port) : (s.withPort x).params = s.params := rfl
@[simp] theorem State.withPort_regs (x : Port) : (s.withPort x).regs = s.regs := rfl
@[simp] theorem State.withPort_ct (x : Port) : (s.withPort x).ct = s.ct := rfl
@[simp] theorem State.withPort_dt (x : Port) : (s.withPort x).dt = s.dt := rfl
@[simp] theorem State.withPort_src (x : Port) : (s.withPort x).src = s.src := rfl
@[simp] theorem State.withPort_dst (x : Port) : (s.withPort x).dst = s.dst := rfl
@[simp] theorem State.withPort_engine (x : Port) : (s.withPort x).engine = s.engine := rfl
@[simp] theorem State.withPort_port (x : Port) : (s.withPort x).port = x := rfl
@[simp] theorem State.withPort_draw (x : Port) : (s.withPort x).draw = s.draw := rfl

@[simp] theorem State.withDraw_params (x : Nat) : (s.withDraw x).params = s.params := rfl
@[simp] theorem State.withDraw_regs (x : Nat) : (s.withDraw x).regs = s.regs := rfl
@[simp] theorem State.withDraw_ct (x : Nat) : (s.withDraw x).ct = s.ct := rfl
@[simp] theorem State.withDraw_dt (x : Nat) : (s.withDraw x).dt = s.dt := rfl
@[simp] theorem State.withDraw_src (x : Nat) : (s.withDraw x).src = s.src := rfl
@[simp] theorem State.withDraw_dst (x : Nat) : (s.withDraw x).dst = s.dst := rfl
@[simp] theorem State.withDraw_engine (x : Nat) : (s.withDraw x).engine = s.engine := rfl
@[simp] theorem State.withDraw_port (x : Nat) : (s.withDraw x).port = s.port := rfl
@[simp] theorem State.withDraw_draw (x : Nat) : (s.withDraw x).draw = x := rfl

@[simp] theorem State.respond_params (b : BusStatus) (d : Option Word) : (s.respond b d).params = s.params := rfl
@[simp] theorem State.respond_regs (b : BusStatus) (d : Option Word) : (s.respond b d).regs = s.regs := rfl
@[simp] theorem State.respond_ct (b : BusStatus) (d : Option Word) : (s.respond b d).ct = s.ct := rfl
@[simp] theorem State.respond_dt (b : BusStatus) (d : Option Word) : (s.respond b d).dt = s.dt := rfl
@[simp] theorem State.respond_src (b : BusStatus) (d : Option Word) : (s.respond b d).src = s.src := rfl
@[simp] theorem State.respond_dst (b : BusStatus) (d : Option Word) : (s.respond b d).dst = s.dst := rfl
@[simp] theorem State.respond_engine (b : BusStatus) (d : Option Word) : (s.respond b d).engine = s.engine := rfl
@[simp] theorem State.respond_draw (b : BusStatus) (d : Option Word) : (s.respond b d).draw = s.draw := rfl
@[simp] theorem State.respond_response (b : BusStatus) (d : Option Word) : (s.respond b d).port.response = some ⟨b, d⟩ := rfl
@[simp] theorem State.respond_inputs (b : BusStatus) (d : Option Word) : (s.respond b d).port.inputs = s.port.inputs := rfl
@[simp] theorem State.respond_rst (b : BusStatus) (d : Option Word) : (s.respond b d).port.rst = s.port.rst := rfl

@[simp] theorem State.okay_params : s.okay.params = s.params := rfl
@[simp] theorem State.okay_regs : s.okay.regs = s.regs := rfl
@[simp] theorem State.okay_ct : s.okay.ct = s.ct := rfl
@[simp] theorem State.okay_dt : s.okay.dt = s.dt := rfl
@[simp] theorem State.okay_src : s.okay.src = s.src := rfl
@[simp] theorem State.okay_dst : s.okay.dst = s.dst := rfl
@[simp] theorem State.okay_engine : s.okay.engine = s.engine := rfl
@[simp] theorem State.okay_draw : s.okay.draw = s.draw := rfl
@[simp] theorem State.okay_response : s.okay.port.response = some ⟨.okay, none⟩ := rfl
@[simp] theorem State.okay_inputs : s.okay.port.inputs = s.port.inputs := rfl
@[simp] theorem State.okay_rst : s.okay.port.rst = s.port.rst := rfl

@[simp] theorem State.withPhase_params (x : Phase) : (s.withPhase x).params = s.params := rfl
@[simp] theorem State.withPhase_regs (x : Phase) : (s.withPhase x).regs = s.regs := rfl
@[simp] theorem State.withPhase_ct (x : Phase) : (s.withPhase x).ct = s.ct := rfl
@[simp] theorem State.withPhase_dt (x : Phase) : (s.withPhase x).dt = s.dt := rfl
@[simp] theorem State.withPhase_src (x : Phase) : (s.withPhase x).src = s.src := rfl
@[simp] theorem State.withPhase_dst (x : Phase) : (s.withPhase x).dst = s.dst := rfl
@[simp] theorem State.withPhase_port (x : Phase) : (s.withPhase x).port = s.port := rfl
@[simp] theorem State.withPhase_draw (x : Phase) : (s.withPhase x).draw = s.draw := rfl
@[simp] theorem State.withPhase_phase (x : Phase) : (s.withPhase x).engine.phase = x := rfl
@[simp] theorem State.withPhase_work (x : Phase) : (s.withPhase x).engine.work = s.engine.work := rfl
@[simp] theorem State.withPhase_packer (x : Phase) : (s.withPhase x).engine.packer = s.engine.packer := rfl
@[simp] theorem State.withPhase_unpacker (x : Phase) : (s.withPhase x).engine.unpacker = s.engine.unpacker := rfl
@[simp] theorem State.withPhase_matcher (x : Phase) : (s.withPhase x).engine.matcher = s.engine.matcher := rfl
@[simp] theorem State.withPhase_left (x : Phase) : (s.withPhase x).engine.left = s.engine.left := rfl

@[simp] theorem State.withWork_params (x : Work) : (s.withWork x).params = s.params := rfl
@[simp] theorem State.withWork_regs (x : Work) : (s.withWork x).regs = s.regs := rfl
@[simp] theorem State.withWork_ct (x : Work) : (s.withWork x).ct = s.ct := rfl
@[simp] theorem State.withWork_dt (x : Work) : (s.withWork x).dt = s.dt := rfl
@[simp] theorem State.withWork_src (x : Work) : (s.withWork x).src = s.src := rfl
@[simp] theorem State.withWork_dst (x : Work) : (s.withWork x).dst = s.dst := rfl
@[simp] theorem State.withWork_port (x : Work) : (s.withWork x).port = s.port := rfl
@[simp] theorem State.withWork_draw (x : Work) : (s.withWork x).draw = s.draw := rfl
@[simp] theorem State.withWork_phase (x : Work) : (s.withWork x).engine.phase = s.engine.phase := rfl
@[simp] theorem State.withWork_work (x : Work) : (s.withWork x).engine.work = x := rfl
@[simp] theorem State.withWork_packer (x : Work) : (s.withWork x).engine.packer = s.engine.packer := rfl
@[simp] theorem State.withWork_unpacker (x : Work) : (s.withWork x).engine.unpacker = s.engine.unpacker := rfl
@[simp] theorem State.withWork_matcher (x : Work) : (s.withWork x).engine.matcher = s.engine.matcher := rfl
@[simp] theorem State.withWork_left (x : Work) : (s.withWork x).engine.left = s.engine.left := rfl

@[simp] theorem State.withPacker_params (x : Packer) : (s.withPacker x).params = s.params := rfl
@[simp] theorem State.withPacker_regs (x : Packer) : (s.withPacker x).regs = s.regs := rfl
@[simp] theorem State.withPacker_ct (x : Packer) : (s.withPacker x).ct = s.ct := rfl
@[simp] theorem State.withPacker_dt (x : Packer) : (s.withPacker x).dt = s.dt := rfl
@[simp] theorem State.withPacker_src (x : Packer) : (s.withPacker x).src = s.src := rfl
@[simp] theorem State.withPacker_dst (x : Packer) : (s.withPacker x).dst = s.dst := rfl
@[simp] theorem State.withPacker_port (x : Packer) : (s.withPacker x).port = s.port := rfl
@[simp] theorem State.withPacker_draw (x : Packer) : (s.withPacker x).draw = s.draw := rfl
@[simp] theorem State.withPacker_phase (x : Packer) : (s.withPacker x).engine.phase = s.engine.phase := rfl
@[simp] theorem State.withPacker_work (x : Packer) : (s.withPacker x).engine.work = s.engine.work := rfl
@[simp] theorem State.withPacker_packer (x : Packer) : (s.withPacker x).engine.packer = x := rfl
@[simp] theorem State.withPacker_unpacker (x : Packer) : (s.withPacker x).engine.unpacker = s.engine.unpacker := rfl
@[simp] theorem State.withPacker_matcher (x : Packer) : (s.withPacker x).engine.matcher = s.engine.matcher := rfl
@[simp] theorem State.withPacker_left (x : Packer) : (s.withPacker x).engine.left = s.engine.left := rfl

@[simp] theorem State.withUnpacker_params (x : Unpacker) : (s.withUnpacker x).params = s.params := rfl
@[simp] theorem State.withUnpacker_regs (x : Unpacker) : (s.withUnpacker x).regs = s.regs := rfl
@[simp] theorem State.withUnpacker_ct (x : Unpacker) : (s.withUnpacker x).ct = s.ct := rfl
@[simp] theorem State.withUnpacker_dt (x : Unpacker) : (s.withUnpacker x).dt = s.dt := rfl
@[simp] theorem State.withUnpacker_src (x : Unpacker) : (s.withUnpacker x).src = s.src := rfl
@[simp] theorem State.withUnpacker_dst (x : Unpacker) : (s.withUnpacker x).dst = s.dst := rfl
@[simp] theorem State.withUnpacker_port (x : Unpacker) : (s.withUnpacker x).port = s.port := rfl
@[simp] theorem State.withUnpacker_draw (x : Unpacker) : (s.withUnpacker x).draw = s.draw := rfl
@[simp] theorem State.withUnpacker_phase (x : Unpacker) : (s.withUnpacker x).engine.phase = s.engine.phase := rfl
@[simp] theorem State.withUnpacker_work (x : Unpacker) : (s.withUnpacker x).engine.work = s.engine.work := rfl
@[simp] theorem State.withUnpacker_packer (x : Unpacker) : (s.withUnpacker x).engine.packer = s.engine.packer := rfl
@[simp] theorem State.withUnpacker_unpacker (x : Unpacker) : (s.withUnpacker x).engine.unpacker = x := rfl
@[simp] theorem State.withUnpacker_matcher (x : Unpacker) : (s.withUnpacker x).engine.matcher = s.engine.matcher := rfl
@[simp] theorem State.withUnpacker_left (x : Unpacker) : (s.withUnpacker x).engine.left = s.engine.left := rfl

@[simp] theorem State.withMatcher_params (x : Matcher) : (s.withMatcher x).params = s.params := rfl
@[simp] theorem State.withMatcher_regs (x : Matcher) : (s.withMatcher x).regs = s.regs := rfl
@[simp] theorem State.withMatcher_ct (x : Matcher) : (s.withMatcher x).ct = s.ct := rfl
@[simp] theorem State.withMatcher_dt (x : Matcher) : (s.withMatcher x).dt = s.dt := rfl
@[simp] theorem State.withMatcher_src (x : Matcher) : (s.withMatcher x).src = s.src := rfl
@[simp] theorem State.withMatcher_dst (x : Matcher) : (s.withMatcher x).dst = s.dst := rfl
@[simp] theorem State.withMatcher_port (x : Matcher) : (s.withMatcher x).port = s.port := rfl
@[simp] theorem State.withMatcher_draw (x : Matcher) : (s.withMatcher x).draw = s.draw := rfl
@[simp] theorem State.withMatcher_phase (x : Matcher) : (s.withMatcher x).engine.phase = s.engine.phase := rfl
@[simp] theorem State.withMatcher_work (x : Matcher) : (s.withMatcher x).engine.work = s.engine.work := rfl
@[simp] theorem State.withMatcher_packer (x : Matcher) : (s.withMatcher x).engine.packer = s.engine.packer := rfl
@[simp] theorem State.withMatcher_unpacker (x : Matcher) : (s.withMatcher x).engine.unpacker = s.engine.unpacker := rfl
@[simp] theorem State.withMatcher_matcher (x : Matcher) : (s.withMatcher x).engine.matcher = x := rfl
@[simp] theorem State.withMatcher_left (x : Matcher) : (s.withMatcher x).engine.left = s.engine.left := rfl

@[simp] theorem State.withLeft_params (x : Nat) : (s.withLeft x).params = s.params := rfl
@[simp] theorem State.withLeft_regs (x : Nat) : (s.withLeft x).regs = s.regs := rfl
@[simp] theorem State.withLeft_ct (x : Nat) : (s.withLeft x).ct = s.ct := rfl
@[simp] theorem State.withLeft_dt (x : Nat) : (s.withLeft x).dt = s.dt := rfl
@[simp] theorem State.withLeft_src (x : Nat) : (s.withLeft x).src = s.src := rfl
@[simp] theorem State.withLeft_dst (x : Nat) : (s.withLeft x).dst = s.dst := rfl
@[simp] theorem State.withLeft_port (x : Nat) : (s.withLeft x).port = s.port := rfl
@[simp] theorem State.withLeft_draw (x : Nat) : (s.withLeft x).draw = s.draw := rfl
@[simp] theorem State.withLeft_phase (x : Nat) : (s.withLeft x).engine.phase = s.engine.phase := rfl
@[simp] theorem State.withLeft_work (x : Nat) : (s.withLeft x).engine.work = s.engine.work := rfl
@[simp] theorem State.withLeft_packer (x : Nat) : (s.withLeft x).engine.packer = s.engine.packer := rfl
@[simp] theorem State.withLeft_unpacker (x : Nat) : (s.withLeft x).engine.unpacker = s.engine.unpacker := rfl
@[simp] theorem State.withLeft_matcher (x : Nat) : (s.withLeft x).engine.matcher = s.engine.matcher := rfl
@[simp] theorem State.withLeft_left (x : Nat) : (s.withLeft x).engine.left = x := rfl

end Updates

/-! ## STATUS.BUSY -/

/-- BUSY is 0 exactly when PHASE is IDLE (10_state.md R49). -/
theorem State.busy_eq_false_iff (s : State) : s.busy = false ↔ s.engine.phase = .idle := by
  unfold State.busy; cases s.engine.phase <;> simp

theorem State.busy_eq_true_iff (s : State) : s.busy = true ↔ s.engine.phase ≠ .idle := by
  unfold State.busy; cases s.engine.phase <;> simp

/-- BUSY depends on PHASE alone. -/
theorem State.busy_congr {s t : State} (h : s.engine.phase = t.engine.phase) : s.busy = t.busy := by
  unfold State.busy; rw [h]

end Sys2Proof.Machine
end

