-- ==== Sys2Proof/Laws/Ops.lean ====
section
/-! SUPPORT. What the shared operations of Ops.lean do, all of it, field by field. -/

namespace Sys2Proof.Machine

variable (s : State)

/-! ## Dropping a write or a command -/

/-- A drop sets REJ and changes nothing else (40_host_access.md R143, R159). -/
theorem State.reject_spec : s.reject = { s with regs := { s.regs with rej := true } } := rfl

@[simp] theorem State.reject_engine : s.reject.engine = s.engine := rfl
@[simp] theorem State.reject_busy : s.reject.busy = s.busy := rfl

/-! ## Command start -/

/-- `StartCommand` in one piece (R152). -/
theorem State.startCommand_spec (c : BitVec 3) (p : Phase) :
    s.startCommand c p =
      { s with
        regs :=
          { s.regs with
            done := false, err := false, lastCmd := c, errorCode := .none, errorDetail := 0, errPos := 0,
            results := Results.zero }
        engine := { s.engine with phase := p, left := s.params.engineSteps } } := rfl

theorem State.issue_idle {s : State} (h : s.busy = false) (c : BitVec 3) (p : Phase) :
    s.issue c p = s.startCommand c p := by simp [State.issue, h]

theorem State.issue_busy {s : State} (h : s.busy = true) (c : BitVec 3) (p : Phase) : s.issue c p = s.reject := by
  simp [State.issue, h]

/-! ## Completion and error entry -/

@[simp] theorem State.complete_params (r : Results) : (s.complete r).params = s.params := rfl
@[simp] theorem State.complete_ct (r : Results) : (s.complete r).ct = s.ct := rfl
@[simp] theorem State.complete_dt (r : Results) : (s.complete r).dt = s.dt := rfl
@[simp] theorem State.complete_src (r : Results) : (s.complete r).src = s.src := rfl
@[simp] theorem State.complete_dst (r : Results) : (s.complete r).dst = s.dst := rfl
@[simp] theorem State.complete_port (r : Results) : (s.complete r).port = s.port := rfl
@[simp] theorem State.complete_draw (r : Results) : (s.complete r).draw = s.draw + 1 := rfl
@[simp] theorem State.complete_engine (r : Results) : (s.complete r).engine = Engine.unspecified s.draw := rfl
@[simp] theorem State.complete_busy (r : Results) : (s.complete r).busy = false := rfl
@[simp] theorem State.complete_regs (r : Results) :
    (s.complete r).regs =
      { s.regs with done := true, errorCode := .none, errorDetail := 0, errPos := 0, results := r } := rfl

@[simp] theorem State.fail_params (e : EngineError) : (s.fail e).params = s.params := rfl
@[simp] theorem State.fail_ct (e : EngineError) : (s.fail e).ct = s.ct := rfl
@[simp] theorem State.fail_src (e : EngineError) : (s.fail e).src = s.src := rfl
@[simp] theorem State.fail_dst (e : EngineError) : (s.fail e).dst = Memory.anyAll (s.draw + 1) := rfl
@[simp] theorem State.fail_dt (e : EngineError) :
    (s.fail e).dt = if s.engine.phase.decoding then DecodeTable.any (s.draw + 2) else s.dt := rfl
@[simp] theorem State.fail_port (e : EngineError) : (s.fail e).port = s.port := rfl
@[simp] theorem State.fail_draw (e : EngineError) : (s.fail e).draw = s.draw + 6 := rfl
@[simp] theorem State.fail_engine (e : EngineError) : (s.fail e).engine = Engine.unspecified s.draw := rfl
@[simp] theorem State.fail_busy (e : EngineError) : (s.fail e).busy = false := rfl
@[simp] theorem State.fail_regs (e : EngineError) :
    (s.fail e).regs =
      { s.regs with
        done := true, err := true, errorCode := e.code, errorDetail := e.detail, errPos := Word.ofNat e.pos,
        results := Results.zero } := rfl

/-! ## The engine between commands -/

/-- ANY within their widths: the working registers of an idle engine are in range (10_state.md R53). -/
theorem Engine.unspecified_inRange (draw : Nat) : (Engine.unspecified draw).InRange where
  nSym := (Config.freeValue 32 draw 3).isLt
  k := Nat.le_of_lt_succ (Config.freeValue 3 draw 5).isLt
  tbits := (Config.freeValue 32 draw 6).isLt
  pbits := (Config.freeValue 32 draw 7).isLt
  start := (Config.freeValue 32 draw 9).isLt
  tend := (Config.freeValue 32 draw 10).isLt
  optr := (Config.freeValue 32 draw 11).isLt
  accN := Nat.le_of_lt_succ (Config.freeValue 3 draw 13).isLt
  q := (Config.freeValue 32 draw 14).isLt
  qlim := (Config.freeValue 32 draw 15).isLt
  mbuf := by
    have := (Config.freeValue 8 draw 0).isLt
    simp only [Engine.unspecified, anyBits, List.length_map, List.length_range]; omega
  mstart := (Config.freeValue 32 draw 16).isLt
  ocnt := (Config.freeValue 32 draw 17).isLt

@[simp] theorem Engine.unspecified_phase (draw : Nat) : (Engine.unspecified draw).phase = .idle := rfl

/-! ## The tables -/

theorem CodeTable.wf_reset (draw : Nat) : (CodeTable.reset draw).wf = true := rfl

theorem CodeTable.wf_cleared : CodeTable.cleared.wf = true := rfl

theorem DecodeTable.wf_reset (draw : Nat) : (DecodeTable.reset draw).wf = true := rfl

theorem DecodeTable.wf_cleared : DecodeTable.cleared.wf = true := rfl

theorem DecodeTable.wf_any (draw : Nat) : (DecodeTable.any draw).wf = true := rfl

theorem DecodeTable.wf_store {dt : DecodeTable} (h : dt.wf = true) (e : Nat) (l : BitVec 8) (c : BitVec 256)
    (x : BitVec 8) : (dt.store e l c x).wf = true := by
  simp only [DecodeTable.wf, Bool.and_eq_true] at h ⊢
  obtain ⟨⟨⟨h1, h2⟩, h3⟩, h4⟩ := h
  exact ⟨⟨⟨Memory.writeWithin_wf h1 _ _, Memory.writeWithin_wf h2 _ _⟩, Memory.writeWithin_wf h3 _ _⟩,
    Memory.writeWithin_wf h4 _ _⟩

/-- What storing an entry does to DT, as reads (43_decode.md R262). -/
theorem DecodeTable.read_store (dt : DecodeTable) (e j : Nat) (l : BitVec 8) (c : BitVec 256) (x : BitVec 8)
    (he : e < Config.dtEntries) :
    (dt.store e l c x).valid.read j = (if j = e then 1 else dt.valid.read j) ∧
    (dt.store e l c x).len.read j = (if j = e then l else dt.len.read j) ∧
    (dt.store e l c x).sym.read j = (if j = e then x else dt.sym.read j) ∧
    (dt.store e l c x).code.read j = (if j = e then c else dt.code.read j) := by
  simp only [DecodeTable.store, Memory.read_writeWithin, he, and_true, and_self]

/-! ## Reset -/

/-- Reset in one piece (70_reset_and_hazards.md R331, 10_state.md R53). -/
theorem State.resetEffect_spec :
    s.resetEffect =
      { params := s.params, regs := Regs.reset, ct := CodeTable.reset (s.draw + 1), dt := DecodeTable.reset (s.draw + 3)
        src := Memory.anyAll (s.draw + 6), dst := Memory.anyAll (s.draw + 7), engine := Engine.unspecified s.draw
        port := s.port, draw := s.draw + 8 } := rfl

@[simp] theorem State.resetEffect_busy : s.resetEffect.busy = false := rfl

/-- Reset leaves every memory in canonical form. -/
theorem State.resetEffect_memoriesOk : s.resetEffect.memoriesOk = true := rfl

/-! ## STATUS -/

theorem Regs.writeStatus_other (r : Regs) (v : Word) :
    r.writeStatus v =
      { r with
        done := r.done && !v.getLsbD 1, err := r.err && !v.getLsbD 2, rej := r.rej && !v.getLsbD 3 } := rfl

end Sys2Proof.Machine
end

