-- ==== Sys2Proof/Laws/Host.lean ====
section
/-! SUPPORT. The address map and host transactions: what each can change. -/

namespace Sys2Proof.Machine

/-! ## Addresses -/

/-- The system address of byte offset `off` is the block's, at offset `off`. -/
theorem offsetOf_base (p : Params) {off : Nat} (h : off < Config.addressSpace) :
    offsetOf p (p.hbcBase + off) = some off := by
  unfold offsetOf
  rw [if_pos ⟨Nat.le_add_right _ _, Nat.add_lt_add_left h _⟩, Nat.add_sub_cancel_left]

/-- A word access inside the address space at a multiple of 4 reaches its region. -/
theorem accessOf_word (p : Params) {off : Nat} (h : off % 4 = 0) : accessOf p off 4 = regionOf p off := by
  unfold accessOf; rw [if_pos ⟨rfl, h⟩]

theorem regionOf_reg (p : Params) {off : Nat} (h : off < 0x100) : regionOf p off = some (.reg off) := by
  unfold regionOf; rw [if_pos h]

theorem regionOf_ct (p : Params) {x w : Nat} (hx : x < 256) (hw : w < 16) :
    regionOf p (0x010000 + 64 * x + 4 * w) = some (.ct x w) := by
  unfold regionOf
  rw [if_neg (by omega), if_pos (by omega)]
  congr 2 <;> omega

theorem regionOf_dt (p : Params) {e w : Nat} (he : e < 255) (hw : w < 16) :
    regionOf p (0x020000 + 64 * e + 4 * w) = some (.dt e w) := by
  unfold regionOf
  rw [if_neg (by omega), if_neg (by omega), if_pos (by omega)]
  congr 2 <;> omega

theorem regionOf_src (p : Params) {i : Nat} (h : i < p.srcDepth) : regionOf p (0x100000 + i) = some (.src i) := by
  unfold regionOf
  rw [if_neg (by omega), if_neg (by omega), if_neg (by omega), if_pos (by omega), Nat.add_sub_cancel_left]

theorem regionOf_dst (p : Params) (hp : p.srcDepth ≤ 2 ^ 20) {i : Nat} (h : i < p.dstDepth) :
    regionOf p (0x200000 + i) = some (.dst i) := by
  unfold regionOf
  rw [if_neg (by omega), if_neg (by omega), if_neg (by omega), if_neg (by omega), if_pos (by omega),
    Nat.add_sub_cancel_left]

/-! ## Reads -/

/-- What an answer can change: the response and the draw counter (20_memory.md R80). -/
theorem State.answer_frame (s : State) (v : ReadValue) :
    ∃ d, s.answer v = (s.respond .okay (some d)).withDraw (s.answer v).draw ∧ s.draw ≤ (s.answer v).draw := by
  cases v with
  | word v => exact ⟨v, rfl, le_refl _⟩
  | any => exact ⟨_, rfl, Nat.le_succ _⟩
  | either v v' => exact ⟨_, rfl, Nat.le_succ _⟩

/-! ## Writes -/

/-- What a write that takes effect can change, target by target (40_host_access.md R142 to R150). -/
theorem State.writeRegion_frame (s : State) (v : Word) (r : Region) :
    (s.writeRegion v r).params = s.params ∧ (s.writeRegion v r).dt = s.dt ∧ (s.writeRegion v r).engine = s.engine ∧
      (s.writeRegion v r).port = s.port ∧ (s.writeRegion v r).draw = s.draw := by
  cases r with
  | reg off =>
    unfold State.writeRegion
    simp only
    split_ifs <;> simp
  | ct x w => exact ⟨rfl, rfl, rfl, rfl, rfl⟩
  | dt e w => exact ⟨rfl, rfl, rfl, rfl, rfl⟩
  | src i => exact ⟨rfl, rfl, rfl, rfl, rfl⟩
  | dst i => exact ⟨rfl, rfl, rfl, rfl, rfl⟩

theorem CodeTable.wf_hostWrite {ct : CodeTable} (h : ct.wf = true) (x w : Nat) (v : Word) :
    (ct.hostWrite x w v).wf = true := by
  simp only [CodeTable.wf, Bool.and_eq_true] at h
  obtain ⟨⟨h1, h2⟩, h3⟩ := h
  unfold CodeTable.hostWrite
  split_ifs <;> simp only [CodeTable.wf, Bool.and_eq_true]
  · exact ⟨⟨Memory.writeWithin_wf h1 _ _, Memory.writeWithin_wf h2 _ _⟩, h3⟩
  · exact ⟨⟨h1, h2⟩, Memory.writeWithin_wf h3 _ _⟩
  · exact ⟨⟨h1, h2⟩, h3⟩

/-- Every write keeps every memory in canonical form. -/
theorem State.writeRegion_memoriesOk {s : State} (h : s.memoriesOk = true) (v : Word) (r : Region) :
    (s.writeRegion v r).memoriesOk = true := by
  simp only [State.memoriesOk, Bool.and_eq_true] at h ⊢
  obtain ⟨⟨⟨h1, h2⟩, h3⟩, h4⟩ := h
  cases r <;> simp only [State.writeRegion]
  · split_ifs <;> exact ⟨⟨⟨h1, h2⟩, h3⟩, h4⟩
  · exact ⟨⟨⟨CodeTable.wf_hostWrite h1 _ _ _, h2⟩, h3⟩, h4⟩
  · exact ⟨⟨⟨h1, h2⟩, h3⟩, h4⟩
  · exact ⟨⟨⟨h1, h2⟩, Memory.writeList_wf _ _ _ h3⟩, h4⟩
  · exact ⟨⟨⟨h1, h2⟩, h3⟩, Memory.writeList_wf _ _ _ h4⟩

/-! ## Turns -/

/-- The turn of the first waiting event is that event's own, with the event taken off the list. -/
theorem State.turn_cons {s : State} {i : Input} {rest : List Input} (h : s.port.inputs = i :: rest) :
    s.turn = (s.withPort { s.port with inputs := rest }).inputTurn i := by
  unfold State.turn; simp only [h]

/-- With no event waiting it is the engine's turn. -/
theorem State.turn_nil {s : State} (h : s.port.inputs = []) : s.turn = s.engineTurn := by
  unfold State.turn; simp only [h]

/-- A host transaction is a command, or is done at once. -/
theorem State.hostTurn_cases (s : State) (t : HostTxn) :
    (∃ addr v, t = .wr addr 4 v ∧ s.port.rst = false ∧ offsetOf s.params addr = some ctrlOffset ∧
      s.hostTurn t = .command v s.okay) ∨
    ∃ u, s.hostTurn t = .done u ∧
      (u = s.withPort { s.port with response := none } ∨ (∃ off bytes, u = s.hostRead off bytes) ∨
        ∃ off bytes v, u = s.hostWrite off bytes v) := by
  unfold State.hostTurn
  by_cases hr : s.port.rst = true
  · rw [if_pos hr]; exact .inr ⟨_, rfl, .inl rfl⟩
  rw [if_neg hr]
  cases t with
  | rd addr bytes =>
    cases ho : offsetOf s.params addr with
    | none => simp only [ho]; exact .inr ⟨_, rfl, .inl rfl⟩
    | some off => simp only [ho]; exact .inr ⟨_, rfl, .inr (.inl ⟨_, _, rfl⟩)⟩
  | wr addr bytes v =>
    cases ho : offsetOf s.params addr with
    | none => simp only [ho]; exact .inr ⟨_, rfl, .inl rfl⟩
    | some off =>
      simp only [ho]
      by_cases hc : off = ctrlOffset ∧ bytes = 4
      · obtain ⟨rfl, rfl⟩ := hc
        exact .inl ⟨addr, v, rfl, by simpa using hr, ho, by simp⟩
      · rw [if_neg hc]; exact .inr ⟨_, rfl, .inr (.inr ⟨_, _, _, rfl⟩)⟩

end Sys2Proof.Machine
end

