-- ==== Sys2Proof/Laws/PerInstr.lean ====
section
/-! SUPPORT. Statements about every instruction as syntax, one lemma per constructor. -/

namespace Sys2Proof.Laws

/-- The command word of a well-formed instruction matches the instruction's row of spec/opcode_table.json. -/
def TableRow.Statement (i : Instr) : Prop :=
  i.wellFormed = true → Sys2Proof.encode i &&& i.tableMask = i.tableMatch

theorem TableRow.nop : TableRow.Statement .nop := fun _ => by decide

theorem TableRow.encode : TableRow.Statement .encode := fun _ => by decide

theorem TableRow.decode : TableRow.Statement .decode := fun _ => by decide

theorem TableRow.clearTable : TableRow.Statement .clearTable := fun _ => by decide

theorem TableRow.reservedCmd (cmd : BitVec 3) : TableRow.Statement (.reservedCmd cmd) := by
  unfold TableRow.Statement
  revert cmd
  decide

theorem TableRow.sreset : TableRow.Statement .sreset := fun _ => by decide

end Sys2Proof.Laws
end

