-- ==== Sys2Proof/Laws/Stream.lean ====
section
/-! SUPPORT. The bit-stream stages: lengths of bit sequences, and what the packer and the unpacker leave unchanged. -/

namespace Sys2Proof.Machine

/-! ## Bit sequences -/

@[simp] theorem msbFirst_length (bit : Nat → Bool) (n : Nat) : (msbFirst bit n).length = n := by
  induction n with
  | zero => rfl
  | succ n ih => simp [msbFirst, ih]

@[simp] theorem bits8_length (x : Byte) : (bits8 x).length = 8 := msbFirst_length _ _

@[simp] theorem codebits_length (c : BitVec 256) (L : Nat) : (codebits c L).length = L := msbFirst_length _ _

@[simp] theorem CodeTable.codeBits_length (ct : CodeTable) (x : Nat) : (ct.codeBits x).length = ct.lenOf x :=
  msbFirst_length _ _

@[simp] theorem unaryBits_length (L : Nat) : (unaryBits L).length = L + 1 := by simp [unaryBits]

@[simp] theorem streamBits_length (byte : Nat → Byte) (n : Nat) : ∀ q, (streamBits byte q n).length = n := by
  induction n with
  | zero => exact fun _ => rfl
  | succ n ih => intro q; simp [streamBits, ih]

/-! ## What an engine stage keeps -/

/-- `t` differs from `s` in the engine, DST and DT at most: what no stage of a command changes is the same. -/
structure State.SameInputs (s t : State) : Prop where
  params : t.params = s.params
  regs : t.regs = s.regs
  ct : t.ct = s.ct
  src : t.src = s.src
  port : t.port = s.port
  draw : t.draw = s.draw

theorem State.SameInputs.refl (s : State) : s.SameInputs s := ⟨rfl, rfl, rfl, rfl, rfl, rfl⟩

theorem State.SameInputs.trans {s t u : State} (h : s.SameInputs t) (h' : t.SameInputs u) : s.SameInputs u :=
  ⟨h'.params.trans h.params, h'.regs.trans h.regs, h'.ct.trans h.ct, h'.src.trans h.src, h'.port.trans h.port,
    h'.draw.trans h.draw⟩

theorem State.SameInputs.message {s t : State} (h : s.SameInputs t) : t.message = s.message := by
  simp [State.message, h.src, h.regs]

/-! ## The packer -/

/-- What the packer's operations share: they change DST, OPTR, ACC and ACC_N only and keep DST's canonical form. -/
structure State.Packed (s t : State) : Prop where
  same : s.SameInputs t
  dt : t.dt = s.dt
  phase : t.engine.phase = s.engine.phase
  work : t.engine.work = s.engine.work
  unpacker : t.engine.unpacker = s.engine.unpacker
  matcher : t.engine.matcher = s.engine.matcher
  left : t.engine.left = s.engine.left
  dst : s.dst.wf s.params.dstDepth = true → t.dst.wf s.params.dstDepth = true

theorem State.Packed.refl (s : State) : s.Packed s := ⟨.refl s, rfl, rfl, rfl, rfl, rfl, rfl, id⟩

theorem State.Packed.trans {s t u : State} (h : s.Packed t) (g : t.Packed u) : s.Packed u :=
  ⟨h.same.trans g.same, g.dt.trans h.dt, g.phase.trans h.phase, g.work.trans h.work, g.unpacker.trans h.unpacker,
    g.matcher.trans h.matcher, g.left.trans h.left, fun w => by
      have := g.dst
      rw [h.same.params] at this
      exact this (h.dst w)⟩

theorem State.Packed.packInit (s : State) : s.Packed s.packInit := ⟨⟨rfl, rfl, rfl, rfl, rfl, rfl⟩, rfl, rfl, rfl, rfl, rfl, rfl, id⟩

/-- `PutBit` (41_bit_stream.md R182). -/
theorem State.Packed.putBit (s : State) (b : Bool) : s.Packed (s.putBit b) := by
  unfold State.putBit
  simp only
  split_ifs
  · exact ⟨⟨rfl, rfl, rfl, rfl, rfl, rfl⟩, rfl, rfl, rfl, rfl, rfl, rfl, fun w => Memory.writeWithin_wf w _ _⟩
  · exact ⟨⟨rfl, rfl, rfl, rfl, rfl, rfl⟩, rfl, rfl, rfl, rfl, rfl, rfl, id⟩

theorem State.Packed.foldl {α : Type} (f : State → α → State) (hf : ∀ (s : State) (a : α), s.Packed (f s a)) (l : List α) :
    ∀ s : State, s.Packed (l.foldl f s) := by
  induction l with
  | nil => exact State.Packed.refl
  | cons a rest ih => exact fun s => (hf s a).trans (ih (f s a))

theorem State.Packed.putBits (s : State) (bits : Bits) : s.Packed (s.putBits bits) :=
  State.Packed.foldl _ State.Packed.putBit bits s

theorem State.putBits_append (s : State) (a b : Bits) : s.putBits (a ++ b) = (s.putBits a).putBits b := by
  simp [State.putBits]

/-! ## The unpacker -/

@[simp] theorem State.advance_q (s : State) (n : Nat) :
    (s.advance n).engine.unpacker.q = s.engine.unpacker.q + n := rfl

@[simp] theorem State.advance_qlim (s : State) (n : Nat) :
    (s.advance n).engine.unpacker.qlim = s.engine.unpacker.qlim := rfl

theorem State.advance_advance (s : State) (m n : Nat) : (s.advance m).advance n = s.advance (m + n) := by
  simp [State.advance, State.withUnpacker, State.withEngine, Nat.add_assoc]

@[simp] theorem State.advance_zero (s : State) : s.advance 0 = s := rfl

/-- `GetBit` gives EXHAUSTED and changes nothing, or gives the bit at Q and advances Q by one (R188). -/
theorem State.getBit_cases (s : State) :
    (s.engine.unpacker.qlim ≤ s.engine.unpacker.q ∧ s.getBit = (none, s)) ∨
    (s.engine.unpacker.q < s.engine.unpacker.qlim ∧
      s.getBit = (some (s.bitAt s.engine.unpacker.q), s.advance 1)) := by
  unfold State.getBit
  split_ifs with h
  · exact .inl ⟨h, rfl⟩
  · exact .inr ⟨Nat.lt_of_not_le h, rfl⟩

/-- `GetBits` gives EXHAUSTED and changes nothing, or gives the next bits and advances Q past them (R190). -/
theorem State.getBits_cases (s : State) (L : Nat) :
    (s.engine.unpacker.qlim < s.engine.unpacker.q + L ∧ s.getBits L = (none, s)) ∨
    (s.engine.unpacker.q + L ≤ s.engine.unpacker.qlim ∧
      s.getBits L = (some (bitsVal (streamBits s.src.read s.engine.unpacker.q L)), s.advance L)) := by
  unfold State.getBits
  split_ifs with h
  · exact .inl ⟨h, rfl⟩
  · exact .inr ⟨Nat.le_of_not_lt h, rfl⟩

/-- `GetUnary` only advances Q, within QLIM, and counts at most `L + more` (R189). -/
theorem State.getUnaryFrom_cases (more : Nat) :
    ∀ (L : Nat) (s : State), ∃ r n, State.getUnaryFrom more L s = (r, s.advance n) ∧
      (n = 0 ∨ s.engine.unpacker.q + n ≤ s.engine.unpacker.qlim) ∧ ∀ k, r = .len k → L ≤ k ∧ k ≤ L + more := by
  induction more with
  | zero =>
    intro L s
    rcases s.getBit_cases with ⟨_, g⟩ | ⟨h, g⟩
    · exact ⟨.exhausted, 0, by simp [State.getUnaryFrom, g], .inl rfl, nofun⟩
    · cases hb : s.bitAt s.engine.unpacker.q with
      | false =>
        refine ⟨.len L, 1, by simp [State.getUnaryFrom, g, hb], .inr h, ?_⟩
        rintro k ⟨⟩; omega
      | true => exact ⟨.tooLong, 1, by simp [State.getUnaryFrom, g, hb], .inr h, nofun⟩
  | succ m ih =>
    intro L s
    rcases s.getBit_cases with ⟨_, g⟩ | ⟨h, g⟩
    · exact ⟨.exhausted, 0, by simp [State.getUnaryFrom, g], .inl rfl, nofun⟩
    · cases hb : s.bitAt s.engine.unpacker.q with
      | false =>
        refine ⟨.len L, 1, by simp [State.getUnaryFrom, g, hb], .inr h, ?_⟩
        rintro k ⟨⟩; omega
      | true =>
        obtain ⟨r, n, h1, h2, h3⟩ := ih (L + 1) (s.advance 1)
        refine ⟨r, 1 + n, by simp [State.getUnaryFrom, g, hb, h1, State.advance_advance], ?_, ?_⟩
        · simp only [State.advance_q, State.advance_qlim] at h2; omega
        · intro k hk; have := h3 k hk; omega

end Sys2Proof.Machine
end

