-- ==== Sys2Proof/Laws/Phases.lean ====
section
/-! SUPPORT. What each phase of a command leaves unchanged, and what one engine step can do. -/

namespace Sys2Proof.Machine

/-! ## The encoder -/

theorem State.Packed.emitEntry (s : State) (x : Nat) : s.Packed (s.emitEntry x) :=
  ((State.Packed.putBits s _).trans (.putBits _ _)).trans (.putBits _ _)

theorem State.Packed.emitHeader (s : State) : s.Packed s.emitHeader :=
  (((State.Packed.packInit s).trans (.putBits _ _)).trans (.putBits _ _)).trans (.putBits _ _)

theorem State.Packed.emitTable (s : State) : s.Packed s.emitTable :=
  State.Packed.foldl State.emitEntry State.Packed.emitEntry _ _

theorem State.Packed.emitPayload (s : State) (m : List Byte) : s.Packed (s.emitPayload m) :=
  State.Packed.foldl (fun (t : State) (b : Byte) => t.putCode b.toNat) (fun t _ => State.Packed.putBits t _) _ _

/-- Everything ENC_EMIT puts (42_encode.md R220 to R224) keeps what the packer keeps. -/
theorem State.Packed.emitted (s : State) (m : List Byte) :
    s.Packed ((s.emitHeader.emitTable.emitPayload m).emitPadding) :=
  (((State.Packed.emitHeader s).trans (.emitTable _)).trans (.emitPayload _ m)).trans (.putBits _ _)

/-- ENC_SCAN raises an error, or goes on to ENC_EMIT with every check passed, the working values scanned and nothing
else changed (42_encode.md R210 to R219). -/
theorem State.encScan_cases (s : State) :
    (∃ e, s.encScan = .raise e) ∨
    (s.encScan = .goOn ((s.withWork s.scanned).withPhase .encEmit) ∧
      s.regs.srcLen.toNat ≤ s.params.srcDepth ∧ s.regs.srcLen.toNat ≠ 0 ∧ s.scanned.nSym ≤ Config.maxSymbols ∧
      lookupError s.ct 0 s.message = none ∧ s.scanned.nout ≤ s.params.dstDepth) := by
  unfold State.encScan
  by_cases h1 : s.params.srcDepth < s.regs.srcLen.toNat
  · rw [if_pos h1]; exact .inl ⟨_, rfl⟩
  rw [if_neg h1]
  by_cases h2 : s.regs.srcLen.toNat = 0
  · rw [if_pos h2]; exact .inl ⟨_, rfl⟩
  rw [if_neg h2]
  by_cases h3 : Config.maxSymbols < s.scanned.nSym
  · rw [if_pos h3]; exact .inl ⟨_, rfl⟩
  rw [if_neg h3]
  cases h4 : lookupError s.ct 0 s.message with
  | some e => exact .inl ⟨e, rfl⟩
  | none =>
    by_cases h5 : s.params.dstDepth < s.scanned.nout
    · simp only [if_pos h5]; exact .inl ⟨_, rfl⟩
    · simp only [if_neg h5]
      exact .inr ⟨trivial, Nat.le_of_not_lt h1, h2, Nat.le_of_not_lt h3, trivial, Nat.le_of_not_lt h5⟩

/-- ENC_EMIT faults, or finishes the command with everything put. -/
theorem State.encEmit_cases (s : State) :
    (∃ f, s.encEmit = .fault f) ∨
    s.encEmit = .finish s.engine.work.encodeResults ((s.emitHeader.emitTable.emitPayload s.message).emitPadding) := by
  unfold State.encEmit
  simp only
  split_ifs
  · exact .inl ⟨_, rfl⟩
  · exact .inl ⟨_, rfl⟩
  · exact .inr rfl

/-! ## The decoder -/

/-- What the stages of DECODE share: they keep the inputs, PHASE, the packer and `left`. -/
structure State.Unpacked (s t : State) : Prop where
  same : s.SameInputs t
  phase : t.engine.phase = s.engine.phase
  packer : t.engine.packer = s.engine.packer
  left : t.engine.left = s.engine.left
  qlim : t.engine.unpacker.qlim = s.engine.unpacker.qlim
  q : s.engine.unpacker.q ≤ t.engine.unpacker.q
  dt : s.dt.wf = true → t.dt.wf = true
  dst : s.dst.wf s.params.dstDepth = true → t.dst.wf s.params.dstDepth = true

theorem State.Unpacked.refl (s : State) : s.Unpacked s := ⟨⟨rfl, rfl, rfl, rfl, rfl, rfl⟩, rfl, rfl, rfl, rfl, le_refl _, id, id⟩

theorem State.Unpacked.trans {s t u : State} (h : s.Unpacked t) (g : t.Unpacked u) : s.Unpacked u :=
  ⟨h.same.trans g.same, g.phase.trans h.phase, g.packer.trans h.packer, g.left.trans h.left, g.qlim.trans h.qlim,
    h.q.trans g.q, g.dt ∘ h.dt, fun w => by
      have := g.dst
      rw [h.same.params] at this
      exact this (h.dst w)⟩

/-- DEC_HEADER raises an error, or goes on to DEC_TABLE with the header parsed and nothing else changed (43_decode.md
R251 to R258). -/
theorem State.decHeader_cases (s : State) :
    (∃ e, s.decHeader = .raise e) ∨
    (s.decHeader =
        .goOn (((s.withWork
          { s.engine.work with h := s.src.read 0, ns := s.src.read 1, k := markerCount (s.src.read 2) }).unpackInit 24
            (8 * s.regs.srcLen.toNat - markerCount (s.src.read 2))).withPhase .decTable) ∧
      s.regs.srcLen.toNat ≤ s.params.srcDepth ∧ 3 ≤ s.regs.srcLen.toNat ∧ s.src.read 2 ≠ 0xFF#8 ∧
      markerCount (s.src.read 2) ≤ 8 * (s.regs.srcLen.toNat - 3) ∧ s.src.read 1 ≠ 0#8) := by
  unfold State.decHeader
  simp only
  by_cases h1 : s.params.srcDepth < s.regs.srcLen.toNat
  · rw [if_pos h1]; exact .inl ⟨_, rfl⟩
  rw [if_neg h1]
  by_cases h2 : s.regs.srcLen.toNat < 2
  · rw [if_pos h2]; exact .inl ⟨_, rfl⟩
  rw [if_neg h2]
  by_cases h3 : s.regs.srcLen.toNat < 3
  · rw [if_pos h3]; exact .inl ⟨_, rfl⟩
  rw [if_neg h3]
  by_cases h4 : s.src.read 2 = 0xFF#8
  · rw [if_pos h4]; exact .inl ⟨_, rfl⟩
  rw [if_neg h4]
  by_cases h5 : 8 * (s.regs.srcLen.toNat - 3) < markerCount (s.src.read 2)
  · rw [if_pos h5]; exact .inl ⟨_, rfl⟩
  rw [if_neg h5]
  by_cases h6 : s.src.read 1 = 0#8
  · rw [if_pos h6]; exact .inl ⟨_, rfl⟩
  rw [if_neg h6]
  exact .inr ⟨rfl, Nat.le_of_not_lt h1, Nat.le_of_not_lt h3, h4, Nat.le_of_not_lt h5, h6⟩

/-- One table entry: an error, or a length, a code word and a symbol read, the entry stored and Q past it
(43_decode.md R259 to R262). -/
theorem State.decEntry_ok {s t : State} {e : Nat} (h : s.decEntry e = .ok t) :
    ∃ L c x n, L ≤ Config.maxCodeLen ∧ s.engine.unpacker.q + n ≤ s.engine.unpacker.qlim ∧
      t = (((s.withWork { s.engine.work with start := s.engine.unpacker.q }).advance n).withDt
        (s.dt.store e (BitVec.ofNat 8 L) (BitVec.ofNat 256 c) (BitVec.ofNat 8 x))) := by
  unfold State.decEntry at h
  obtain ⟨r, n, hu, _, hL⟩ :=
    State.getUnaryFrom_cases Config.maxCodeLen 0 (s.withWork { s.engine.work with start := s.engine.unpacker.q })
  unfold State.decEntryBody State.getUnary at h
  rw [hu] at h
  cases r with
  | exhausted => simp at h
  | tooLong => simp at h
  | len L =>
    simp only at h
    rcases State.getBits_cases
      ((s.withWork { s.engine.work with start := s.engine.unpacker.q }).advance n) L with ⟨_, g⟩ | ⟨_, g⟩
    · rw [g] at h; simp at h
    · rw [g, State.advance_advance] at h
      simp only at h
      rcases State.getBits_cases
        ((s.withWork { s.engine.work with start := s.engine.unpacker.q }).advance (n + L)) 8 with ⟨_, g'⟩ | ⟨hq, g'⟩
      · rw [g'] at h; simp at h
      · rw [g', State.advance_advance] at h
        simp only [State.advance_q, State.withWork_unpacker, State.advance_qlim] at hq
        exact ⟨L, _, _, n + L + 8, by have := hL L rfl; omega, by omega, (Except.ok.inj h).symm⟩

theorem State.Unpacked.decEntry {s t : State} {e : Nat} (h : s.decEntry e = .ok t) :
    s.Unpacked t ∧ t.engine.unpacker.q ≤ t.engine.unpacker.qlim := by
  obtain ⟨L, c, x, n, _, hq, rfl⟩ := State.decEntry_ok h
  exact ⟨⟨⟨rfl, rfl, rfl, rfl, rfl, rfl⟩, rfl, rfl, rfl, rfl, Nat.le_add_right _ _, fun w => DecodeTable.wf_store w _ _ _ _, id⟩, hq⟩

theorem State.Unpacked.decEntries (n : Nat) :
    ∀ (e : Nat) (s t : State), State.decEntries n e s = .ok t → s.Unpacked t := by
  induction n with
  | zero => intro e s t h; obtain rfl := Except.ok.inj h; exact .refl _
  | succ n ih =>
    intro e s t h
    rw [State.decEntries] at h
    cases he : s.decEntry e with
    | error err => rw [he] at h; simp at h
    | ok s' => rw [he] at h; exact (State.Unpacked.decEntry he).1.trans (ih _ _ _ h)

/-- DEC_TABLE faults, raises an error or goes on to DEC_PAYLOAD with the entries parsed. -/
theorem State.decTable_cases (s : State) :
    (∃ f, s.decTable = .fault f) ∨ (∃ e, s.decTable = .raise e) ∨
    ∃ t, State.decEntries s.engine.work.ns.toNat 0 (s.withDt DecodeTable.cleared) = .ok t ∧
      s.decTable =
        .goOn ((t.withWork
          { t.engine.work with tend := t.engine.unpacker.q, nSym := t.engine.work.ns.toNat }).withPhase .decPayload) := by
  unfold State.decTable
  split_ifs
  · exact .inl ⟨_, rfl⟩
  · cases State.decEntries s.engine.work.ns.toNat 0 (s.withDt DecodeTable.cleared) with
    | error err => exact .inr (.inl ⟨err, rfl⟩)
    | ok t => exact .inr (.inr ⟨t, rfl, rfl⟩)

theorem State.Unpacked.emitSym {s t : State} {x : Byte} (h : s.emitSym x = .ok t) : s.Unpacked t := by
  unfold State.emitSym at h
  split_ifs at h
  obtain rfl := Except.ok.inj h
  exact ⟨⟨rfl, rfl, rfl, rfl, rfl, rfl⟩, rfl, rfl, rfl, rfl, le_refl _, id, fun w => Memory.writeWithin_wf w _ _⟩

theorem State.Unpacked.decBit {s t : State} {b : Bool} (h : s.decBit b = .ok t) : s.Unpacked t := by
  unfold State.decBit at h
  simp only at h
  split at h
  · split at h
    · simp at h
    · next s' hs =>
      obtain rfl := Except.ok.inj h
      exact (State.Unpacked.emitSym hs).trans ⟨⟨rfl, rfl, rfl, rfl, rfl, rfl⟩, rfl, rfl, rfl, rfl, le_refl _, id, id⟩
  · split_ifs at h
    obtain rfl := Except.ok.inj h
    exact ⟨⟨rfl, rfl, rfl, rfl, rfl, rfl⟩, rfl, rfl, rfl, rfl, le_refl _, id, id⟩

theorem State.Unpacked.decLoop (n : Nat) : ∀ s t : State, State.decLoop n s = .ok t → s.Unpacked t := by
  induction n with
  | zero => intro s t h; obtain rfl := Except.ok.inj h; exact .refl _
  | succ n ih =>
    intro s t h
    rw [State.decLoop] at h
    rcases s.getBit_cases with ⟨_, g⟩ | ⟨_, g⟩
    · rw [g] at h; obtain rfl := Except.ok.inj h; exact .refl _
    · rw [g] at h
      cases hb : (s.advance 1).decBit (s.bitAt s.engine.unpacker.q) with
      | error err => simp [hb] at h
      | ok s' =>
        simp only [hb] at h
        have hs : s.Unpacked (s.advance 1) := ⟨⟨rfl, rfl, rfl, rfl, rfl, rfl⟩, rfl, rfl, rfl, rfl, Nat.le_succ _, id, id⟩
        exact (hs.trans (State.Unpacked.decBit hb)).trans (ih _ _ h)

/-- DEC_PAYLOAD faults, raises an error or finishes the command. -/
theorem State.decPayload_cases (s : State) :
    (∃ f, s.decPayload = .fault f) ∨ (∃ e, s.decPayload = .raise e) ∨
    ∃ t, (s.withMatcher ⟨[], s.engine.unpacker.q, 0⟩).Unpacked t ∧
      s.decPayload = .finish t.engine.decodeResults t := by
  unfold State.decPayload
  split_ifs
  · exact .inl ⟨_, rfl⟩
  · have hu := State.Unpacked.decLoop (s.engine.unpacker.qlim - s.engine.unpacker.q)
      (s.withMatcher ⟨[], s.engine.unpacker.q, 0⟩)
    revert hu
    generalize State.decLoop (s.engine.unpacker.qlim - s.engine.unpacker.q)
      (s.withMatcher ⟨[], s.engine.unpacker.q, 0⟩) = r
    intro hu
    cases r with
    | error err => exact .inr (.inl ⟨err, rfl⟩)
    | ok t =>
      by_cases hm : t.engine.matcher.mbuf.isEmpty = true
      · exact .inr (.inr ⟨t, hu t rfl, by simp only [hm, if_true]⟩)
      · exact .inr (.inl ⟨t.invalidCode, by simp only [hm]; rfl⟩)

/-! ## The engine -/

/-- What one engine step can do: complete the command, end it in an error, run one phase and count the step, only
count the step, or fault (40_host_access.md R160 to R162). -/
theorem State.engineStep_cases (s : State) :
    (s.engine.left ≤ 1 ∧ s.engineStep = s.conclude (State.runPhases maxPhases s)) ∨
    (1 < s.engine.left ∧ ((∃ t, s.phaseStep = .goOn t ∧ s.engineStep = .next t.countStep) ∨
      ((∀ t, s.phaseStep ≠ .goOn t) ∧ s.engineStep = .next s.countStep))) := by
  by_cases h : s.engine.left ≤ 1
  · exact .inl ⟨h, by rw [State.engineStep, if_pos h]⟩
  · refine .inr ⟨Nat.lt_of_not_le h, ?_⟩
    rw [State.engineStep, if_neg h]
    generalize s.phaseStep = r
    cases r with
    | goOn t => exact .inl ⟨t, Eq.refl _, Eq.refl _⟩
    | finish r t => exact .inr ⟨fun _ => PhaseResult.noConfusion, Eq.refl _⟩
    | raise e => exact .inr ⟨fun _ => PhaseResult.noConfusion, Eq.refl _⟩
    | fault f => exact .inr ⟨fun _ => PhaseResult.noConfusion, Eq.refl _⟩

end Sys2Proof.Machine
end

