-- ==== Sys2Proof/Laws/Step.lean ====
section
/-! SUPPORT. What a step does for a host transaction other than a command, and for a turn of the engine. -/

namespace Sys2Proof.Machine

/-- The block with `rst` released, ports else as they are. -/
def State.released (s : State) : State := s.withPort { s.port with rst := false }

@[simp] theorem State.released_busy (s : State) : s.released.busy = s.busy := rfl
@[simp] theorem State.released_params (s : State) : s.released.params = s.params := rfl
@[simp] theorem State.released_regs (s : State) : s.released.regs = s.regs := rfl

/-- A read at byte offset `off` of the block (40_host_access.md R141). -/
theorem step_read (s : State) (bytes : Nat) {off : Nat} (h : off < Config.addressSpace) :
    step (s.withEvent (.host (.rd (s.params.hbcBase + off) bytes))) = .next (s.released.hostRead off bytes) := by
  have := offsetOf_base s.params h
  simp [step, State.turn, State.withEvent, State.inputTurn, State.hostTurn, this]
  rfl

/-- A write at byte offset `off` of the block that is no command (R142). -/
theorem step_write (s : State) (bytes : Nat) (v : Word) {off : Nat} (h : off < Config.addressSpace)
    (hc : ¬ (off = ctrlOffset ∧ bytes = 4)) :
    step (s.withEvent (.host (.wr (s.params.hbcBase + off) bytes v))) = .next (s.released.hostWrite off bytes v) := by
  have := offsetOf_base s.params h
  simp only [step, State.turn, State.withEvent, State.inputTurn, State.hostTurn, State.withPort_port,
    State.withPort_params, Bool.false_eq_true, if_false, this, if_neg hc]
  rfl

/-- With no event waiting a running command takes an engine step (R162). -/
theorem step_engine {s : State} (h : s.port.inputs = []) (hb : s.busy = true) : step s = s.engineStep := by
  simp only [step, State.turn_nil h, State.engineTurn, hb, if_true]

end Sys2Proof.Machine
end

