-- ==== Sys2Proof/Tests/Slice0.lean ====
section
/-! SUPPORT. Tests, each with its expected result from spec/95_test_vectors.md (the vector is named) or worked out by
hand from the rule named; and a witness for the hypotheses of every statement that has some. -/

namespace Sys2Proof.Tests

open Sys2Proof.Machine

-- One theorem after the other: checked side by side, the kernel evaluations below wait for each other in some forty
-- threads, whose stacks alone come near the memory limit.
set_option Elab.async false

/-! ## Helpers -/

/-- A buffer that holds `l` from byte 0 on and ANY elsewhere. -/
def buffer (l : List Byte) : Memory 8 := (Memory.anyAll 5).writeList 4096 0 l

/-- CT after `SETCODE x, L, c` for every `(x, L, c)`, on a cleared table (30_encoding.md R124, words 0 and 1). -/
def table (codes : List (Nat × Nat × Nat)) : CodeTable :=
  codes.foldl
    (fun ct e => (ct.hostWrite e.1 0 (0x80000000#32 ||| BitVec.ofNat 32 e.2.1)).hostWrite e.1 1 (BitVec.ofNat 32 e.2.2))
    CodeTable.cleared

/-- The idle block with `l` in SRC, its length in SRC_LEN and `codes` in CT, `dstDepth` being DST_DEPTH. -/
def block (l : List Byte) (codes : List (Nat × Nat × Nat)) (dstDepth : Nat) : State :=
  { State.reset with
    params := { Params.reset with dstDepth := dstDepth }
    regs := { Regs.reset with srcLen := Word.ofNat l.length }
    ct := table codes
    src := buffer l }

/-- The same block right after ENCODE was written. -/
def encoding (l : List Byte) (codes : List (Nat × Nat × Nat)) (dstDepth : Nat := 4096) : State :=
  (block l codes dstDepth).startCommand 1#3 .encScan

theorem encoding_src (l : List Byte) (codes : List (Nat × Nat × Nat)) (d : Nat) :
    (encoding l codes d).src = buffer l := rfl

/-- The same block right after DECODE was written. -/
def decoding (l : List Byte) (dstDepth : Nat := 4096) : State := (block l [] dstDepth).startCommand 2#3 .decHeader

/-- The block with SRC_LEN = `n`. -/
def withSrcLen (s : State) (n : Nat) : State := s.withRegs { s.regs with srcLen := Word.ofNat n }

/-- An outcome is a next state of which `p` holds. -/
def after (o : Host.Outcome State Fault Refusal) (p : State → Bool) : Bool :=
  match o with
  | .next t => p t
  | .fault _ => false
  | .refused _ => false

/-- The next state of an outcome, `s` where there is none. -/
def nextOr (s : State) : Host.Outcome State Fault Refusal → State
  | .next t => t
  | .fault _ => s
  | .refused _ => s

theorem eq_nextOr {o : Host.Outcome State Fault Refusal} (s : State) (h : after o (fun _ => true) = true) :
    o = .next (nextOr s o) := by
  cases o with
  | next t => rfl
  | fault f => cases h
  | refused r => cases h

theorem exists_of_after {o : Host.Outcome State Fault Refusal} {p : State → Bool} (h : after o p = true) :
    ∃ t, o = .next t ∧ p t = true := by
  cases o with
  | next t => exact ⟨t, rfl, h⟩
  | fault f => cases h
  | refused r => cases h

/-- The value of an outcome function, `x` where it is an error. -/
def okOr {α : Type} (x : α) : Except EngineError α → α
  | .ok r => r
  | .error _ => x

def isOk {α : Type} : Except EngineError α → Bool
  | .ok _ => true
  | .error _ => false

theorem eq_okOr {α : Type} {o : Except EngineError α} (x : α) (h : isOk o = true) : o = .ok (okOr x o) := by
  cases o with
  | ok r => rfl
  | error e => cases h

/-- The block answers the next event with OKAY and the data `v`. -/
def reads (s : State) (off : Nat) (v : Word) : Bool :=
  after (step (s.withEvent (s.rdEvent off))) fun t => decide (t.port.response = some ⟨.okay, some v⟩)

/-- The bytes 0, 1, ..., `n` - 1. -/
def bytesTo (n : Nat) : List Byte := (List.range n).map (BitVec.ofNat 8)

theorem bytesTo_length (n : Nat) : (bytesTo n).length = n := by simp [bytesTo]

theorem bytesTo_getElem (n i : Nat) (h : i < (bytesTo n).length) : (bytesTo n)[i] = BitVec.ofNat 8 i := by
  simp [bytesTo]

theorem buffer_bytesTo {n i : Nat} (h : i < n) (hn : n ≤ 4096) : (buffer (bytesTo n)).read i = BitVec.ofNat 8 i := by
  unfold buffer
  rw [Memory.read_writeList, dif_pos ⟨Nat.zero_le _, by rw [bytesTo_length]; omega, by omega⟩, bytesTo_getElem]
  rfl

/-- "aaaa" and its stream (L1.1). -/
def aaaa : List Byte := [0x61#8, 0x61#8, 0x61#8, 0x61#8]
def aaaaStream : List Byte := [0x01#8, 0x01#8, 0x80#8, 0x8C#8, 0x21#8]

/-- The message, the code table and the stream of L1.2. -/
def literal : List Byte :=
  List.replicate 16 0x41#8 ++ List.replicate 3 0x42#8 ++ List.replicate 7 0x43#8 ++ [0x44#8]
def literalCodes : List (Nat × Nat × Nat) := [(0x41, 1, 1), (0x43, 2, 1), (0x42, 3, 1), (0x44, 3, 0)]
def literalStream : List Byte :=
  [0x03#8, 0x04#8, 0x00#8, 0xA8#8, 0x39#8, 0x43#8, 0xE2#8, 0x85#8, 0xC1#8, 0x13#8, 0xFF#8, 0xFC#8, 0x92#8, 0xAA#8,
    0xA8#8]

/-! ## Well-formedness: what each check refuses -/

theorem test_wellFormed_refuses_reserved_cmd_0xx : Instr.wellFormed (.reservedCmd 3#3) = false := by decide
theorem test_wellFormed_accepts_reserved_cmd_1xx : Instr.wellFormed (.reservedCmd 4#3) = true := by decide
theorem test_depth_refuses_no_multiple_of_4 : depthOk 4094 = false := by decide
theorem test_depth_refuses_0 : depthOk 0 = false := by decide
theorem test_depth_refuses_above_2_20 : depthOk (2 ^ 20 + 4) = false := by decide
theorem test_depth_accepts_bounds : depthOk 4 = true ∧ depthOk (2 ^ 20) = true := by decide
theorem test_params_refuse_bad_src : Params.ok { Params.reset with srcDepth := 6 } = false := by decide
theorem test_params_refuse_bad_dst : Params.ok { Params.reset with dstDepth := 6 } = false := by decide
theorem test_params_refuse_no_engine_steps : Params.ok { Params.reset with engineSteps := 0 } = false := by decide

/-! ## Command words, written out from 30_encoding.md R101 and R102: bit 31, bits [30:3], bits [2:0] -/

theorem test_word_nop : decode 0b00000000000000000000000000000000#32 = .nop := by decide
theorem test_word_encode : decode 0b00000000000000000000000000000001#32 = .encode := by decide
theorem test_word_decode : decode 0b00000000000000000000000000000010#32 = .decode := by decide
theorem test_word_clearTable : decode 0b00000000000000000000000000000011#32 = .clearTable := by decide
theorem test_word_reserved_100 : decode 0b00000000000000000000000000000100#32 = .reservedCmd 0b100#3 := by decide
theorem test_word_reserved_101 : decode 0b00000000000000000000000000000101#32 = .reservedCmd 0b101#3 := by decide
theorem test_word_reserved_110 : decode 0b00000000000000000000000000000110#32 = .reservedCmd 0b110#3 := by decide
theorem test_word_reserved_111 : decode 0b00000000000000000000000000000111#32 = .reservedCmd 0b111#3 := by decide
theorem test_word_sreset : decode 0b10000000000000000000000000000000#32 = .sreset := by decide
/-- V2.2: bits [30:3] are ignored. -/
theorem test_word_nop_reserved_bits : decode 0b01111111111111111111111111111000#32 = .nop := by decide
/-- V2.10: SRESET wins over CMD. -/
theorem test_word_sreset_over_encode : decode 0b10000000000000000000000000000001#32 = .sreset := by decide
theorem test_encode_sreset : encode .sreset = 0x80000000#32 := by decide
theorem test_encode_reserved : encode (.reservedCmd 6#3) = 0x00000006#32 := by decide
theorem test_table_word : decodeTableWord 32 0x80000003 = some .sreset := by decide
theorem test_short_table_word : decodeTableWord 8 0x02 = some .decode := by decide
theorem test_wide_bits_refused : decodeBits 40 0 = .error .widerThanCommandWord := by rfl

/-! ## Commands, at most two each -/

/-- V2.6: NOP clears neither DONE nor ERR. -/
theorem test_nop_keeps_status :
    after (exec .nop (State.reset.refuseReserved 5#3)) (fun t => t.statusWord = 0x56#32) = true := by decide
/-- V2.1 by way of a host write. -/
theorem test_nop_step : after (step (State.reset.withFetchWord 32 0x7FFFFFF8)) (fun t => t.statusWord = 0) = true := by
  decide
/-- L1.2: the literal scenario. -/
theorem test_encode_literal :
    after (encoding literal literalCodes).engineStep (fun t =>
      t.dst.readList 0 15 = literalStream && t.statusWord = 0x12#32 &&
        t.regs.results = ⟨15, 3, 4, 0, 54, 42⟩) = true := by decide +kernel
/-- V4.18: of an empty code word at index 2 and an unmapped byte at index 5 the first is reported. -/
theorem test_encode_first_bad_symbol :
    after (encoding [0x61#8, 0x61#8, 0x62#8, 0x61#8, 0x61#8, 0x63#8, 0x61#8, 0x61#8] [(0x61, 1, 0), (0x62, 0, 0)]).engineStep
      (fun t => t.regs.errorWord = 0x06#32 && t.regs.errPos = 2 && t.statusWord = 0x16#32) = true := by decide +kernel
/-- V5.1. -/
theorem test_decode_aaaa :
    after (decoding aaaaStream).engineStep (fun t =>
      t.dst.readList 0 4 = aaaa && t.dt.hostWord 0 0 = 0x80006101#32 && t.dt.hostWord 0 1 = 0 &&
        t.dt.hostWord 1 0 = 0 && t.regs.results = ⟨4, 1, 1, 1, 11, 4⟩) = true := by decide +kernel
/-- V5.20: an entry that ends in the stripped padding. -/
theorem test_decode_entry_in_padding :
    after (decoding [0x01#8, 0x01#8, 0xFC#8, 0x8C#8, 0x20#8]).engineStep (fun t =>
      t.regs.errorWord = 0x603#32 && t.regs.errPos = 24 && t.statusWord = 0x26#32) = true := by decide +kernel
/-- V2.11. -/
theorem test_clear_table :
    after ((block aaaa [(0x61, 1, 0)] 4096).startCommand 3#3 .clear).engineStep (fun t =>
      t.ct.hostWord 0x61 0 = 0 && t.statusWord = 0x32#32) = true := by decide +kernel
/-- V2.12 for CLEAR_TABLE: REJ is kept at the start. -/
theorem test_clear_table_start :
    after (exec .clearTable (State.reset.refuseReserved 5#3).reject) (fun t => t.statusWord = 0x39#32) = true := by decide
/-- V2.4, with a result register that is not 0 before. -/
theorem test_reserved_idle :
    after (exec (.reservedCmd 5#3) (State.reset.complete ⟨5, 1, 1, 1, 11, 4⟩)) (fun t =>
      t.statusWord = 0x56#32 && t.regs.errorWord = 0x09#32 && t.regs.results = Results.zero) = true := by decide
/-- V2.8: dropped while busy. -/
theorem test_reserved_busy :
    after (exec (.reservedCmd 4#3) (encoding aaaa [])) (fun t => t.statusWord = 0x19#32 && t.regs.errorWord = 0) = true := by
  decide +kernel
/-- V2.9: SRESET stops a running DECODE. -/
theorem test_sreset_busy :
    after (exec .sreset (decoding aaaaStream)) (fun t =>
      t.statusWord = 0 && t.regs.results.dstLen = 0 && !t.ct.isValid 0x61 && !t.dt.isValid 0) = true := by decide +kernel
/-- P7: CT[0x61] is invalid again and SRC_LEN is 0. -/
theorem test_sreset_idle :
    after (exec .sreset (block aaaa [(0x61, 1, 0)] 4096)) (fun t => !t.ct.isValid 0x61 && t.regs.srcLen = 0) = true := by
  decide +kernel

/-- R162: the first of two engine steps does not complete ENCODE, and shows the host nothing of it. -/
theorem test_engine_step_counts :
    after ((encoding aaaa [(0x61, 1, 0)]).withLeft 2).engineStep (fun t =>
      t.statusWord = 0x11#32 && t.engine.left = 1 && t.dst = (encoding aaaa []).dst) = true := by decide +kernel

/-! ## Host transactions -/

theorem test_read_id : reads State.reset 0x000 0x48554646#32 = true := by decide
theorem test_read_version : reads State.reset 0x004 0x00010000#32 = true := by decide
/-- V1.7. -/
theorem test_read_misaligned :
    after (step (State.reset.withEvent (State.reset.rdEvent 0x002)))
      (fun t => t.port.response = some ⟨.busErr, some 0⟩) = true := by decide
/-- V1.11: little-endian lanes. -/
theorem test_src_lanes :
    after (step (State.reset.withEvent (State.reset.wrEvent 0x100000 0x44434241#32))) (fun t =>
      t.src.readList 0 4 = [0x41#8, 0x42#8, 0x43#8, 0x44#8]) = true := by decide
/-- V1.13: CT_CTRL bits [30:8] are ignored. -/
theorem test_ct_ctrl :
    after (step (State.reset.withEvent (State.reset.wrEvent 0x011840 0x7FFFFF05#32))) (fun t =>
      reads t 0x011840 0x00000005#32) = true := by decide +kernel
/-- V1.10. -/
theorem test_dt_write_is_bus_error :
    after (step (State.reset.withEvent (State.reset.wrEvent 0x020000 1#32)))
      (fun t => t.port.response = some ⟨.busErr, none⟩ && t.statusWord = 0) = true := by decide
/-- V1.17: STATUS 0x16, W1C of DONE. -/
theorem test_status_w1c :
    after (step ((State.reset.fail ⟨.emptyInput, 0, 0⟩).withEvent (State.reset.wrEvent 0x00C 0x2#32)))
      (fun t => t.statusWord = 0x04#32) = true := by decide
/-- V1.21: a write to SRC_LEN while busy. -/
theorem test_busy_write_dropped :
    after (step ((encoding aaaa []).withEvent (State.reset.wrEvent 0x018 9#32)))
      (fun t => t.regs.srcLen = 4 && t.statusWord = 0x19#32 && t.port.response = some ⟨.okay, none⟩) = true := by
  decide +kernel
/-- V6.1: ERR_IE raises `irq` after an error, acknowledging ERR lowers it. -/
theorem test_irq :
    let s := (State.reset.withRegs { Regs.reset with irqEn := 2#3 }).fail ⟨.malformedHeader, 1, 0⟩
    (s.irq && after (step (s.withEvent (s.wrEvent 0x00C 0x4#32))) (fun t => !t.irq)) = true := by decide

/-- P1: the writes of SETCODE. -/
theorem test_setcode :
    (Pseudo.setcode 0x61#8 1#8 0#256).writes = [(0x011840, 0x80000001#32), (0x011844, 0x00000000#32)] := by decide
/-- P3: the last words of LOADSRC, the missing byte 0. -/
theorem test_loadsrc :
    (Pseudo.loadsrc literal).writes.drop 5 =
      [(0x100014, 0x43434343#32), (0x100018, 0x00444343#32), (0x018, 0x0000001B#32)] := by decide +kernel

/-- R30, R34 by hand: STATUS of a busy block, BUSY = 1 and LAST_CMD = 2. -/
theorem test_busy_status : reads (decoding aaaaStream) 0x00C 0x21#32 = true := by decide +kernel

/-! ## Bit-stream stages -/

/-- V3.5: a byte that straddles two DST bytes. -/
theorem test_putByte :
    let t := (State.reset.withPacker ⟨0, 0b100#8, 3⟩).putByte 0x61#8
    t.dst.read 0 = 0x8C#8 ∧ t.engine.packer = ⟨1, 0b001#8, 3⟩ := by decide +kernel
/-- V3.8: bits at and above LEN are not read. -/
theorem test_codebits : codebits 0xFF#256 2 = [true, true] ∧ codebits 0xA5#256 8 = bits8 0xA5#8 := by decide +kernel
/-- V3.12. -/
theorem test_getBit :
    let s := (block aaaaStream [] 4096).unpackInit 24 39
    s.getBit.1 = some true ∧ (s.advance 15).getBit.1 = none := by decide +kernel
/-- V3.16: 256 one-bits. -/
theorem test_getUnary_tooLong :
    ((block (List.replicate 32 0xFF#8) [] 4096).unpackInit 0 256).getUnary.1 = .tooLong := by decide +kernel
/-- V3.19. -/
theorem test_getBits_exhausted : ((block aaaaStream [] 4096).unpackInit 35 39).getBits 8 =
    (none, (block aaaaStream [] 4096).unpackInit 35 39) := by decide +kernel
/-- V3.24 and V3.25: the lowest index matches, an entry of length 0 never does. -/
theorem test_match :
    (((DecodeTable.cleared.store 0 1 0 0x70#8).store 1 1 0 0x71#8).matchCode 2 [false] = some 0) ∧
    ((DecodeTable.cleared.store 0 0 0 0x7A#8).matchCode 1 [false] = none) := by decide +kernel

/-! ## Witnesses: states and operands that meet the hypotheses of each statement

A statement without hypotheses has none here. Where a statement has several clauses, its witness meets each, at a
boundary of its range. -/

/-- Good states: reset, and a block that runs ENCODE. -/
theorem witness_inv_reset : State.reset.Inv :=
  { params := by decide, memories := by decide, draws := by decide
    engine := by constructor <;> simp [State.reset, Engine.reset]
    phase := trivial, running := nofun, detail := fun _ => rfl }

theorem witness_inv_encoding : (encoding aaaa [(0x61, 1, 0)]).Inv :=
  { params := by decide +kernel, memories := by decide +kernel, draws := by decide +kernel
    engine := by constructor <;> decide +kernel
    phase := rfl, running := fun _ => ⟨rfl, rfl, rfl, rfl, rfl, rfl⟩, detail := fun _ => rfl }

theorem witness_DecodeInvertsEncode : Instr.wellFormed (.reservedCmd 7#3) = true := by decide

theorem witness_ReservedBitsIgnoredAndRowsExact :
    0x7FFFFFF9#32 &&& 0x80000007#32 = 0x00000001#32 &&& 0x80000007#32 ∧ Instr.wellFormed .encode = true := by decide

theorem witness_SresetBitWinsOverCmd : (0xFFFFFFFF#32).getLsbD 31 = true := by decide

/-- Each of the four clauses: an engine event or none, busy or idle. -/
theorem witness_EngineTurnsStepOnlyWhileBusy :
    (∃ s : State, s.port.inputs = [.engine] ∧ s.busy = true) ∧ (∃ s : State, s.port.inputs = [.engine] ∧ s.busy = false) ∧
    (∃ s : State, s.port.inputs = [] ∧ s.busy = true) ∧ (∃ s : State, s.port.inputs = [] ∧ s.busy = false) :=
  ⟨⟨(encoding aaaa []).withEvent .engine, rfl, rfl⟩, ⟨State.reset.withEvent .engine, rfl, rfl⟩,
    ⟨encoding aaaa [], rfl, rfl⟩, ⟨State.reset, rfl, rfl⟩⟩

/-- A word and a state for each branch, in their order. -/
theorem witness_CommandDispatchOrder :
    (0x80000001#32).getLsbD 31 = true ∧
    ((0x7FFFFFF8#32).getLsbD 31 = false ∧ (0x7FFFFFF8#32).extractLsb' 0 3 = 0#3) ∧
    ((0x00000004#32).getLsbD 31 = false ∧ (0x00000004#32).extractLsb' 0 3 ≠ 0#3 ∧
      ((encoding aaaa []).answered .okay none).busy = true) ∧
    (State.reset.answered .okay none).busy = false ∧
    ((0x00000009#32).getLsbD 31 = false ∧ (0x00000009#32).extractLsb' 0 3 = 1#3) ∧
    ((0x00000002#32).getLsbD 31 = false ∧ (0x00000002#32).extractLsb' 0 3 = 2#3) ∧
    ((0x00000003#32).getLsbD 31 = false ∧ (0x00000003#32).extractLsb' 0 3 = 3#3) ∧
    ((0x00000007#32).getLsbD 31 = false ∧ (0x00000007#32).extractLsb' 0 3 ∉ [0#3, 1#3, 2#3, 3#3]) := by decide

theorem witness_NopChangesNothing : 0x7FFFFFF8#32 &&& 0x80000007#32 = 0#32 := by decide

theorem witness_IdleBlockStartsCommands : State.reset.busy = false := by decide

theorem witness_BusyBlockDropsCommands : (encoding aaaa []).busy = true := by decide

theorem witness_ReservedCommandsRefused :
    0xFFFFFFFC#32 &&& 0x80000004#32 ≠ 0x00000004#32 ∧ 0x7FFFFFFC#32 &&& 0x80000004#32 = 0x00000004#32 ∧
    (4#3).getLsbD 2 = true ∧ State.reset.busy = false ∧ (encoding aaaa []).busy = true := by decide

theorem witness_ResetEffectOfSresetAndRst : (State.reset.withEvent (.rst true)).port.inputs = [.rst true] := by decide

theorem witness_SresetAbandonsRunningCommand : (decoding aaaaStream).busy = true := by decide

theorem witness_AssertedRstAnswersNothing :
    ∃ (s : State) (t : HostTxn) (rest : List Input), s.port.rst = true ∧ s.port.inputs = .host t :: rest :=
  ⟨State.reset.withPort ⟨true, [.host (.rd 0 4)], none⟩, .rd 0 4, [], rfl, rfl⟩

theorem witness_EncodeRunsToEncodeOutcome :
    let s := block literal literalCodes 4096
    s.params.ok = true ∧ s.busy = false ∧ s.port.inputs = [] := by decide +kernel

theorem witness_DecodeRunsToDecodeOutcome :
    let s := block literalStream [] 4096
    s.params.ok = true ∧ s.busy = false ∧ s.port.inputs = [] := by decide +kernel

theorem witness_ClearTableRunsToZeroTable :
    State.reset.params.ok = true ∧ State.reset.busy = false ∧ State.reset.port.inputs = [] := by decide

theorem witness_CommandsTakeEngineSteps :
    State.reset.params.ok = true ∧ State.reset.busy = false ∧ State.reset.port.inputs = [] ∧
    Instr.clearTable ∈ [Instr.encode, Instr.decode, Instr.clearTable] ∧
    exec .clearTable State.reset = .next (State.reset.startCommand 3#3 .clear) := by
  refine ⟨by decide, by decide, by decide, by decide, rfl⟩

theorem witness_HostCannotDisturbRunningCommand :
    (encoding aaaa []).busy = true ∧
    ∀ addr v, HostTxn.wr 8 4 2#32 = .wr addr 4 v → offsetOf (encoding aaaa []).params addr = some 0x008 →
      v.getLsbD 31 = false :=
  ⟨by decide, fun addr v h _ => by obtain ⟨-, -, rfl⟩ := h; rfl⟩

/-- ENCODE of an empty message and DECODE of an empty stream, for the two clauses on DT. -/
theorem witness_EngineErrorEntry :
    (encoding [] []).engine.left ≤ 1 ∧ State.runPhases maxPhases (encoding [] []) = .raise ⟨.emptyInput, 0, 0⟩ ∧
    (encoding [] []).engine.phase.decoding = false ∧
    (decoding []).engine.left ≤ 1 ∧ State.runPhases maxPhases (decoding []) = .raise ⟨.malformedHeader, 1, 0⟩ ∧
    (decoding []).engine.phase.decoding = true := by
  refine ⟨by decide, rfl, by decide, by decide, rfl, by decide⟩

/-- SRC_LEN just above SRC_DEPTH, and SRC_LEN = 0. -/
theorem witness_EncodeFirstChecks :
    (∃ s : State, s.engine.phase = .encScan ∧ s.engine.left ≤ 1 ∧ s.params.srcDepth < s.regs.srcLen.toNat) ∧
    ∃ s : State, s.engine.phase = .encScan ∧ s.engine.left ≤ 1 ∧ ¬ s.params.srcDepth < s.regs.srcLen.toNat ∧
      s.regs.srcLen = 0 :=
  ⟨⟨withSrcLen (encoding [] []) 4097, by decide⟩, ⟨encoding [] [], by decide⟩⟩

theorem witness_EncodeAlphabetOverflow :
    let s := encoding (bytesTo 256) []
    s.engine.phase = .encScan ∧ s.engine.left ≤ 1 ∧ s.regs.srcLen.toNat ≤ s.params.srcDepth ∧
    ∀ b : Byte, ∃ i, i < s.regs.srcLen.toNat ∧ s.src.read i = b := by
  refine ⟨rfl, by decide, by decide +kernel, fun b => ⟨b.toNat, ?_, ?_⟩⟩
  · have hn : (encoding (bytesTo 256) []).regs.srcLen.toNat = 256 := by decide +kernel
    rw [hn]; exact b.isLt
  · rw [encoding_src, buffer_bytesTo b.isLt (by decide)]
    simp only [BitVec.ofNat_toNat, BitVec.setWidth_eq]

/-- V4.16 for the first clause, V4.17 for the second. -/
theorem witness_EncodeFirstBadSymbol :
    (let s := encoding [0x61#8, 0x62#8] [(0x61, 1, 0)]
     s.engine.phase = .encScan ∧ s.engine.left ≤ 1 ∧ s.regs.srcLen.toNat ≤ s.params.srcDepth ∧
     (∀ j, j < s.regs.srcLen.toNat → s.src.read j ≠ 0x63#8) ∧ 1 < s.regs.srcLen.toNat ∧
     (∀ j, j < 1 → s.ct.isValid (s.src.read j).toNat = true ∧ s.ct.lenOf (s.src.read j).toNat ≠ 0) ∧
     s.ct.isValid (s.src.read 1).toNat = false) ∧
    (let s := encoding [0x61#8, 0x61#8, 0x62#8] [(0x61, 1, 0), (0x62, 0, 0)]
     s.engine.phase = .encScan ∧ s.engine.left ≤ 1 ∧ s.regs.srcLen.toNat ≤ s.params.srcDepth ∧
     (∀ j, j < s.regs.srcLen.toNat → s.src.read j ≠ 0x63#8) ∧ 2 < s.regs.srcLen.toNat ∧
     (∀ j, j < 2 → s.ct.isValid (s.src.read j).toNat = true ∧ s.ct.lenOf (s.src.read j).toNat ≠ 0) ∧
     s.ct.isValid (s.src.read 2).toNat = true ∧ s.ct.lenOf (s.src.read 2).toNat = 0) := by decide +kernel

/-- V4.20: a stream of 5 bytes, DST_DEPTH = 4. -/
theorem witness_EncodeDstOverflow :
    let s := encoding aaaa [(0x61, 1, 0)] 4
    s.engine.phase = .encScan ∧ s.engine.left ≤ 1 ∧ s.regs.srcLen.toNat ≤ s.params.srcDepth ∧ s.regs.srcLen ≠ 0 ∧
    0x62#8 ∉ s.message ∧ (∀ b ∈ s.message, s.ct.isValid b.toNat = true ∧ s.ct.lenOf b.toNat ≠ 0) ∧
    let tbits := (((List.range 256).filter fun x => BitVec.ofNat 8 x ∈ s.message).map fun x => 2 * s.ct.lenOf x + 9).sum
    let pbits := (s.message.map fun b => s.ct.lenOf b.toNat).sum
    let k := (8 - (tbits + pbits) % 8) % 8
    s.params.dstDepth < 3 + (tbits + pbits + k) / 8 := by decide +kernel

/-- The clauses in their order: SRC_LEN just above SRC_DEPTH, 1, 2, marker 0xFF, K = 1 with an empty body (V5.13),
NUM_SYMBOLS = 0 with K = 0 (V5.15). -/
theorem witness_DecodeHeaderChecks :
    (let s := withSrcLen (decoding []) 4097
     s.engine.phase = .decHeader ∧ s.engine.left ≤ 1 ∧ s.params.srcDepth < s.regs.srcLen.toNat) ∧
    (decoding [0x01#8]).regs.srcLen.toNat < 2 ∧ (decoding [0x01#8, 0x01#8]).regs.srcLen.toNat = 2 ∧
    (decoding [0x01#8, 0x01#8, 0xFF#8]).src.read 2 = 0xFF#8 ∧
    (let s := decoding [0x01#8, 0x01#8, 0x80#8]
     (∀ j, j < 1 → (s.src.read 2).getLsbD (7 - j) = true) ∧ (s.src.read 2).getLsbD (7 - 1) = false ∧
     8 * (s.regs.srcLen.toNat - 3) < 1) ∧
    (let s := decoding [0x01#8, 0x00#8, 0x00#8]
     (s.src.read 2).getLsbD (7 - 0) = false ∧ 0 ≤ 8 * (s.regs.srcLen.toNat - 3) ∧ s.src.read 1 = 0#8) := by
  decide +kernel

/-- Four bytes into a DST of 4 bytes. -/
theorem witness_PackerPutsBitsMsbFirst :
    let s := (block [] [] 4).packInit
    s.engine.packer.accN = 0 ∧ s.engine.packer.optr + (List.replicate 35 true).length / 8 ≤ s.params.dstDepth := by
  decide +kernel

/-- 255 one-bits and a zero-bit; 5 one-bits up to QLIM; 256 one-bits up to QLIM. -/
theorem witness_GetUnaryCountsOnes :
    (let s := (block (List.replicate 31 0xFF#8 ++ [0xFE#8]) [] 4096).unpackInit 0 256
     (∀ j, j < 255 → s.bitAt (0 + j) = true) ∧ 0 + 255 < s.engine.unpacker.qlim ∧ s.bitAt (0 + 255) = false) ∧
    (let s := (block [0xFF#8] [] 4096).unpackInit 0 5
     (∀ j, j < 5 → s.bitAt (0 + j) = true) ∧ 0 + 5 = s.engine.unpacker.qlim) ∧
    (let s := (block (List.replicate 32 0xFF#8) [] 4096).unpackInit 0 256
     (∀ j, j < 256 → s.bitAt (0 + j) = true) ∧ 0 + 256 ≤ s.engine.unpacker.qlim) := by decide +kernel

theorem witness_MatchGivesLowestIndex :
    [false] ≠ [] ∧ (DecodeTable.cleared.store 0 0 0 0x7A#8).len.read 0 = 0 := by decide +kernel

theorem witness_MarkerCarriesPadCount : 7 < 8 ∧ 0x7F#8 ≠ 0xFF#8 := by decide

theorem witness_StreamLength : ∀ b ∈ literal, (table literalCodes).lenOf b.toNat ≠ 0 := by decide +kernel

/-- The literal scenario's code words are a prefix code. -/
theorem literal_prefixCode : PrefixCode (table literalCodes) literal := by
  have h : ∀ x ∈ literal, ∀ y ∈ literal, x ≠ y →
      (((table literalCodes).codeBits x.toNat).isPrefixOf ((table literalCodes).codeBits y.toNat)) = false := by
    decide +kernel
  intro x hx y hy hxy hp
  have := h x hx y hy hxy
  rw [List.isPrefixOf_iff_prefix.2 hp] at this
  cases this

theorem witness_DecodeUndoesEncode :
    ∃ r, encodeFn Params.reset (table literalCodes) literal literal.length = .ok r ∧
      PrefixCode (table literalCodes) literal ∧ r.bytes.length ≤ 4096 ∧ literal.length ≤ 4096 := by
  refine ⟨_, eq_okOr ⟨[], 0, 0, 0, 0, 0⟩ (by decide +kernel), literal_prefixCode, ?_, ?_⟩ <;> decide +kernel

/-- The block with ENGINE_STEPS = `n`. -/
def withSteps (s : State) (n : Nat) : State := { s with params := { s.params with engineSteps := n } }

/-- V4.2: "ab", its code words and its stream. -/
def ab : List Byte := [0x61#8, 0x62#8]
def abCodes : List (Nat × Nat × Nat) := [(0x61, 1, 0), (0x62, 1, 1)]
def abStream : List Byte := [0x01#8, 0x02#8, 0x00#8, 0x8C#8, 0x35#8, 0x89#8]

theorem ab_prefixCode : PrefixCode (table abCodes) ab := by
  unfold PrefixCode
  decide +kernel

/-- What the statement asks of `t`, the block after a whole ENCODE of V4.2 in two engine steps. -/
theorem ab_encoded :
    after (Host.Core.run Sys2Proof.core 2 ((withSteps (block ab abCodes 4096) 2).issue 1#3 .encScan)) (fun t =>
      decide (t.regs.errorCode = .none ∧ 6#32 = t.regs.results.dstLen ∧ t.dst.readList 0 6 = abStream)) = true := by
  decide +kernel

/-- Two engine steps for ENCODE, three for DECODE. -/
theorem witness_EncodeThenDecodeOnTheBlock :
    ∃ s s1 t u : State, s.params.ok = true ∧ s.busy = false ∧ s.port.inputs = [] ∧ exec .encode s = .next s1 ∧
      Runs s.params.engineSteps s1 t ∧ t.regs.errorCode = .none ∧ PrefixCode s.ct s.message ∧
      u.params.ok = true ∧ u.busy = false ∧ u.port.inputs = [] ∧ u.regs.srcLen = t.regs.results.dstLen ∧
      t.regs.results.dstLen.toNat ≤ u.params.srcDepth ∧ s.regs.srcLen.toNat ≤ u.params.dstDepth ∧
      ∀ i, i < t.regs.results.dstLen.toNat → u.src.read i = t.dst.read i := by
  obtain ⟨t, ht, h⟩ := exists_of_after ab_encoded
  obtain ⟨h1, h2, h3⟩ := of_decide_eq_true h
  refine ⟨withSteps (block ab abCodes 4096) 2, _, t, withSteps (block abStream [] 4096) 3,
    by decide +kernel, by decide, rfl, rfl, ht, h1, ?_, by decide +kernel, by decide, rfl, h2, ?_, by decide, ?_⟩
  · have hm : (withSteps (block ab abCodes 4096) 2).message = ab := by decide +kernel
    rw [hm]
    exact ab_prefixCode
  · rw [← h2]; decide
  · rw [← h2]
    intro i hi
    have hs : (withSteps (block abStream [] 4096) 3).src.readList 0 6 = t.dst.readList 0 6 := by
      rw [h3]; decide +kernel
    have hi6 : i < 6 := hi
    have hg := congrArg (fun l => l[i]?) hs
    simpa [List.getElem?_eq_getElem, Memory.readList_length, Memory.readList_getElem, hi6] using hg

/-- V4.11 and V4.23: another CT entry for an absent symbol, another SRC byte past SRC_LEN. -/
theorem witness_EncodeReadsOnlyItsInputs :
    let s := encoding aaaa [(0x61, 1, 0)]
    let s' := withSrcLen (encoding (aaaa ++ [0xFF#8]) [(0x61, 1, 2), (0x7A, 5, 3)]) 4
    s ≠ s' ∧ s.params = s'.params ∧ s.regs.srcLen = s'.regs.srcLen ∧
    (∀ i, i < s.regs.srcLen.toNat → s.src.read i = s'.src.read i) ∧
    ∀ b ∈ s.message, s.ct.isValid b.toNat = s'.ct.isValid b.toNat ∧ s.ct.lenOf b.toNat = s'.ct.lenOf b.toNat ∧
      ∀ j, j < s.ct.lenOf b.toNat → s.ct.codeBit b.toNat j = s'.ct.codeBit b.toNat j := by
  refine ⟨fun h => absurd (congrArg (fun x => x.src.cells.length) h) (by decide +kernel), ?_⟩
  decide +kernel

theorem witness_EncodeSuccessFrame :
    ∃ (s : State) (r : EncodeOk), s.params.ok = true ∧ s.busy = false ∧ s.port.inputs = [] ∧ s.encodeOutcome = .ok r :=
  ⟨withSteps (block literal literalCodes 4096) 2, _, by decide +kernel, by decide, rfl,
    eq_okOr ⟨[], 0, 0, 0, 0, 0⟩ (by decide +kernel)⟩

theorem witness_DecodeSuccessFrame :
    ∃ (s : State) (r : DecodeOk), s.params.ok = true ∧ s.busy = false ∧ s.port.inputs = [] ∧ s.decodeOutcome = .ok r :=
  ⟨withSteps (block literalStream [] 4096) 3, _, by decide +kernel, by decide, rfl,
    eq_okOr ⟨[], [], 0, 0, 0, 0, 0⟩ (by decide +kernel)⟩

/-- Each way to a bus error, at the edges of the map. -/
theorem witness_BusErrorsChangeNothing :
    0x3FFFFF < 2 ^ 22 ∧ (1 : Nat) ≠ 4 ∧ 0x3FFFFF % 4 ≠ 0 ∧ regionOf Params.reset 0x000100 = none ∧
    regionOf Params.reset 0x00FFFC = none ∧ regionOf Params.reset 0x023FC0 = none ∧
    regionOf Params.reset 0x101000 = none ∧ regionOf Params.reset 0x3FFFFC = none ∧
    (0x020000 ≤ 0x023FBF ∧ 0x023FBF < 0x023FC0) := by decide

theorem witness_AddressMap : Params.reset.ok = true ∧ 0x3FFFFF < 2 ^ 22 := by decide

/-- The first and the last word of the SRC window. -/
theorem witness_SrcWindowWords :
    State.reset.params.ok = true ∧ State.reset.busy = false ∧ 0 % 4 = 0 ∧ 4092 % 4 = 0 ∧
    4092 < State.reset.params.srcDepth := by decide

/-- The first and the last word of the DST window. -/
theorem witness_DstWindowWords :
    State.reset.params.ok = true ∧ State.reset.busy = false ∧ 0 % 4 = 0 ∧ 4092 % 4 = 0 ∧
    4092 < State.reset.params.dstDepth := by decide

/-- The first and the last word of CT. -/
theorem witness_CtWordWrites : State.reset.busy = false ∧ (0 < 256 ∧ 0 < 16) ∧ 255 < 256 ∧ 15 < 16 := by decide

/-- The first and the last entry and word, idle; a table read while another command runs. -/
theorem witness_TableWordReads :
    (0 < 256 ∧ 255 < 256 ∧ 254 < 255 ∧ 15 < 16) ∧ State.reset.busy = false ∧ State.reset.engine.phase ≠ .clear ∧
    ((encoding aaaa []).busy && (encoding aaaa []).regs.lastCmd == 2#3) = false := by decide

/-- The last word of each busy-guarded target. -/
theorem witness_BusyGuardedWritesDropped :
    let s := encoding aaaa []
    s.params.ok = true ∧ s.busy = true ∧ (0x018 % 4 = 0 ∧ 0x013FFC % 4 = 0 ∧ 0x100FFC % 4 = 0 ∧ 0x200FFC % 4 = 0) ∧
    0x013FFC ≤ 0x013FFF ∧ 0x100FFC < 0x100000 + s.params.srcDepth ∧ 0x200FFC < 0x200000 + s.params.dstDepth := by
  decide

/-- A reserved offset at the end of their range; idle for the second part, and a busy block for the first. -/
theorem witness_RegisterReads :
    State.reset.busy = false ∧ (encoding aaaa []).engine.phase ≠ .idle ∧
    (0x040 ≤ 0x040 ∧ 0x040 ≤ 0x0FC ∧ 0x040 % 4 = 0) ∧ (0x040 ≤ 0x0FC ∧ 0x0FC ≤ 0x0FC ∧ 0x0FC % 4 = 0) := by decide

theorem witness_ReadOnlyWritesIgnored :
    (0x000 % 4 = 0 ∧ 0x000 < 0x100 ∧ 0x000 ∉ [0x008, 0x00C, 0x018, 0x034]) ∧
    (0x0FC % 4 = 0 ∧ 0x0FC < 0x100 ∧ 0x0FC ∉ [0x008, 0x00C, 0x018, 0x034]) := by decide

/-- The three clauses: a register, the last DST word, the last DT word. -/
theorem witness_BusyReadsGiveAny :
    let s := decoding aaaaStream
    s.params.ok = true ∧ s.busy = true ∧ 0x030 ∈ [0x010, 0x014, 0x01C, 0x020, 0x024, 0x028, 0x02C, 0x030] ∧
    (0x200FFC % 4 = 0 ∧ 0x200FFC < 0x200000 + s.params.dstDepth) ∧
    (s.regs.lastCmd = 2#3 ∧ 0x023FBC % 4 = 0 ∧ 0x023FBC < 0x023FC0) := by decide

theorem witness_CtReadsWhileClearing : (State.reset.startCommand 3#3 .clear).engine.phase = .clear := by decide

/-- A code word of 255 bits; a message of one byte, and one that fills SRC. -/
theorem witness_SetcodeAndLoadsrcLoad :
    (∃ s : State, s.busy = false ∧ s.port.rst = false ∧
      s.port.inputs = (Pseudo.setcode 0x78#8 255#8 (BitVec.allOnes 256)).events s.params) ∧
    (∃ s : State, s.params.ok = true ∧ s.busy = false ∧ s.port.rst = false ∧ [0x01#8].length ≤ s.params.srcDepth ∧
      s.port.inputs = (Pseudo.loadsrc [0x01#8]).events s.params) ∧
    (bytesTo 4096).length ≤ State.reset.params.srcDepth :=
  ⟨⟨State.reset.withPort ⟨false, (Pseudo.setcode 0x78#8 255#8 (BitVec.allOnes 256)).events State.reset.params, none⟩,
      rfl, rfl, rfl⟩,
    ⟨State.reset.withPort ⟨false, (Pseudo.loadsrc [0x01#8]).events State.reset.params, none⟩,
      by decide, rfl, rfl, by decide, rfl⟩,
    by simp [bytesTo, State.reset, Params.reset]⟩

/-- `irq` raised by DONE and lowered by ACK; REJ_IE with REJ over the start of a command. -/
theorem witness_IrqFollowsStatusAndEnables :
    (let s := (State.reset.withRegs { Regs.reset with irqEn := 1#3 }).complete Results.zero
     s.irq = true ∧ after (step (s.withEvent (s.wrEvent 0x00C 0xE#32))) (fun _ => true) = true) ∧
    (let s := (State.reset.withRegs { Regs.reset with irqEn := 4#3 }).reject
     s.busy = false ∧ s.irq = true ∧ after (exec .encode s) (fun t => t.irq) = true) := by decide

/-- A good state and its step, idle and busy. -/
theorem witness_StepKeepsGoodStates :
    (State.reset.Inv ∧ step State.reset = .next State.reset) ∧
    ∃ t, (encoding aaaa [(0x61, 1, 0)]).Inv ∧ step (encoding aaaa [(0x61, 1, 0)]) = .next t :=
  ⟨⟨witness_inv_reset, rfl⟩, _, witness_inv_encoding, eq_nextOr State.reset (by decide +kernel)⟩

theorem witness_GoodStatesNeverStop : (encoding aaaa [(0x61, 1, 0)]).Inv := witness_inv_encoding

theorem witness_ParametersNeverChange : ∃ s t : State, s.busy = true ∧ step s = .next t :=
  ⟨encoding aaaa [(0x61, 1, 0)], _, by decide, eq_nextOr State.reset (by decide +kernel)⟩

theorem witness_RejClearedOnlyByAckOrReset :
    ∃ s t : State, step s = .next t ∧ s.regs.rej = true ∧ t.regs.rej = false :=
  ⟨State.reset.reject.withEvent (State.reset.wrEvent 0x00C 0x8#32), _, eq_nextOr State.reset (by decide), by decide,
    by decide⟩

/-- An engine step of DECODE changes DT. -/
theorem witness_DtWrittenOnlyByDecodeOrReset :
    ∃ s t : State, step s = .next t ∧ t.dt ≠ s.dt :=
  ⟨decoding aaaaStream, _, eq_nextOr State.reset (by decide +kernel), by decide +kernel⟩

theorem witness_SrcNeverChangedByCommands :
    ∃ s t : State, step s = .next t ∧ t.src ≠ s.src :=
  ⟨State.reset.withEvent (State.reset.wrEvent 0x100000 0x44434241#32), _, eq_nextOr State.reset (by decide), by decide⟩

end Sys2Proof.Tests
end

section
/-! PROOF. Command words: the two fields of a word settle what it decodes to and which row of the opcode table it
matches (30_encoding.md R101 to R104). -/

namespace Sys2Proof

/-- The command word with these two fields and bits [30:3] all 0 (30_encoding.md R101). -/
def commandWord (sreset : Bool) (cmd : BitVec 3) : Word := BitVec.ofBool sreset ++ 0#28 ++ cmd

theorem getLsbD_commandWord (sreset : Bool) (cmd : BitVec 3) (j : Nat) :
    (commandWord sreset cmd).getLsbD j = if j < 3 then cmd.getLsbD j else decide (j = 31) && sreset := by
  rw [commandWord, BitVec.getLsbD_append, BitVec.getLsbD_append]
  split_ifs with hcmd hzero
  · rfl
  · simp; omega
  · have h31 : j - 3 - 28 = 0 ↔ j = 31 := by omega
    simp [h31]

/-- Masking bits [30:3] of a word keeps its two fields and nothing else (R103). -/
theorem and_commandMask (w : Word) : w &&& 0x80000007#32 = commandWord (sresetField w) (cmdField w) := by
  have hmask : 0x80000007#32 = commandWord true (BitVec.allOnes 3) := by decide
  refine BitVec.eq_of_getLsbD_eq fun j _ => ?_
  rw [hmask, BitVec.getLsbD_and, getLsbD_commandWord, getLsbD_commandWord]
  split_ifs with hcmd
  · simp only [cmdField, BitVec.getLsbD_allOnes, BitVec.getLsbD_extractLsb', hcmd, decide_true, Bool.and_true,
      Bool.true_and, Nat.zero_add]
  · by_cases h31 : j = 31 <;> simp [h31, sresetField]

theorem decode_commandWord (sreset : Bool) (cmd : BitVec 3) :
    decode (commandWord sreset cmd) = if sreset then .sreset else decodeCmd cmd := by
  decide +revert

/-- The decoder reads no bit of [30:3] (R103). -/
theorem decode_and_commandMask (w : Word) : decode (w &&& 0x80000007#32) = decode w := by
  rw [and_commandMask, decode_commandWord, decode]

/-- SRESET = 1 leaves CMD undecoded (R104). -/
theorem decode_of_sresetField {w : Word} (h : sresetField w = true) : decode w = .sreset := by
  rw [decode, if_pos h]

/-- No row of spec/opcode_table.json looks at a bit of [30:3]. -/
theorem Instr.commandMask_and_tableMask (i : Instr) : 0x80000007#32 &&& i.tableMask = i.tableMask := by
  cases i <;> decide +revert

/-- Rows and decoder agree on the sixteen words whose bits [30:3] are 0. -/
theorem commandWord_matchesRow_iff (i : Instr) (sreset : Bool) (cmd : BitVec 3) :
    let w := commandWord sreset cmd
    w &&& i.tableMask = i.tableMatch ↔
      (decode w).tableMask = i.tableMask ∧ (decode w).tableMatch = i.tableMatch := by
  cases i <;> decide +revert

/-- A word matches a row of spec/opcode_table.json exactly when it decodes to an instruction of that row (R103). -/
theorem matchesRow_iff (w : Word) (i : Instr) :
    w &&& i.tableMask = i.tableMatch ↔
      (decode w).tableMask = i.tableMask ∧ (decode w).tableMatch = i.tableMatch := by
  have hmasked : w &&& i.tableMask = commandWord (sresetField w) (cmdField w) &&& i.tableMask := by
    rw [← and_commandMask, BitVec.and_assoc, Instr.commandMask_and_tableMask]
  rw [hmasked, ← decode_and_commandMask w, and_commandMask]
  exact commandWord_matchesRow_iff i _ _

/-- Settles O3: the decoder looks at SRESET first. -/
theorem sresetBitWinsOverCmd : Obligations.SresetBitWinsOverCmd :=
  ⟨fun _ h => decode_of_sresetField h, decode_of_sresetField (by decide)⟩

/-- Settles O2: a word's masked form decides both what it decodes to and which row it matches. -/
theorem reservedBitsIgnoredAndRowsExact : Obligations.ReservedBitsIgnoredAndRowsExact := by
  refine ⟨fun w w' s h => ?_, fun w i _ => matchesRow_iff w i⟩
  rw [← decode_and_commandMask w, h, decode_and_commandMask]

end Sys2Proof
end

section
/-! PROOF. The code word of a symbol: the eight CT_CODE words as one 256-bit value (30_encoding.md R117). -/

namespace Sys2Proof.Machine

theorem msbFirst_congr {f g : Nat → Bool} {n : Nat} (h : ∀ j < n, f j = g j) : msbFirst f n = msbFirst g n := by
  induction n with
  | zero => rfl
  | succ n ih => rw [msbFirst, msbFirst, h n (Nat.lt_succ_self n), ih fun j hj => h j (Nat.lt_succ_of_lt hj)]

theorem toNat_append_eq_add {n m : Nat} (a : BitVec n) (b : BitVec m) :
    (a ++ b).toNat = a.toNat * 2 ^ m + b.toNat := by
  rw [BitVec.toNat_append, ← Nat.shiftLeft_add_eq_or_of_lt b.isLt, Nat.shiftLeft_eq]

/-- Eight digits in base `B`, by Horner's rule and as a sum of powers. -/
theorem horner_eq_sum_range_eight (B : Nat) (f : Nat → Nat) :
    ((((((f 7 * B + f 6) * B + f 5) * B + f 4) * B + f 3) * B + f 2) * B + f 1) * B + f 0 =
      ((List.range 8).map fun w => f w * B ^ w).sum := by
  simp [List.range_succ]
  ring

theorem CodeTable.lenOf_lt (ct : CodeTable) (x : Nat) : ct.lenOf x < 256 := (ct.len.read x).isLt

theorem CodeTable.codeBit_eq (ct : CodeTable) (x : Nat) {j w r : Nat} (hw : j / 32 = w) (hr : j % 32 = r) :
    ct.codeBit x j = (ct.wordOf x w).getLsbD r := by
  rw [CodeTable.codeBit, hw, hr]

/-- The bits of CODE are those of the eight words, in their places (20_memory.md R78). -/
theorem CodeTable.getLsbD_codeValue (ct : CodeTable) (x : Nat) {j : Nat} (h : j < 256) :
    (ct.codeValue x).getLsbD j = ct.codeBit x j := by
  rw [CodeTable.codeValue]
  simp only [BitVec.getLsbD_append]
  split_ifs <;> exact (ct.codeBit_eq x (by omega) (by omega)).symm

theorem CodeTable.toNat_codeValue (ct : CodeTable) (x : Nat) :
    (ct.codeValue x).toNat = ((List.range 8).map fun w => (ct.wordOf x w).toNat * 2 ^ (32 * w)).sum := by
  simp only [CodeTable.codeValue, toNat_append_eq_add, pow_mul]
  exact horner_eq_sum_range_eight (2 ^ 32) fun w => (ct.wordOf x w).toNat

theorem CodeTable.codeBits_eq_codebits (ct : CodeTable) (x : Nat) :
    ct.codeBits x = codebits (ct.codeValue x) (ct.lenOf x) :=
  msbFirst_congr fun _ hj => (ct.getLsbD_codeValue x (hj.trans (ct.lenOf_lt x))).symm

/-- Settles O29: LEN is below 256, so the code word reads bits of the eight words only. -/
theorem codeWordFromCodeWords : Obligations.CodeWordFromCodeWords :=
  fun ct x => ⟨ct.codeBits_eq_codebits x, ct.toNat_codeValue x⟩

end Sys2Proof.Machine
end

section
/-! PROOF. Lengths: the serialised entries, the payload and the whole stream of an encoded message (30_encoding.md R111
to R115, 42_encode.md R226). -/

namespace Sys2Proof.Machine

/-! ## Bytes of a bit sequence -/

theorem bytesOfBits_length : ∀ s : Bits, (bytesOfBits s).length = s.length / 8
  | _ :: _ :: _ :: _ :: _ :: _ :: _ :: _ :: rest => by
    rw [bytesOfBits, List.length_cons, bytesOfBits_length rest]
    simp only [List.length_cons]
    omega
  | [] | [_] | [_, _] | [_, _, _] | [_, _, _, _] | [_, _, _, _, _] | [_, _, _, _, _, _] | [_, _, _, _, _, _, _] => by
    simp [bytesOfBits]

theorem padCount_le (n : Nat) : padCount n ≤ 7 := by unfold padCount; omega

theorem add_padCount_mod (n : Nat) : (n + padCount n) % 8 = 0 := by unfold padCount; omega

/-! ## The present set -/

/-- The present set over a message, from any set to begin with (42_encode.md R212). -/
theorem getLsbD_foldl_present (m : List Byte) (p : BitVec 256) {x : Nat} (h : x < 256) :
    (m.foldl (fun p b => p ||| BitVec.twoPow 256 b.toNat) p).getLsbD x =
      (p.getLsbD x || decide (BitVec.ofNat 8 x ∈ m)) := by
  induction m generalizing p with
  | nil => simp
  | cons b rest ih =>
    have hb : b.toNat = x ↔ BitVec.ofNat 8 x = b := by
      rw [← BitVec.toNat_inj, BitVec.toNat_ofNat, Nat.mod_eq_of_lt h, eq_comm]
    have hlt : b.toNat < 256 := b.isLt
    simp only [List.foldl_cons, ih, BitVec.getLsbD_or, BitVec.getLsbD_twoPow, hlt, hb, List.mem_cons, Bool.decide_or,
      Bool.or_assoc, decide_true, Bool.true_and]

/-- The symbols of the present set are the bytes that occur in the message. -/
theorem symbolsOf_presentSet (m : List Byte) :
    symbolsOf (presentSet m) = (List.range 256).filter fun x => BitVec.ofNat 8 x ∈ m := by
  refine List.filter_congr fun x hx => ?_
  rw [presentSet, getLsbD_foldl_present m 0 (List.mem_range.1 hx)]
  simp

theorem symbolsOf_nodup (p : BitVec 256) : (symbolsOf p).Nodup := List.nodup_range.filter _

theorem lenOf_ne_zero_of_present {ct : CodeTable} {m : List Byte} (h : ∀ b ∈ m, ct.lenOf b.toNat ≠ 0) :
    ∀ x ∈ symbolsOf (presentSet m), ct.lenOf x ≠ 0 := by
  intro x hx
  rw [symbolsOf_presentSet, List.mem_filter, List.mem_range, decide_eq_true_eq] at hx
  obtain ⟨hlt, hmem⟩ := hx
  simpa [Nat.mod_eq_of_lt hlt] using h _ hmem

/-! ## The order of the table -/

/-- The table holds exactly the symbols of a non-empty code word. -/
theorem mem_tableOrder (ct : CodeTable) (l : List Nat) (x : Nat) :
    x ∈ tableOrder ct l ↔ x ∈ l ∧ ct.lenOf x ≠ 0 := by
  have hlt := ct.lenOf_lt x
  simp only [tableOrder, Config.maxCodeLen, List.mem_flatMap, List.mem_range'_1, List.mem_filter, beq_iff_eq]
  constructor
  · rintro ⟨L, ⟨hL, -⟩, hx, rfl⟩
    exact ⟨hx, by omega⟩
  · rintro ⟨hx, hne⟩
    exact ⟨ct.lenOf x, by omega, hx, rfl⟩

theorem tableOrder_nodup (ct : CodeTable) {l : List Nat} (h : l.Nodup) : (tableOrder ct l).Nodup := by
  refine List.nodup_flatMap.2 ⟨fun L _ => h.filter _, (List.nodup_range' (step := 1)).imp ?_⟩
  intro L L' hne x hx hx'
  simp only [List.mem_filter, beq_iff_eq] at hx hx'
  exact hne (hx.2.symm.trans hx'.2)

/-- The table's order is a reordering: no symbol is lost and none is doubled (42_encode.md R216). -/
theorem tableOrder_perm (ct : CodeTable) {l : List Nat} (h : l.Nodup) (hlen : ∀ x ∈ l, ct.lenOf x ≠ 0) :
    (tableOrder ct l).Perm l :=
  (List.perm_ext_iff_of_nodup (tableOrder_nodup ct h) h).2 fun x =>
    (mem_tableOrder ct l x).trans (and_iff_left_of_imp (hlen x))

/-! ## The parts of the stream -/

theorem entryBits_length (ct : CodeTable) (x : Nat) : (entryBits ct x).length = 2 * ct.lenOf x + 9 := by
  simp only [entryBits, List.length_append, List.length_replicate, List.length_singleton, CodeTable.codeBits_length,
    bits8_length]
  omega

theorem payloadBits_length (ct : CodeTable) (m : List Byte) : (payloadBits ct m).length = payloadLength ct m := by
  simp [payloadBits, payloadLength, List.length_flatMap]

/-- The length ENC_SCAN computes from the present set is that of the serialised table (42_encode.md R217). -/
theorem tableBits_length {ct : CodeTable} {m : List Byte} (h : ∀ b ∈ m, ct.lenOf b.toNat ≠ 0) :
    (tableBits ct m).length = tableLength ct (symbolsOf (presentSet m)) := by
  have hperm := tableOrder_perm ct (symbolsOf_nodup _) (lenOf_ne_zero_of_present h)
  simp only [tableBits, List.length_flatMap, entryBits_length]
  exact (hperm.map _).sum_eq

/-- Three header bytes, the body and its padding (30_encoding.md R115). -/
theorem streamOf_length (ct : CodeTable) (m : List Byte) :
    (streamOf ct m).length =
      24 + ((tableBits ct m ++ payloadBits ct m).length + padCount (tableBits ct m ++ payloadBits ct m).length) := by
  simp only [streamOf, List.length_append, bits8_length, List.length_replicate]
  omega

/-- Settles O31: the table is a reordering of the present symbols, and the padding fills the body to whole bytes. -/
theorem streamLength : Obligations.StreamLength := by
  intro ct m hlen body k
  have hpad : k ≤ 7 := padCount_le _
  have hwhole : (body.length + k) % 8 = 0 := add_padCount_mod _
  have hstream : (streamOf ct m).length = 24 + (body.length + k) := streamOf_length ct m
  refine ⟨hpad, hwhole, by omega, by rw [bytesOfBits_length]; omega, ?_, payloadBits_length ct m⟩
  rw [tableBits_length hlen, tableLength, symbolsOf_presentSet]

end Sys2Proof.Machine
end

section
/-! PROOF. What `exec` answers for NOP, for the commands a busy block drops and for a reserved command, and the event
that ends a command in an engine error (40_host_access.md R153, R158, R159, R161). -/

namespace Sys2Proof.Machine

variable {s : State}

/-! ## The arms of `exec` -/

theorem exec_nop (s : State) : exec .nop s = .next s := rfl

theorem exec_encode (s : State) : exec .encode s = .next (s.issue 1#3 .encScan) := rfl

theorem exec_decode (s : State) : exec .decode s = .next (s.issue 2#3 .decHeader) := rfl

theorem exec_clearTable (s : State) : exec .clearTable s = .next (s.issue 3#3 .clear) := rfl

theorem exec_reservedCmd_busy (h : s.busy = true) (c : BitVec 3) : exec (.reservedCmd c) s = .next s.reject := by
  simp only [exec, execReservedCmd, h, if_true]

theorem exec_reservedCmd_idle (h : s.busy = false) (c : BitVec 3) :
    exec (.reservedCmd c) s = .next (s.refuseReserved c) := by
  simp only [exec, execReservedCmd, h, Bool.false_eq_true, if_false]

/-- The rows RESERVED_CMD of spec/opcode_table.json, on the sixteen words whose bits [30:3] are 0. -/
theorem decode_commandWord_reserved (sreset : Bool) (cmd : BitVec 3)
    (h : commandWord sreset cmd &&& 0x80000004#32 = 0x00000004#32) :
    decode (commandWord sreset cmd) = .reservedCmd cmd := by
  decide +revert

/-- A word of the row RESERVED_CMD decodes to its CMD (30_encoding.md R102, R103). -/
theorem decode_of_reservedRow {w : Word} (h : w &&& 0x80000004#32 = 0x00000004#32) :
    decode w = .reservedCmd (cmdField w) := by
  have hrow : (w &&& 0x80000007#32) &&& 0x80000004#32 = 0x00000004#32 := by
    rwa [BitVec.and_assoc, show 0x80000007#32 &&& 0x80000004#32 = 0x80000004#32 by decide]
  rw [and_commandMask] at hrow
  rw [← decode_and_commandMask, and_commandMask]
  exact decode_commandWord_reserved _ _ hrow

/-- Settles O8: a word of NOP's row decodes as 0 does. -/
theorem nopChangesNothing : Obligations.NopChangesNothing := by
  refine ⟨exec_nop, fun w h => ?_⟩
  rw [← decode_and_commandMask, h]
  decide

/-- Settles O10: each dropped command is `State.reject`. -/
theorem busyBlockDropsCommands : Obligations.BusyBlockDropsCommands := by
  intro s hb dropped
  have hissue (c : BitVec 3) (p : Phase) : s.issue c p = s.reject := State.issue_busy hb c p
  refine ⟨?_, ?_, ?_, exec_reservedCmd_busy hb⟩
  · rw [exec_encode, hissue, State.reject_spec]
  · rw [exec_decode, hissue, State.reject_spec]
  · rw [exec_clearTable, hissue, State.reject_spec]

/-- Settles O11: idle it is `RefuseReserved`, which leaves PHASE alone; busy it is a drop. -/
theorem reservedCommandsRefused : Obligations.ReservedCommandsRefused :=
  ⟨fun _ h => decode_of_reservedRow h, fun s c _ =>
    ⟨fun hi => ⟨s.refuseReserved c, exec_reservedCmd_idle hi c, hi, rfl⟩, fun hb => exec_reservedCmd_busy hb c⟩⟩

/-! ## Error entry -/

/-- A command whose last engine step raises an error ends in the error entry (R161). -/
theorem State.raises_of_runPhases {e : EngineError} (hl : s.engine.left ≤ 1)
    (h : State.runPhases maxPhases s = .raise e) : s.Raises e := by
  rw [State.Raises, State.engineStep, if_pos hl, h, State.conclude]

/-- Settles O20: the event is `State.fail`; it takes six draws, one for the engine, one for DST, four for DT. -/
theorem engineErrorEntry : Obligations.EngineErrorEntry := by
  intro s e hl h
  refine ⟨s.fail e, State.raises_of_runPhases hl h, rfl, rfl, rfl, rfl, rfl, rfl, rfl,
    ⟨s.draw + 1, rfl, ?_⟩, fun hphase => ?_, fun hphase => ?_⟩
  · rw [State.fail_draw]; omega
  · rw [State.fail_dt, hphase]; rfl
  · refine ⟨s.draw + 2, s.draw + 3, s.draw + 4, s.draw + 5, ?_, ?_, ?_⟩
    · rw [State.fail_dt, hphase]; rfl
    · simp
    · simp

end Sys2Proof.Machine
end

section
/-! PROOF. Host writes and reads of mapped words: what a step does by region, and what each region's write leaves in the
registers, in CT and in SRC (40_host_access.md R141 to R149). -/

namespace Sys2Proof.Machine

variable {s : State} {off : Nat} {r : Region}

/-! ## Legal parameters -/

theorem depthOk_iff (d : Nat) : depthOk d = true ↔ d % 4 = 0 ∧ 4 ≤ d ∧ d ≤ 2 ^ 20 := by
  simp [depthOk, and_assoc]

theorem Params.srcDepth_ok {p : Params} (h : p.ok = true) : p.srcDepth % 4 = 0 ∧ 4 ≤ p.srcDepth ∧ p.srcDepth ≤ 2 ^ 20 := by
  simp only [Params.ok, Bool.and_eq_true] at h
  exact (depthOk_iff _).1 h.1.1

/-! ## A step that accesses a mapped word -/

/-- A write's effect and the release of `rst` come to the same in either order. -/
theorem State.okay_released_writeRegion (s : State) (v : Word) (r : Region) :
    (s.released.writeRegion v r).okay = (s.writeRegion v r).answered .okay none := by
  cases r with
  | reg off => simp only [State.writeRegion]; split_ifs <;> rfl
  | ct x w => rfl
  | dt e w => rfl
  | src i => rfl
  | dst i => rfl

/-- A write to a region other than DT that no running command guards takes effect. -/
theorem State.hostWrite_of_region (v : Word) (ha : accessOf s.params off 4 = some r) (hdt : ∀ e w, r ≠ .dt e w)
    (hg : (r.busyGuarded && s.busy) = false) : s.hostWrite off 4 v = (s.writeRegion v r).okay := by
  unfold State.hostWrite
  split
  next hn => simp [ha] at hn
  next e w hd => exact absurd (Option.some.inj (ha.symm.trans hd)) (hdt e w)
  next r' hr =>
    obtain rfl := Option.some.inj (ha.symm.trans hr)
    rw [if_neg (by simp [hg])]

/-- `WR off, v` where the write takes effect: the region's write, answered OKAY (R142). -/
theorem step_wrEvent (v : Word) (hoff : off < Config.addressSpace) (hal : off % 4 = 0) (hc : off ≠ ctrlOffset)
    (hr : regionOf s.params off = some r) (hdt : ∀ e w, r ≠ .dt e w) (hg : (r.busyGuarded && s.busy) = false) :
    step (s.withEvent (s.wrEvent off v)) = .next ((s.writeRegion v r).answered .okay none) := by
  have ha : accessOf s.released.params off 4 = some r := (accessOf_word _ hal).trans hr
  rw [State.wrEvent, step_write s 4 v hoff fun h => hc h.1, State.hostWrite_of_region v ha hdt hg,
    State.okay_released_writeRegion]

/-- `RD off` where the read gives a stored word (R141). -/
theorem step_rdEvent {d : Word} (hoff : off < Config.addressSpace) (hal : off % 4 = 0)
    (hr : regionOf s.params off = some r) (hd : s.readRegion r = .word d) :
    step (s.withEvent (s.rdEvent off)) = .next (s.answered .okay (some d)) := by
  have ha : accessOf s.released.params off 4 = some r := (accessOf_word _ hal).trans hr
  have hread : s.released.readRegion r = .word d := hd
  rw [State.rdEvent, step_read s 4 hoff, State.hostRead, ha]
  simp only [hread]
  rfl

/-! ## The SRC window -/

/-- A word write gives byte `i + j` lane `j` and leaves every other byte alone (20_memory.md R75). -/
theorem Memory.read_writeLanes {size i : Nat} (m : Memory 8) (v : Word) (h : i + 4 ≤ size) (j : Nat) :
    (m.writeLanes size i v).read j = if i ≤ j ∧ j < i + 4 then lane v (j - i) else m.read j := by
  rw [Memory.writeLanes, Memory.read_writeList]
  by_cases hj : i ≤ j ∧ j < i + 4
  · obtain ⟨k, rfl⟩ := Nat.exists_eq_add_of_le hj.1
    have hk : k < 4 := by omega
    rw [dif_pos (by simp only [List.length_cons, List.length_nil]; omega), if_pos hj]
    simp only [Nat.add_sub_cancel_left]
    interval_cases k <;> rfl
  · rw [dif_neg (by simp only [List.length_cons, List.length_nil]; omega), if_neg hj]

theorem Memory.read_writeLanes_lane {size i : Nat} (m : Memory 8) (v : Word) (h : i + 4 ≤ size) {j : Nat} (hj : j < 4) :
    (m.writeLanes size i v).read (i + j) = lane v j := by
  rw [Memory.read_writeLanes m v h, if_pos (by omega), Nat.add_sub_cancel_left]

theorem Memory.read_writeLanes_other {size i : Nat} (m : Memory 8) (v : Word) (h : i + 4 ≤ size) {j : Nat}
    (hj : j < i ∨ i + 4 ≤ j) : (m.writeLanes size i v).read j = m.read j := by
  rw [Memory.read_writeLanes m v h, if_neg (by omega)]

/-- Settles O40: a depth is a multiple of 4, so the four bytes of a word lie inside SRC. -/
theorem srcWindowWords : Obligations.SrcWindowWords := by
  intro s i v hp hi hlt
  obtain ⟨hmod, -, hle⟩ := Params.srcDepth_ok hp
  have hword : i + 4 ≤ s.params.srcDepth := by omega
  have hoff : 0x100000 + i < 2 ^ 22 := by omega
  have hal : (0x100000 + i) % 4 = 0 := by omega
  have hctrl : 0x100000 + i ≠ 0x008 := by omega
  refine ⟨fun hb => ⟨s.src.writeLanes s.params.srcDepth i v, ?_, ?_⟩, ?_⟩
  · exact step_wrEvent v hoff hal hctrl (regionOf_src _ hlt) (fun _ _ => Region.noConfusion) (by simp [hb])
  · exact ⟨s.src.read_writeLanes_lane v hword (j := 0) (by omega), s.src.read_writeLanes_lane v hword (by omega),
      s.src.read_writeLanes_lane v hword (by omega), s.src.read_writeLanes_lane v hword (by omega),
      fun j hj => s.src.read_writeLanes_other v hword hj⟩
  · exact step_rdEvent hoff hal (regionOf_src _ hlt) rfl

/-! ## The code table -/

/-- Word 0 sets VALID and LEN. -/
theorem CodeTable.hostWrite_zero (ct : CodeTable) (x : Nat) (v : Word) :
    ct.hostWrite x 0 v =
      { ct with
        valid := ct.valid.writeWithin 256 x (v.extractLsb' 31 1)
        len := ct.len.writeWithin 256 x (v.extractLsb' 0 8) } := rfl

/-- The other words leave VALID and LEN alone. -/
theorem CodeTable.valid_len_hostWrite (ct : CodeTable) {x w : Nat} (v : Word) (h : w ≠ 0) :
    (ct.hostWrite x w v).valid = ct.valid ∧ (ct.hostWrite x w v).len = ct.len := by
  rw [CodeTable.hostWrite, if_neg h]
  split_ifs <;> exact ⟨rfl, rfl⟩

section CodeTable

variable (ct : CodeTable) {x : Nat} (w : Nat) (v : Word) (hx : x < 256)
include hx

theorem CodeTable.isValid_hostWrite (y : Nat) :
    (ct.hostWrite x w v).isValid y = if y = x ∧ w = 0 then v.getLsbD 31 else ct.isValid y := by
  by_cases h0 : w = 0
  · subst h0
    rw [CodeTable.hostWrite_zero, CodeTable.isValid, Memory.read_writeWithin]
    by_cases hy : y = x
    · simp [hy, hx]
    · simp [hy, CodeTable.isValid]
  · rw [CodeTable.isValid, (ct.valid_len_hostWrite v h0).1, if_neg (by simp [h0]), CodeTable.isValid]

theorem CodeTable.lenOf_hostWrite (y : Nat) :
    (ct.hostWrite x w v).lenOf y = if y = x ∧ w = 0 then (v.extractLsb' 0 8).toNat else ct.lenOf y := by
  by_cases h0 : w = 0
  · subst h0
    rw [CodeTable.hostWrite_zero, CodeTable.lenOf, Memory.read_writeWithin]
    by_cases hy : y = x
    · simp [hy, hx]
    · simp [hy, CodeTable.lenOf]
  · rw [CodeTable.lenOf, (ct.valid_len_hostWrite v h0).2, if_neg (by simp [h0]), CodeTable.lenOf]

theorem CodeTable.wordOf_hostWrite (y : Nat) {u : Nat} (hu : u < 8) :
    (ct.hostWrite x w v).wordOf y u = if y = x ∧ w = u + 1 then v else ct.wordOf y u := by
  unfold CodeTable.hostWrite CodeTable.wordOf
  by_cases h0 : w = 0
  · rw [if_pos h0, if_neg (by omega)]
  rw [if_neg h0]
  by_cases h8 : w ≤ 8
  · have hplace : 8 * y + u = 8 * x + (w - 1) ∧ 8 * x + (w - 1) < 8 * 256 ↔ y = x ∧ w = u + 1 := by omega
    rw [if_pos h8]
    simp only [Memory.read_writeWithin, hplace]
  · rw [if_neg h8, if_neg (by omega)]

end CodeTable

/-- Settles O42: the write reaches word `w` of entry `x`, and that write is `CodeTable.hostWrite`. -/
theorem ctWordWrites : Obligations.CtWordWrites := by
  intro s x w v hb hx hw
  have hoff : 0x010000 + 64 * x + 4 * w < 2 ^ 22 := by omega
  have hctrl : 0x010000 + 64 * x + 4 * w ≠ 0x008 := by omega
  refine ⟨s.ct.hostWrite x w v, ?_, s.ct.isValid_hostWrite w v hx, s.ct.lenOf_hostWrite w v hx,
    fun y _ hu => s.ct.wordOf_hostWrite w v hx y hu⟩
  exact step_wrEvent v hoff (by omega) hctrl (regionOf_ct _ hx hw) (fun _ _ => Region.noConfusion) (by simp [hb])

/-! ## Registers -/

/-- `WR off, v` to a register other than CTRL that no running command guards. -/
theorem step_wrEvent_reg (v : Word) (hoff : off < 0x100) (hal : off % 4 = 0) (hc : off ≠ ctrlOffset)
    (hg : ((Region.reg off).busyGuarded && s.busy) = false) :
    step (s.withEvent (s.wrEvent off v)) = .next ((s.writeRegion v (.reg off)).answered .okay none) :=
  step_wrEvent v (hoff.trans (by decide)) hal hc (regionOf_reg _ hoff) (fun _ _ => Region.noConfusion) hg

theorem w1c_eq_ite (old written : Bool) : w1c old written = if written = true then false else old := by
  decide +revert

/-- Settles O45: STATUS is not busy-guarded, and its three flags are W1C. -/
theorem statusWriteClearsW1C : Obligations.StatusWriteClearsW1C := by
  intro s v
  rw [step_wrEvent_reg v (by decide) (by decide) (by decide) rfl]
  simp only [← w1c_eq_ite]
  rfl

/-- `irq` is the OR of the enabled status bits (10_state.md R48). -/
theorem State.irq_eq_true_iff (s : State) :
    s.irq = true ↔
      (s.regs.done = true ∧ s.regs.irqEn.getLsbD 0 = true) ∨ (s.regs.err = true ∧ s.regs.irqEn.getLsbD 1 = true) ∨
        (s.regs.rej = true ∧ s.regs.irqEn.getLsbD 2 = true) := by
  simp only [State.irq, Bool.or_eq_true, Bool.and_eq_true, or_assoc]

/-- Settles O46: IRQ_EN is not busy-guarded; SRC_LEN is, and so needs an idle block. -/
theorem irqEnAndSrcLenWrites : Obligations.IrqEnAndSrcLenWrites := by
  refine fun s v => ⟨⟨_, step_wrEvent_reg v (by decide) (by decide) (by decide) rfl, rfl, ?_⟩, fun hb => ?_⟩
  · have hen {j : Nat} (hj : j < 3) : (v.extractLsb' 0 3).getLsbD j = v.getLsbD j := by simp [hj]
    rw [State.irq_eq_true_iff, ← hen (j := 0) (by decide), ← hen (j := 1) (by decide), ← hen (j := 2) (by decide)]
    rfl
  · exact step_wrEvent_reg v (by decide) (by decide) (by decide) (by simp [hb])

end Sys2Proof.Machine
end

section
/-! PROOF. The decoder's reader and matcher: what `GetUnary` makes of a run of one-bits and what `Match` finds
(41_bit_stream.md R188, R189, R192). -/

namespace Sys2Proof.Machine

/-! ## GetUnary -/

section GetUnary
variable {s : State}

theorem State.getBit_of_lt (h : s.engine.unpacker.q < s.engine.unpacker.qlim) :
    s.getBit = (some (s.bitAt s.engine.unpacker.q), s.advance 1) := if_neg h.not_ge

theorem State.getBit_of_le (h : s.engine.unpacker.qlim ≤ s.engine.unpacker.q) : s.getBit = (none, s) := if_pos h

/-! One turn of the loop, with `more` one-bits still allowed: the bits run out, or the next bit is a zero-bit, the one
one-bit too many, or one more to count. -/

theorem State.getUnaryFrom_of_le (more L : Nat) (h : s.engine.unpacker.qlim ≤ s.engine.unpacker.q) :
    State.getUnaryFrom more L s = (.exhausted, s) := by
  cases more <;> rw [State.getUnaryFrom, State.getBit_of_le h]

theorem State.getUnaryFrom_of_zeroBit (more L : Nat) (h : s.engine.unpacker.q < s.engine.unpacker.qlim)
    (hbit : s.bitAt s.engine.unpacker.q = false) : State.getUnaryFrom more L s = (.len L, s.advance 1) := by
  cases more <;> rw [State.getUnaryFrom, State.getBit_of_lt h, hbit]

theorem State.getUnaryFrom_zero_of_oneBit (L : Nat) (h : s.engine.unpacker.q < s.engine.unpacker.qlim)
    (hbit : s.bitAt s.engine.unpacker.q = true) : State.getUnaryFrom 0 L s = (.tooLong, s.advance 1) := by
  rw [State.getUnaryFrom, State.getBit_of_lt h, hbit]

theorem State.getUnaryFrom_succ_of_oneBit (more L : Nat) (h : s.engine.unpacker.q < s.engine.unpacker.qlim)
    (hbit : s.bitAt s.engine.unpacker.q = true) :
    State.getUnaryFrom (more + 1) L s = State.getUnaryFrom more (L + 1) (s.advance 1) := by
  rw [State.getUnaryFrom, State.getBit_of_lt h, hbit]

/-- One-bits within QLIM and within the allowed number are counted and passed. -/
theorem State.getUnaryFrom_of_oneBits (more : Nat) {n : Nat}
    (hones : ∀ j < n, s.bitAt (s.engine.unpacker.q + j) = true)
    (hlim : s.engine.unpacker.q + n ≤ s.engine.unpacker.qlim) (L : Nat) :
    State.getUnaryFrom (more + n) L s = State.getUnaryFrom more (L + n) (s.advance n) := by
  induction n generalizing more with
  | zero => rfl
  | succ n ih =>
    have hbefore : State.getUnaryFrom (more + 1 + n) L s = State.getUnaryFrom (more + 1) (L + n) (s.advance n) :=
      ih (more + 1) (fun j hj => hones j (by omega)) (by omega)
    have hlast : State.getUnaryFrom (more + 1) (L + n) (s.advance n) =
        State.getUnaryFrom more (L + n + 1) ((s.advance n).advance 1) :=
      State.getUnaryFrom_succ_of_oneBit more _ hlim (hones n (by omega))
    rw [Nat.add_right_comm] at hbefore
    rw [← Nat.add_assoc, hbefore, hlast, State.advance_advance, Nat.add_assoc L]

end GetUnary

/-- The answer of `GetUnary` after `L` one-bits, `L` at most 255, is what its loop makes of the bits that follow. -/
theorem State.getUnary_of_oneBits {s : State} {L : Nat} (hmax : L ≤ 255)
    (hones : ∀ j < L, s.bitAt (s.engine.unpacker.q + j) = true)
    (hlim : s.engine.unpacker.q + L ≤ s.engine.unpacker.qlim) :
    s.getUnary = State.getUnaryFrom (255 - L) L (s.advance L) := by
  have hcount := State.getUnaryFrom_of_oneBits (255 - L) hones hlim 0
  rw [Nat.sub_add_cancel hmax, Nat.zero_add] at hcount
  exact hcount

/-- Settles O27: `GetUnary` passes the one-bits, and the first turn of its loop after them (for a 256th, the turn on
the last of them) gives the answer. -/
theorem getUnaryCountsOnes : Obligations.GetUnaryCountsOnes := by
  intro s L q hones
  refine ⟨fun hmax hlim hzero => ?_, fun hmax hend => ?_, fun hL hlim => ?_⟩
  · rw [State.getUnary_of_oneBits hmax hones hlim.le]
    exact State.getUnaryFrom_of_zeroBit _ L hlim hzero
  · rw [State.getUnary_of_oneBits hmax hones hend.le]
    exact State.getUnaryFrom_of_le _ L hend.ge
  · subst hL
    rw [State.getUnary_of_oneBits (Nat.le_refl 255) (fun j hj => hones j (by omega)) (by omega)]
    exact State.getUnaryFrom_zero_of_oneBit 255 hlim (hones 255 (by decide))

/-! ## Match -/

theorem DecodeTable.isCode_iff (dt : DecodeTable) (buf : Bits) (e : Nat) :
    dt.isCode buf e = true ↔ (dt.len.read e).toNat = buf.length ∧ (dt.code.read e).toNat = bitsVal buf := by
  rw [DecodeTable.isCode, Bool.and_eq_true, beq_iff_eq, beq_iff_eq]

theorem DecodeTable.matchCode_eq_some_iff (dt : DecodeTable) (n : Nat) (buf : Bits) (e : Nat) :
    dt.matchCode n buf = some e ↔ e < n ∧ dt.isCode buf e = true ∧ ∀ j < e, ¬ dt.isCode buf j = true := by
  simp only [DecodeTable.matchCode, List.find?_range_eq_some, List.mem_range, Bool.not_eq_true', Bool.not_eq_true]
  exact and_left_comm

theorem DecodeTable.matchCode_eq_none_iff (dt : DecodeTable) (n : Nat) (buf : Bits) :
    dt.matchCode n buf = none ↔ ∀ e < n, ¬ dt.isCode buf e = true := by
  simp only [DecodeTable.matchCode, List.find?_eq_none, List.mem_range]

/-- Settles O28: the search is from index 0 up; LEN 0 is not the length of a bit sequence that is not empty. -/
theorem matchGivesLowestIndex : Obligations.MatchGivesLowestIndex := by
  intro dt n buf hbuf
  simp only [← DecodeTable.isCode_iff]
  refine ⟨dt.matchCode_eq_some_iff n buf, dt.matchCode_eq_none_iff n buf, fun e hlen hmatch => hbuf ?_⟩
  obtain ⟨_, hcode, _⟩ := (dt.matchCode_eq_some_iff n buf e).1 hmatch
  obtain ⟨hlength, _⟩ := (dt.isCode_iff buf e).1 hcode
  rw [hlen] at hlength
  exact List.length_eq_zero_iff.1 hlength.symm

end Sys2Proof.Machine
end

section
/-! PROOF. The checks of ENC_SCAN: which one raises, and at which index (42_encode.md R211 to R213). -/

namespace Sys2Proof.Machine

variable {s : State}

/-! ## The message -/

/-- Byte `i` of the message is SRC[i], between the bytes before it and those after it. -/
theorem State.message_eq_append {i : Nat} (h : i < s.regs.srcLen.toNat) :
    s.message = s.message.take i ++ s.src.read i :: s.message.drop (i + 1) := by
  have hlen : i < s.message.length := by rwa [State.message, Memory.readList_length]
  have hget : s.message[i] = s.src.read i := by simp only [State.message, Memory.readList_getElem, Nat.zero_add]
  rw [← hget, ← List.drop_eq_getElem_cons hlen, List.take_append_drop]

theorem State.mem_message_take {i : Nat} {b : Byte} (h : b ∈ s.message.take i) :
    ∃ j < i, j < s.regs.srcLen.toNat ∧ s.src.read j = b := by
  obtain ⟨j, hj, rfl⟩ := List.mem_take_iff_getElem.1 h
  simp only [State.message, Memory.readList_length] at hj
  exact ⟨j, by omega, by omega, by simp only [State.message, Memory.readList_getElem, Nat.zero_add]⟩

theorem State.mem_message {b : Byte} (h : b ∈ s.message) : ∃ j < s.regs.srcLen.toNat, s.src.read j = b := by
  rw [← List.take_length (l := s.message)] at h
  obtain ⟨j, -, hj, hb⟩ := State.mem_message_take h
  exact ⟨j, hj, hb⟩

/-- A message that lacks a byte value passes the alphabet check (42_encode.md R212). -/
theorem length_symbolsOf_presentSet_le {m : List Byte} {b : Byte} (h : b ∉ m) :
    (symbolsOf (presentSet m)).length ≤ Config.maxSymbols := by
  have hlt : ((List.range 256).filter fun x => BitVec.ofNat 8 x ∈ m).length < (List.range 256).length :=
    List.length_filter_lt_length_iff_exists.2 ⟨b.toNat, List.mem_range.2 b.isLt, by simpa using h⟩
  rw [← symbolsOf_presentSet, List.length_range] at hlt
  exact Nat.le_of_lt_succ hlt

/-! ## The lookup check -/

section LookupError

variable {ct : CodeTable} {b : Byte} (i : Nat) (m : List Byte)

theorem lookupError_cons_unmapped (hv : ct.isValid b.toNat = false) :
    lookupError ct i (b :: m) = some ⟨.unmappedSymbol, 0, i⟩ := by
  simp only [lookupError, CodeTable.lookup, hv]

theorem lookupError_cons_empty (hv : ct.isValid b.toNat = true) (hl : ct.lenOf b.toNat = 0) :
    lookupError ct i (b :: m) = some ⟨.badCodeTable, 0, i⟩ := by
  simp only [lookupError, CodeTable.lookup, hv, hl]

theorem lookupError_cons_mapped (hv : ct.isValid b.toNat = true) (hl : ct.lenOf b.toNat ≠ 0) :
    lookupError ct i (b :: m) = lookupError ct (i + 1) m := by
  obtain ⟨n, hn⟩ := Nat.exists_eq_succ_of_ne_zero hl
  simp only [lookupError, CodeTable.lookup, hv, hn]

/-- Mapped bytes are passed over. -/
theorem lookupError_append {l : List Byte}
    (h : ∀ b ∈ l, ct.isValid b.toNat = true ∧ ct.lenOf b.toNat ≠ 0) :
    lookupError ct i (l ++ m) = lookupError ct (i + l.length) m := by
  induction l generalizing i with
  | nil => rfl
  | cons b rest ih =>
    obtain ⟨⟨hv, hl⟩, hrest⟩ := List.forall_mem_cons.1 h
    rw [List.cons_append, lookupError_cons_mapped i _ hv hl, ih (i + 1) hrest, List.length_cons]
    congr 1
    omega

/-- The lookup check passes only where every byte has a code word that is not empty. -/
theorem mapped_of_lookupError_eq_none (h : lookupError ct i m = none) :
    ∀ b ∈ m, ct.isValid b.toNat = true ∧ ct.lenOf b.toNat ≠ 0 := by
  induction m generalizing i with
  | nil => exact List.forall_mem_nil _
  | cons b rest ih =>
    cases hv : ct.isValid b.toNat with
    | false => rw [lookupError_cons_unmapped i rest hv] at h; cases h
    | true =>
      by_cases hl : ct.lenOf b.toNat = 0
      · rw [lookupError_cons_empty i rest hv hl] at h; cases h
      · rw [lookupError_cons_mapped i rest hv hl] at h
        exact List.forall_mem_cons.2 ⟨⟨hv, hl⟩, ih (i + 1) h⟩

end LookupError

/-! ## What ENC_SCAN raises -/

/-- In the last engine step of a command an error of ENC_SCAN is raised (R161). -/
theorem State.raises_of_encScan {e : EngineError} (hp : s.engine.phase = .encScan) (hl : s.engine.left ≤ 1)
    (h : s.encScan = .raise e) : s.Raises e := by
  refine State.raises_of_runPhases hl ?_
  simp only [State.runPhases, State.phaseStep, hp, h]

/-- Past the checks of R211 and R212 the lookup check decides. -/
theorem State.encScan_of_lookupError {e : EngineError} {b : Byte} (hsrc : s.regs.srcLen.toNat ≤ s.params.srcDepth)
    (hne : s.regs.srcLen.toNat ≠ 0) (hb : b ∉ s.message) (he : lookupError s.ct 0 s.message = some e) :
    s.encScan = .raise e := by
  have hsym : ¬ Config.maxSymbols < s.scanned.nSym := Nat.not_lt.2 (length_symbolsOf_presentSet_le hb)
  simp only [State.encScan, if_neg (Nat.not_lt.2 hsrc), if_neg hne, if_neg hsym, he]

/-- Settles O21: they are ENC_SCAN's first two checks. -/
theorem encodeFirstChecks : Obligations.EncodeFirstChecks := by
  intro s hp hl
  refine ⟨fun hover => ?_, fun hfit hzero => ?_⟩
  · exact State.raises_of_encScan hp hl (if_pos hover)
  · have hlen : s.regs.srcLen.toNat = 0 := by rw [hzero]; rfl
    exact State.raises_of_encScan hp hl (by rw [State.encScan, if_neg hfit, if_pos hlen])

/-- Settles O23: the lookup check passes over the bytes before index `i`, and the byte there decides the error. -/
theorem encodeFirstBadSymbol : Obligations.EncodeFirstBadSymbol := by
  rintro s i hp hl hsrc ⟨b, hb⟩ hi hbefore
  have habsent : b ∉ s.message := fun hmem => by
    obtain ⟨j, hj, hread⟩ := State.mem_message hmem
    exact hb j hj hread
  have hmapped : ∀ x ∈ s.message.take i, s.ct.isValid x.toNat = true ∧ s.ct.lenOf x.toNat ≠ 0 := fun x hx => by
    obtain ⟨j, hj, -, rfl⟩ := State.mem_message_take hx
    exact hbefore j hj
  have htake : (s.message.take i).length = i := by
    rw [List.length_take, State.message, Memory.readList_length, Nat.min_eq_left hi.le]
  have hlookup : lookupError s.ct 0 s.message = lookupError s.ct i (s.src.read i :: s.message.drop (i + 1)) := by
    conv_lhs => rw [State.message_eq_append hi]
    rw [lookupError_append 0 _ hmapped, htake, Nat.zero_add]
  have hraise {e : EngineError} (he : lookupError s.ct i (s.src.read i :: s.message.drop (i + 1)) = some e) :
      s.Raises e :=
    State.raises_of_encScan hp hl (State.encScan_of_lookupError hsrc (by omega) habsent (hlookup.trans he))
  exact ⟨fun hv => hraise (lookupError_cons_unmapped i _ hv),
    fun hv hempty => hraise (lookupError_cons_empty i _ hv hempty)⟩

end Sys2Proof.Machine
end

section
/-! PROOF. The packer and ENC_EMIT over bit sequences: whole bytes put from a byte boundary are the bytes of
`bytesOfBits`, and ENC_EMIT puts the stream of `Encode` (41_bit_stream.md R181 to R186, 42_encode.md R220 to R224). -/

namespace Sys2Proof.Machine

variable {s : State}

/-! ## ACC -/

theorem accWith_eq_shiftConcat (acc : Byte) (b : Bool) : accWith acc b = acc.shiftConcat b := by
  ext j hj
  rw [BitVec.getElem_shiftConcat hj, accWith]
  cases j with
  | zero => simp
  | succ j => simp

theorem toNat_accWith (acc : Byte) (b : Bool) : (accWith acc b).toNat = (2 * acc.toNat + b.toNat) % 256 := by
  rw [accWith_eq_shiftConcat, BitVec.toNat_shiftConcat, Nat.shiftLeft_eq, mul_comm]

/-- Eight bits shifted into ACC leave their byte, whatever ACC held. -/
theorem foldl_accWith_eight (acc : Byte) (b7 b6 b5 b4 b3 b2 b1 b0 : Bool) :
    [b7, b6, b5, b4, b3, b2, b1, b0].foldl accWith acc =
      BitVec.ofNat 8 (bitsVal [b7, b6, b5, b4, b3, b2, b1, b0]) := by
  apply BitVec.eq_of_toNat_eq
  simp only [bitsVal, List.foldl_cons, List.foldl_nil, toNat_accWith, BitVec.toNat_ofNat]
  omega

/-! ## Whole bytes -/

section PutBits

variable {i n : Nat} {acc : Byte}

theorem State.withDst_withPacker_overwrite (s : State) (p q : Packer) (m : Memory 8) :
    ((s.withPacker p).withDst m).withPacker q = (s.withDst m).withPacker q := rfl

theorem State.putBit_of_ne (hs : s.engine.packer = ⟨i, acc, n⟩) (hn : n + 1 ≠ 8) (b : Bool) :
    s.putBit b = s.withPacker ⟨i, accWith acc b, n + 1⟩ := by
  simp only [State.putBit, hs, if_neg hn]

theorem State.putBit_seven (hs : s.engine.packer = ⟨i, acc, 7⟩) (b : Bool) :
    s.putBit b = (s.withDst (s.dst.writeWithin s.params.dstDepth i (accWith acc b))).withPacker ⟨i + 1, 0, 0⟩ := by
  simp only [State.putBit, hs, if_true, Nat.reduceAdd]

@[simp] theorem State.putBits_nil (s : State) : s.putBits [] = s := rfl

theorem State.putBits_cons (s : State) (b : Bool) (bits : Bits) :
    s.putBits (b :: bits) = (s.putBit b).putBits bits := rfl

/-- Bits that complete no byte only go into ACC. -/
theorem State.putBits_of_lt (bits : Bits) (hs : s.engine.packer = ⟨i, acc, n⟩) (hlt : n + bits.length < 8) :
    s.putBits bits = s.withPacker ⟨i, bits.foldl accWith acc, n + bits.length⟩ := by
  induction bits generalizing s n acc with
  | nil => rw [State.putBits_nil, List.foldl_nil, List.length_nil, Nat.add_zero, ← hs]; rfl
  | cons b rest ih =>
    rw [List.length_cons] at hlt
    rw [State.putBits_cons, State.putBit_of_ne hs (by omega),
      ih (State.withPacker_packer s _) (by omega), List.foldl_cons, List.length_cons, Nat.add_assoc n, Nat.add_comm 1]
    rfl

/-- From a byte boundary eight bits put one byte. -/
theorem State.putBits_eight (hs : s.engine.packer = ⟨i, acc, 0⟩) (b7 b6 b5 b4 b3 b2 b1 b0 : Bool) :
    s.putBits [b7, b6, b5, b4, b3, b2, b1, b0] =
      (s.withDst (s.dst.writeWithin s.params.dstDepth i
        (BitVec.ofNat 8 (bitsVal [b7, b6, b5, b4, b3, b2, b1, b0])))).withPacker ⟨i + 1, 0, 0⟩ := by
  have hseven : s.putBits [b7, b6, b5, b4, b3, b2, b1] =
      s.withPacker ⟨i, [b7, b6, b5, b4, b3, b2, b1].foldl accWith acc, 7⟩ :=
    State.putBits_of_lt _ hs (Nat.lt_succ_self 7)
  calc s.putBits ([b7, b6, b5, b4, b3, b2, b1] ++ [b0])
      = (s.putBits [b7, b6, b5, b4, b3, b2, b1]).putBit b0 := by
        rw [State.putBits_append, State.putBits_cons, State.putBits_nil]
    _ = _ := by
      rw [hseven, State.putBit_seven (State.withPacker_packer s _), State.withDst_withPacker_overwrite,
        ← foldl_accWith_eight acc]
      rfl

/-- From a byte boundary whole bytes of bits put these bytes, one after the other. -/
theorem State.putBits_wholeBytes : ∀ (bits : Bits) {s : State} {i : Nat} {acc : Byte},
    s.engine.packer = ⟨i, acc, 0⟩ → bits.length % 8 = 0 →
      ∃ acc', s.putBits bits =
        (s.withDst (s.dst.writeList s.params.dstDepth i (bytesOfBits bits))).withPacker
          ⟨i + bits.length / 8, acc', 0⟩
  | [], s, i, acc, hs, _ => ⟨acc, by rw [List.length_nil, Nat.zero_div, Nat.add_zero, ← hs]; rfl⟩
  | b7 :: b6 :: b5 :: b4 :: b3 :: b2 :: b1 :: b0 :: rest, s, i, acc, hs, hlen => by
    have hbyte := State.putBits_eight hs b7 b6 b5 b4 b3 b2 b1 b0
    simp only [List.length_cons] at hlen
    obtain ⟨acc', hrest⟩ := State.putBits_wholeBytes rest (s := s.putBits [b7, b6, b5, b4, b3, b2, b1, b0])
      (i := i + 1) (acc := 0) (by rw [hbyte, State.withPacker_packer]) (by omega)
    have hend : i + (b7 :: b6 :: b5 :: b4 :: b3 :: b2 :: b1 :: b0 :: rest).length / 8 = i + 1 + rest.length / 8 := by
      simp only [List.length_cons]
      omega
    refine ⟨acc', ?_⟩
    rw [hend, bytesOfBits, Memory.writeList]
    calc s.putBits ([b7, b6, b5, b4, b3, b2, b1, b0] ++ rest)
        = (s.putBits [b7, b6, b5, b4, b3, b2, b1, b0]).putBits rest := State.putBits_append _ _ _
      _ = _ := by rw [hrest, hbyte, State.withDst_withPacker_overwrite]; rfl
  | [_], _, _, _, _, h | [_, _], _, _, _, _, h | [_, _, _], _, _, _, _, h | [_, _, _, _], _, _, _, _, h
  | [_, _, _, _, _], _, _, _, _, h | [_, _, _, _, _, _], _, _, _, _, h | [_, _, _, _, _, _, _], _, _, _, _, h => by
    simp at h

end PutBits

/-! ## What ENC_EMIT puts -/

theorem State.emitHeader_eq_putBits (s : State) :
    s.emitHeader = s.packInit.putBits (bits8 s.engine.work.h ++ bits8 (BitVec.ofNat 8 s.engine.work.nSym)
      ++ bits8 (markerByte s.engine.work.k)) := by
  simp only [State.emitHeader, State.putByte, State.putBits_append]

theorem State.emitEntry_eq_putBits (s : State) (x : Nat) : s.emitEntry x = s.putBits (entryBits s.ct x) := by
  have hct : (s.putUnary (s.ct.lenOf x)).ct = s.ct := (State.Packed.putBits s _).same.ct
  rw [State.emitEntry, State.putCode, hct, State.putUnary, State.putByte, ← State.putBits_append,
    ← State.putBits_append, unaryBits, entryBits, List.append_assoc _ (s.ct.codeBits x)]

/-- A fold of operations each of which puts bits that depend on CT alone puts all these bits, in order. -/
theorem State.foldl_eq_putBits {α : Type} (f : State → α → State) (bits : CodeTable → α → Bits)
    (h : ∀ (t : State) (a : α), f t a = t.putBits (bits t.ct a)) (l : List α) (s : State) :
    l.foldl f s = s.putBits (l.flatMap (bits s.ct)) := by
  induction l generalizing s with
  | nil => rfl
  | cons a rest ih =>
    have hct : (s.putBits (bits s.ct a)).ct = s.ct := (State.Packed.putBits s _).same.ct
    rw [List.foldl_cons, ih, h, hct, List.flatMap_cons, State.putBits_append]

theorem State.emitTable_eq_putBits (s : State) :
    s.emitTable =
      s.putBits ((tableOrder s.ct (symbolsOf s.engine.work.present)).flatMap (entryBits s.ct)) := by
  rw [State.emitTable, State.foldl_eq_putBits _ entryBits State.emitEntry_eq_putBits]

theorem State.emitPayload_eq_putBits (s : State) (m : List Byte) :
    s.emitPayload m = s.putBits (payloadBits s.ct m) := by
  rw [State.emitPayload, payloadBits, State.foldl_eq_putBits _ (fun ct b => ct.codeBits b.toNat)]
  exact fun t b => rfl

/-! ## The working values as lengths of the stream's parts -/

theorem State.scanned_pbits (s : State) : s.scanned.pbits = (payloadBits s.ct s.message).length :=
  (payloadBits_length _ _).symm

section Mapped

variable (hmapped : ∀ b ∈ s.message, s.ct.lenOf b.toNat ≠ 0)
include hmapped

theorem State.scanned_tbits : s.scanned.tbits = (tableBits s.ct s.message).length := (tableBits_length hmapped).symm

theorem State.scanned_k : s.scanned.k = padCount (tableBits s.ct s.message ++ payloadBits s.ct s.message).length := by
  rw [List.length_append, ← State.scanned_tbits hmapped, ← State.scanned_pbits]
  rfl

theorem State.scanned_nout : s.scanned.nout = (streamOf s.ct s.message).length / 8 := by
  rw [streamOf_length, Work.nout, State.scanned_k hmapped, List.length_append, State.scanned_tbits hmapped,
    State.scanned_pbits]
  omega

/-- With the scanned working values ENC_EMIT puts the stream of `Encode`. -/
theorem State.emitted_eq_putBits (hw : s.engine.work = s.scanned) :
    (s.emitHeader.emitTable.emitPayload s.message).emitPadding = s.packInit.putBits (streamOf s.ct s.message) := by
  have hheader := State.Packed.emitHeader s
  have htable := hheader.trans (.emitTable _)
  have hpayload := htable.trans (.emitPayload _ s.message)
  rw [State.emitPadding, hpayload.work, State.emitPayload_eq_putBits, htable.same.ct, State.emitTable_eq_putBits,
    hheader.work, hheader.same.ct, State.emitHeader_eq_putBits, hw, State.scanned_k hmapped]
  simp only [← State.putBits_append, streamOf, tableBits, List.append_assoc]
  rfl

end Mapped

end Sys2Proof.Machine
end

section
/-! PROOF. Runs of engine steps, and ENCODE's run to the outcome of `Encode` (40_host_access.md R160 to R162,
42_encode.md R226). -/

namespace Sys2Proof.Machine

variable {s : State}

/-! ## Runs -/

theorem Runs.cons {k : Nat} {s t u : State} (h : step s = .next t) (hr : Runs k t u) : Runs (k + 1) s u := by
  have hstep : Sys2Proof.core.step s = .next t := h
  simp only [Runs, Host.Core.run, hstep]
  exact hr

/-- Engine steps on a block without waiting events, as one induction: `P` says which states the command runs through
and `F` what its last engine step makes of each. If every earlier step counts `left` down, takes no event and keeps `P`
and `F`, then `F` is what the command comes to. -/
theorem Runs.of_engineSteps {P : State → Prop} {F : State → State} (hbusy : ∀ u, P u → u.busy = true)
    (hlast : ∀ u, P u → u.engine.left ≤ 1 → u.engineStep = .next (F u))
    (hearly : ∀ u, P u → 1 < u.engine.left →
      ∃ v, u.engineStep = .next v ∧ v.port = u.port ∧ v.engine.left = u.engine.left - 1 ∧ P v ∧ F v = F u)
    {k : Nat} {u : State} (hk : 1 ≤ k) (hleft : u.engine.left = k) (hinputs : u.port.inputs = []) (hu : P u) :
    Runs k u (F u) := by
  induction k, hk using Nat.le_induction generalizing u with
  | base => exact Runs.cons ((step_engine hinputs (hbusy u hu)).trans (hlast u hu hleft.le)) rfl
  | succ n hn ih =>
    obtain ⟨v, hv, hport, hleft', hP, hF⟩ := hearly u hu (by omega)
    rw [← hF]
    exact Runs.cons ((step_engine hinputs (hbusy u hu)).trans hv) (ih (by omega) (by rw [hport, hinputs]) hP)

/-! ## ENC_SCAN and `Encode` -/

/-- What `Encode`'s `Ok` says of the inputs and of the engine's working values (42_encode.md R211 to R219, R226). -/
structure State.Encodes (s : State) (r : EncodeOk) : Prop where
  outcome : s.encodeOutcome = .ok r
  src : s.regs.srcLen.toNat ≤ s.params.srcDepth
  mapped : ∀ b ∈ s.message, s.ct.lenOf b.toNat ≠ 0
  dst : (streamOf s.ct s.message).length / 8 ≤ s.params.dstDepth
  bytes : r.bytes = bytesOfBits (streamOf s.ct s.message)
  results : r.results = s.scanned.encodeResults

/-- ENC_SCAN raises the error of `Encode`, or goes on where `Encode` is `Ok`. -/
theorem State.encScan_outcome (s : State) :
    (∃ e, s.encodeOutcome = .error e ∧ s.encScan = .raise e) ∨
    ∃ r, s.Encodes r ∧ s.encScan = .goOn ((s.withWork s.scanned).withPhase .encEmit) := by
  have houtcome : s.encodeOutcome = encodeFn s.params s.ct s.message s.regs.srcLen.toNat := rfl
  unfold encodeFn at houtcome
  unfold State.encScan
  by_cases hsrc : s.params.srcDepth < s.regs.srcLen.toNat
  · exact .inl ⟨_, houtcome.trans (if_pos hsrc), if_pos hsrc⟩
  by_cases hzero : s.regs.srcLen.toNat = 0
  · simp only [if_neg hsrc, if_pos hzero] at houtcome ⊢
    exact .inl ⟨_, houtcome, rfl⟩
  have hsym : (symbolsOf (presentSet s.message)).length = s.scanned.nSym := rfl
  by_cases halpha : Config.maxSymbols < s.scanned.nSym
  · simp only [if_neg hsrc, if_neg hzero, hsym, if_pos halpha] at houtcome ⊢
    exact .inl ⟨_, houtcome, rfl⟩
  cases hlookup : lookupError s.ct 0 s.message with
  | some e =>
    simp only [if_neg hsrc, if_neg hzero, hsym, if_neg halpha, hlookup] at houtcome ⊢
    exact .inl ⟨e, houtcome, rfl⟩
  | none =>
    have hmapped : ∀ b ∈ s.message, s.ct.lenOf b.toNat ≠ 0 := fun b hb =>
      (mapped_of_lookupError_eq_none 0 _ hlookup b hb).2
    have hnout := State.scanned_nout hmapped
    simp only [if_neg hsrc, if_neg hzero, hsym, if_neg halpha, hlookup, ← hnout] at houtcome ⊢
    by_cases hdst : s.params.dstDepth < s.scanned.nout
    · simp only [if_pos hdst] at houtcome ⊢
      exact .inl ⟨_, houtcome, rfl⟩
    · simp only [if_neg hdst] at houtcome ⊢
      refine .inr ⟨_, ⟨houtcome, Nat.not_lt.1 hsrc, hmapped, hnout ▸ Nat.not_lt.1 hdst, rfl, ?_⟩, trivial⟩
      simp only [EncodeOk.results, Work.encodeResults, bytesOfBits_length, ← hnout, ← State.scanned_tbits hmapped,
        ← State.scanned_pbits, ← State.scanned_k hmapped]
      rfl

theorem State.Encodes.withEngine {r : EncodeOk} (h : s.Encodes r) (e : Engine) : (s.withEngine e).Encodes r :=
  ⟨h.outcome, h.src, h.mapped, h.dst, h.bytes, h.results⟩

/-- ENC_EMIT with the scanned working values finishes with the stream of `Encode` in DST and its results. -/
theorem State.encEmit_of_encodes {r : EncodeOk} (hr : s.Encodes r) (hw : s.engine.work = s.scanned) :
    ∃ e, s.encEmit =
      .finish r.results ((s.withDst (s.dst.writeList s.params.dstDepth 0 r.bytes)).withEngine e) := by
  obtain ⟨-, hsrc, hmapped, hdst, hbytes, hresults⟩ := hr
  have hwhole : (streamOf s.ct s.message).length % 8 = 0 := by
    rw [streamOf_length, Nat.add_mod, add_padCount_mod]
  obtain ⟨acc, hput⟩ := State.putBits_wholeBytes _ (State.withPacker_packer s ⟨0, 0, 0⟩) hwhole
  rw [← State.packInit] at hput
  have hfits : ¬ s.params.dstDepth < (s.packInit.putBits (streamOf s.ct s.message)).engine.packer.optr := by
    rw [hput, State.withPacker_packer, Nat.zero_add]
    exact Nat.not_lt.2 hdst
  simp only [State.encEmit, if_neg (Nat.not_lt.2 hsrc), State.emitted_eq_putBits hmapped hw, if_neg hfits]
  rw [hput, hresults, hbytes, hw]
  exact ⟨_, rfl⟩

/-! ## A running ENCODE -/

/-- The states ENCODE runs through: at ENC_SCAN, or at ENC_EMIT with the checks passed and the working values scanned
(42_encode.md R210). -/
inductive State.Encoding (s : State) : Prop where
  | scan (hphase : s.engine.phase = .encScan)
  | emit (hphase : s.engine.phase = .encEmit) (hwork : s.engine.work = s.scanned) (r : EncodeOk) (hr : s.Encodes r)

theorem State.Encoding.busy (h : s.Encoding) : s.busy = true := by
  cases h with
  | scan hphase => rw [State.busy, hphase]
  | emit hphase => rw [State.busy, hphase]

theorem State.Encoding.not_decoding (h : s.Encoding) : s.engine.phase.decoding = false := by
  cases h with
  | scan hphase => rw [hphase]; rfl
  | emit hphase => rw [hphase]; rfl

/-- What a command's completion makes of a state depends on its engine only by whether DECODE runs. -/
theorem State.commitEncode_withEngine {e : Engine} (h : e.phase.decoding = s.engine.phase.decoding)
    (o : Except EngineError EncodeOk) : (s.withEngine e).commitEncode o = s.commitEncode o := by
  cases o with
  | ok r => rfl
  | error err => simp only [State.commitEncode, State.fail, State.withEngine_engine, h]; rfl

/-- The phases that are left of a running ENCODE, run to its end, give the completion of `Encode`'s outcome. -/
theorem State.Encoding.last (h : s.Encoding) (hl : s.engine.left ≤ 1) :
    s.engineStep = .next (s.commitEncode s.encodeOutcome) := by
  rw [State.engineStep, if_pos hl]
  cases h with
  | scan hphase =>
    rcases s.encScan_outcome with ⟨e, ho, hscan⟩ | ⟨r, hr, hscan⟩
    · simp only [State.runPhases, State.phaseStep, hphase, hscan, ho]
      rfl
    · obtain ⟨e, hemit⟩ :=
        State.encEmit_of_encodes (s := (s.withWork s.scanned).withPhase .encEmit) (hr.withEngine _) rfl
      simp only [State.runPhases, State.phaseStep, hphase, hscan, State.withPhase_phase, hemit, hr.outcome]
      rfl
  | emit hphase hwork r hr =>
    obtain ⟨e, hemit⟩ := State.encEmit_of_encodes hr hwork
    simp only [State.runPhases, State.phaseStep, hphase, hemit, hr.outcome]
    rfl

/-- An engine step before the last changes the engine alone: ENC_SCAN hands over to ENC_EMIT, or the step is only
counted. -/
theorem State.Encoding.early (h : s.Encoding) (hl : 1 < s.engine.left) :
    ∃ e, s.engineStep = .next (s.withEngine e) ∧ e.left = s.engine.left - 1 ∧ (s.withEngine e).Encoding := by
  rw [State.engineStep, if_neg (Nat.not_le.2 hl)]
  cases h with
  | scan hphase =>
    rcases s.encScan_outcome with ⟨e, -, hscan⟩ | ⟨r, hr, hscan⟩
    · simp only [State.phaseStep, hphase, hscan]
      exact ⟨s.countStep.engine, rfl, rfl, .scan hphase⟩
    · simp only [State.phaseStep, hphase, hscan]
      exact ⟨_, rfl, rfl, .emit rfl rfl r (hr.withEngine _)⟩
  | emit hphase hwork r hr =>
    obtain ⟨e, hemit⟩ := State.encEmit_of_encodes hr hwork
    simp only [State.phaseStep, hphase, hemit]
    exact ⟨s.countStep.engine, rfl, rfl, .emit hphase hwork r (hr.withEngine _)⟩

theorem Params.one_le_engineSteps {p : Params} (h : p.ok = true) : 1 ≤ p.engineSteps := by
  simp only [Params.ok, Bool.and_eq_true, decide_eq_true_eq] at h
  exact h.2

/-- Settles O15: ENC_SCAN decides as `Encode` does, ENC_EMIT puts its stream, and no step but the last changes more than
the engine. -/
theorem encodeRunsToEncodeOutcome : Obligations.EncodeRunsToEncodeOutcome := by
  intro s hok hidle hinputs
  refine ⟨s.startCommand 1#3 .encScan, by rw [exec_encode, State.issue_idle hidle], ?_⟩
  refine Runs.of_engineSteps (P := State.Encoding) (F := fun u => u.commitEncode u.encodeOutcome)
    (fun _ h => h.busy) (fun _ h => h.last) (fun u h hl => ?_) (Params.one_le_engineSteps hok) rfl hinputs (.scan rfl)
  obtain ⟨e, hstep, hleft, henc⟩ := h.early hl
  have hkeep := State.commitEncode_withEngine (henc.not_decoding.trans h.not_decoding.symm) u.encodeOutcome
  exact ⟨u.withEngine e, hstep, rfl, hleft, henc, hkeep⟩

end Sys2Proof.Machine
end

section
/-! PROOF. The decoder's reader over bit sequences: what `GetBit`, `GetUnary` and `GetBits` do to the bits ahead of Q,
and one table entry (41_bit_stream.md R188 to R190, 43_decode.md R259 to R262, R271). -/

namespace Sys2Proof.Machine

/-! ## The bits ahead -/

theorem take_streamBits (byte : Nat → Byte) (q : Nat) {k n : Nat} (h : k ≤ n) :
    (streamBits byte q n).take k = streamBits byte q k := by
  induction k generalizing q n with
  | zero => rfl
  | succ k ih =>
    obtain ⟨n, rfl⟩ := Nat.exists_eq_add_of_le' h
    rw [← Nat.add_assoc, streamBits, List.take_succ_cons, ih (q + 1) (Nat.le_add_left k n), streamBits]

theorem drop_streamBits (byte : Nat → Byte) (q k n : Nat) :
    (streamBits byte q n).drop k = streamBits byte (q + k) (n - k) := by
  induction k generalizing q n with
  | zero => rfl
  | succ k ih =>
    cases n with
    | zero => rw [Nat.zero_sub]; rfl
    | succ n => rw [streamBits, List.drop_succ_cons, ih, Nat.add_sub_add_right, Nat.add_assoc, Nat.add_comm 1]

/-- The bits the unpacker has still to give: those from Q up to QLIM (41_bit_stream.md R187). -/
def State.unread (s : State) : Bits :=
  streamBits s.src.read s.engine.unpacker.q (s.engine.unpacker.qlim - s.engine.unpacker.q)

variable {s : State}

@[simp] theorem State.unread_length (s : State) :
    s.unread.length = s.engine.unpacker.qlim - s.engine.unpacker.q := streamBits_length _ _ _

theorem State.unread_advance (s : State) (n : Nat) : (s.advance n).unread = s.unread.drop n := by
  rw [State.unread, State.unread, drop_streamBits, State.advance_q, State.advance_qlim, Nat.sub_sub]
  rfl

/-- Passing unread bits keeps Q within QLIM. -/
theorem State.advance_q_le {n : Nat} (hq : s.engine.unpacker.q ≤ s.engine.unpacker.qlim) (hn : n ≤ s.unread.length) :
    (s.advance n).engine.unpacker.q ≤ (s.advance n).engine.unpacker.qlim := by
  rw [State.unread_length] at hn
  rw [State.advance_q, State.advance_qlim]
  omega

theorem State.qlim_le_of_unread (h : s.unread = []) : s.engine.unpacker.qlim ≤ s.engine.unpacker.q := by
  have hlen := s.unread_length
  rw [h] at hlen
  exact Nat.sub_eq_zero_iff_le.1 hlen.symm

/-- What the first unread bit says of Q, and what is unread after it. -/
theorem State.unread_cons {b : Bool} {rest : Bits} (h : s.unread = b :: rest) :
    s.engine.unpacker.q < s.engine.unpacker.qlim ∧ s.bitAt s.engine.unpacker.q = b ∧ (s.advance 1).unread = rest := by
  have hlen := s.unread_length
  rw [h, List.length_cons] at hlen
  have hrest : (s.advance 1).unread = rest := by rw [State.unread_advance, h]; rfl
  rw [State.unread, ← hlen, streamBits] at h
  exact ⟨by omega, (List.cons.inj h).1, hrest⟩

theorem State.getBit_of_unread {b : Bool} {rest : Bits} (h : s.unread = b :: rest) :
    s.getBit = (some b, s.advance 1) := by
  obtain ⟨hlt, rfl, -⟩ := State.unread_cons h
  exact State.getBit_of_lt hlt

theorem State.getBits_of_lt {L : Nat} (h : s.unread.length < L) : s.getBits L = (none, s) := by
  rw [State.unread_length] at h
  exact if_pos (by omega)

theorem State.getBits_of_le {L : Nat} (hq : s.engine.unpacker.q ≤ s.engine.unpacker.qlim) (h : L ≤ s.unread.length) :
    s.getBits L = (some (bitsVal (s.unread.take L)), s.advance L) := by
  rw [State.unread_length] at h
  rw [State.unread, take_streamBits _ _ h]
  exact if_neg (by omega)

/-! ## GetUnary and the unary lengths of `Decode` -/

/-- `GetUnary`'s name for what reading a unary length comes to. -/
def LengthPrefix.toUnary : LengthPrefix → UnaryResult
  | .len L _ => .len L
  | .runsOut => .exhausted
  | .tooLong => .tooLong

theorem readLength_nil (more L : Nat) : readLength more L [] = .runsOut := by rw [readLength.eq_def]

theorem readLength_false (more L : Nat) (rest : Bits) : readLength more L (false :: rest) = .len L rest := by
  rw [readLength.eq_def]

theorem readLength_zero_true (L : Nat) (rest : Bits) : readLength 0 L (true :: rest) = .tooLong := by
  rw [readLength.eq_def]

theorem readLength_succ_true (more L : Nat) (rest : Bits) :
    readLength (more + 1) L (true :: rest) = readLength more (L + 1) rest := by
  rw [readLength.eq_def]

/-- `GetUnary` reads the unread bits as `Decode` reads its bits: it counts the same, and passes the one-bits it counted
and the zero-bit after them. -/
theorem State.getUnaryFrom_eq_readLength (bits : Bits) :
    ∀ (more L : Nat) {s : State}, s.unread = bits →
      ∃ n, State.getUnaryFrom more L s = ((readLength more L bits).toUnary, s.advance n) ∧
        ∀ k rest, readLength more L bits = .len k rest →
          n + L = k + 1 ∧ k ≤ L + more ∧ n ≤ bits.length ∧ rest = bits.drop n := by
  induction bits with
  | nil =>
    intro more L s h
    rw [readLength_nil]
    exact ⟨0, State.getUnaryFrom_of_le more L (State.qlim_le_of_unread h), nofun⟩
  | cons b rest ih =>
    intro more L s h
    obtain ⟨hlt, hbit, hrest⟩ := State.unread_cons h
    cases b with
    | false =>
      rw [readLength_false]
      refine ⟨1, State.getUnaryFrom_of_zeroBit more L hlt hbit, ?_⟩
      rintro k r ⟨⟩
      exact ⟨Nat.add_comm 1 L, Nat.le_add_right L more, Nat.le_add_left 1 _, rfl⟩
    | true =>
      cases more with
      | zero =>
        rw [readLength_zero_true]
        exact ⟨1, State.getUnaryFrom_zero_of_oneBit L hlt hbit, nofun⟩
      | succ m =>
        obtain ⟨n, hn, hlen⟩ := ih m (L + 1) hrest
        rw [State.getUnaryFrom_succ_of_oneBit m L hlt hbit, readLength_succ_true, hn, State.advance_advance]
        refine ⟨1 + n, rfl, fun k r hr => ?_⟩
        obtain ⟨hcount, hle, hin, hdrop⟩ := hlen k r hr
        exact ⟨by omega, by omega, by rw [List.length_cons]; omega,
          by rw [hdrop, Nat.add_comm 1 n, List.drop_succ_cons]⟩

/-! ## One table entry -/

/-- One entry of the table of `Decode`, read from `bits`, the first of which is stream bit `pos` (43_decode.md R271). -/
def readEntry (pos : Nat) (bits : Bits) : Except EngineError (Entry × Bits) :=
  match readLength Config.maxCodeLen 0 bits with
  | .runsOut => .error (malformed 6 pos)
  | .tooLong => .error (malformed 7 pos)
  | .len L rest =>
    if rest.length < L + 8 then .error (malformed 6 pos)
    else
      .ok (⟨L, bitsVal (rest.take L), BitVec.ofNat 8 (bitsVal ((rest.drop L).take 8))⟩, rest.drop (L + 8))

/-- The table of `Decode` is read entry by entry. -/
theorem readEntries_succ (n pos : Nat) (done : List Entry) (bits : Bits) :
    readEntries (n + 1) pos done bits =
      match readEntry pos bits with
      | .error e => .error e
      | .ok (x, rest) => readEntries n (pos + (2 * x.len + 9)) (done ++ [x]) rest := by
  rw [readEntries, readEntry]
  cases readLength Config.maxCodeLen 0 bits with
  | runsOut => rfl
  | tooLong => rfl
  | len L rest => simp only; split_ifs <;> rfl

theorem bitsVal_append_singleton (s : Bits) (b : Bool) : bitsVal (s ++ [b]) = 2 * bitsVal s + b.toNat := by
  rw [bitsVal, bitsVal, List.foldl_append, List.foldl_cons, List.foldl_nil]

theorem bitsVal_lt (s : Bits) : bitsVal s < 2 ^ s.length := by
  induction s using List.reverseRecOn with
  | nil => exact Nat.one_pos
  | append_singleton s b ih =>
    have hb := b.toNat_le
    rw [bitsVal_append_singleton, List.length_append, List.length_singleton, Nat.pow_succ]
    omega

/-- An entry whose length and code word DT holds without loss (10_state.md R43). -/
structure Entry.Fits (x : Entry) : Prop where
  len : x.len < 2 ^ 8
  code : x.code < 2 ^ 256

/-- `s` after reading table entries: START and Q moved on, DT written, nothing else changed (43_decode.md R259 to
R262). -/
def State.parsedTo (s : State) (dt : DecodeTable) (start q : Nat) : State :=
  ((s.withWork { s.engine.work with start := start }).withUnpacker ⟨q, s.engine.unpacker.qlim⟩).withDt dt

/-- DEC_TABLE reads one entry as `Decode` does: the same error, or the entry stored and Q past it. -/
theorem State.decEntry_eq_readEntry (e : Nat) (hq : s.engine.unpacker.q ≤ s.engine.unpacker.qlim) :
    (∃ err, readEntry s.engine.unpacker.q s.unread = .error err ∧ s.decEntry e = .error err) ∨
    ∃ x rest, readEntry s.engine.unpacker.q s.unread = .ok (x, rest) ∧ x.Fits ∧
      2 * x.len + 9 ≤ s.unread.length ∧ rest = s.unread.drop (2 * x.len + 9) ∧
      s.decEntry e = .ok (s.parsedTo (storeEntries s.dt e [x]) s.engine.unpacker.q
        (s.engine.unpacker.q + (2 * x.len + 9))) := by
  obtain ⟨n, hunary, hlen⟩ := State.getUnaryFrom_eq_readLength s.unread Config.maxCodeLen 0
    (s := s.withWork { s.engine.work with start := s.engine.unpacker.q }) rfl
  rw [readEntry, State.decEntry, State.decEntryBody, State.getUnary, hunary]
  cases hr : readLength Config.maxCodeLen 0 s.unread with
  | runsOut => exact .inl ⟨_, rfl, rfl⟩
  | tooLong => exact .inl ⟨_, rfl, rfl⟩
  | len L rest =>
    obtain ⟨hn, hmax, hin, hrest⟩ := hlen L rest hr
    obtain rfl : n = L + 1 := hn
    have hlength : rest.length = s.unread.length - (L + 1) := by rw [hrest, List.length_drop]
    set s1 := (s.withWork { s.engine.work with start := s.engine.unpacker.q }).advance (L + 1) with hs1
    have hq1 : s1.engine.unpacker.q ≤ s1.engine.unpacker.qlim := State.advance_q_le hq hin
    have hunread1 : s1.unread = rest := (State.unread_advance _ _).trans hrest.symm
    simp only [LengthPrefix.toUnary]
    by_cases hcode : rest.length < L
    · rw [State.getBits_of_lt (hunread1 ▸ hcode), if_pos (by omega)]
      exact .inl ⟨_, rfl, rfl⟩
    have hcode' : L ≤ s1.unread.length := hunread1 ▸ Nat.not_lt.1 hcode
    have hunread2 : (s1.advance L).unread = rest.drop L := by rw [State.unread_advance, hunread1]
    rw [State.getBits_of_le hq1 hcode']
    simp only
    by_cases hsym : rest.length < L + 8
    · rw [if_pos hsym, State.getBits_of_lt (by rw [hunread2, List.length_drop]; omega)]
      exact .inl ⟨_, rfl, rfl⟩
    rw [if_neg hsym,
      State.getBits_of_le (State.advance_q_le hq1 hcode') (by rw [hunread2, List.length_drop]; omega)]
    have hwidth : L + 1 + (L + 8) = 2 * L + 9 := by omega
    have hL : L < 2 ^ 8 := Nat.lt_succ_of_le (hmax.trans_eq (Nat.zero_add _))
    refine .inr ⟨_, _, rfl, ⟨hL, ?_⟩, ?_, ?_, ?_⟩
    · exact (bitsVal_lt _).trans_le (Nat.pow_le_pow_right Nat.two_pos (by rw [List.length_take]; omega))
    · change 2 * L + 9 ≤ s.unread.length
      omega
    · rw [hrest, List.drop_drop, hwidth]
    · rw [hunread1, hunread2, State.advance_advance, hs1, State.advance_advance, hwidth]
      rfl

end Sys2Proof.Machine
end

section
/-! PROOF. DEC_TABLE and DEC_PAYLOAD over bit sequences: the entries DT then holds, and the payload loop, as `Decode`
has them (43_decode.md R259 to R268, R271). -/

namespace Sys2Proof.Machine

variable {s : State}

/-! ## The table -/

theorem State.parsedTo_unread (s : State) (dt : DecodeTable) (start w : Nat) :
    (s.parsedTo dt start (s.engine.unpacker.q + w)).unread = s.unread.drop w := by
  rw [State.unread, State.unread, drop_streamBits, Nat.sub_sub]
  rfl

/-- DEC_TABLE reads `n` entries as `Decode` does: the same error, or the same entries stored from entry `e` on and Q
past them. -/
theorem State.decEntries_eq_readEntries (n : Nat) :
    ∀ (e : Nat) (done : List Entry) {s : State}, s.engine.unpacker.q ≤ s.engine.unpacker.qlim →
      (∃ err, readEntries n s.engine.unpacker.q done s.unread = .error err ∧ State.decEntries n e s = .error err) ∨
      ∃ xs start w, w ≤ s.unread.length ∧ xs.length = n ∧ (∀ x ∈ xs, x.Fits) ∧
        readEntries n s.engine.unpacker.q done s.unread = .ok (done ++ xs, s.unread.drop w) ∧
        State.decEntries n e s =
          .ok (s.parsedTo (storeEntries s.dt e xs) start (s.engine.unpacker.q + w)) := by
  induction n with
  | zero =>
    intro e done s _
    exact .inr ⟨[], s.engine.work.start, 0, Nat.zero_le _, rfl, List.forall_mem_nil _,
      by rw [readEntries, List.append_nil]; rfl, rfl⟩
  | succ n ih =>
    intro e done s hq
    rw [readEntries_succ, State.decEntries]
    rcases State.decEntry_eq_readEntry e hq with ⟨err, hread, hdec⟩ | ⟨x, rest, hread, hfits, hw, hrest, hdec⟩
    · rw [hread, hdec]
      exact .inl ⟨err, rfl, rfl⟩
    rw [hread, hdec]
    simp only
    set s' := s.parsedTo (storeEntries s.dt e [x]) s.engine.unpacker.q (s.engine.unpacker.q + (2 * x.len + 9))
    have hunread : s'.unread = rest := (State.parsedTo_unread s _ _ _).trans hrest.symm
    have hlen := s.unread_length
    have hq' : s'.engine.unpacker.q ≤ s'.engine.unpacker.qlim := by
      change s.engine.unpacker.q + (2 * x.len + 9) ≤ s.engine.unpacker.qlim
      omega
    have hpos : s'.engine.unpacker.q = s.engine.unpacker.q + (2 * x.len + 9) := rfl
    rcases ih (e + 1) (done ++ [x]) hq' with ⟨err, hread', hdec'⟩ | ⟨xs, start, w, hw', hn, hall, hread', hdec'⟩
    · rw [hpos, hunread] at hread'
      exact .inl ⟨err, hread', hdec'⟩
    · rw [hunread, hrest, List.length_drop] at hw'
      rw [hpos, hunread] at hread'
      refine .inr ⟨x :: xs, start, 2 * x.len + 9 + w, by omega, by rw [List.length_cons, hn],
        List.forall_mem_cons.2 ⟨hfits, hall⟩, ?_, ?_⟩
      · rw [hread', List.append_assoc, hrest, List.drop_drop]
        rfl
      · rw [hdec', hpos, Nat.add_assoc]
        rfl

/-! ## What DT then holds -/

/-- DT holds entry `x` at index `e`. -/
structure DecodeTable.Holds (dt : DecodeTable) (e : Nat) (x : Entry) : Prop where
  valid : dt.valid.read e = 1
  len : (dt.len.read e).toNat = x.len
  code : (dt.code.read e).toNat = x.code
  sym : dt.sym.read e = x.sym

/-- Storing entries from index `e` on leaves what DT holds before `e`. -/
theorem DecodeTable.Holds.storeEntries {dt : DecodeTable} {j : Nat} {x : Entry} (h : dt.Holds j x) (xs : List Entry) :
    ∀ {e : Nat}, j < e → e + xs.length ≤ Config.dtEntries → (storeEntries dt e xs).Holds j x := by
  induction xs generalizing dt with
  | nil => exact fun _ _ => h
  | cons y ys ih =>
    intro e hj he
    rw [List.length_cons] at he
    obtain ⟨hv, hl, hs, hc⟩ := dt.read_store e j (BitVec.ofNat 8 y.len) (BitVec.ofNat 256 y.code) y.sym (by omega)
    rw [if_neg hj.ne] at hv hl hs hc
    exact ih ⟨hv.trans h.valid, hl ▸ h.len, hc ▸ h.code, hs.trans h.sym⟩ (by omega) (by omega)

theorem DecodeTable.holds_store (dt : DecodeTable) {e : Nat} (he : e < Config.dtEntries) {x : Entry} (hx : x.Fits) :
    (dt.store e (BitVec.ofNat 8 x.len) (BitVec.ofNat 256 x.code) x.sym).Holds e x := by
  obtain ⟨hv, hl, hs, hc⟩ := dt.read_store e e (BitVec.ofNat 8 x.len) (BitVec.ofNat 256 x.code) x.sym he
  rw [if_pos rfl] at hv hl hs hc
  exact ⟨hv, by rw [hl, BitVec.toNat_ofNat, Nat.mod_eq_of_lt hx.len],
    by rw [hc, BitVec.toNat_ofNat, Nat.mod_eq_of_lt hx.code], hs⟩

/-- The stored entries stand in DT in their order (43_decode.md R262). -/
theorem storeEntries_holds (dt : DecodeTable) (xs : List Entry) (hfits : ∀ x ∈ xs, x.Fits) :
    ∀ {e : Nat}, e + xs.length ≤ Config.dtEntries →
      ∀ (j : Nat) (hj : j < xs.length), (storeEntries dt e xs).Holds (e + j) xs[j] := by
  induction xs generalizing dt with
  | nil => exact fun _ _ hj => absurd hj (Nat.not_lt_zero _)
  | cons x xs ih =>
    intro e he j hj
    obtain ⟨hx, hxs⟩ := List.forall_mem_cons.1 hfits
    rw [List.length_cons] at he
    cases j with
    | zero => exact (dt.holds_store (by omega) hx).storeEntries xs (Nat.lt_succ_self e) (by omega)
    | succ j =>
      have hrest := ih (dt.store e (BitVec.ofNat 8 x.len) (BitVec.ofNat 256 x.code) x.sym) hxs (e := e + 1) (by omega) j
        (Nat.lt_of_succ_lt_succ hj)
      rwa [Nat.add_assoc, Nat.add_comm 1] at hrest

/-- Where DT holds the entries of `Decode`, a search over their indices finds the symbol `findEntry` finds. -/
theorem find_isCode_eq_findEntry {dt : DecodeTable} (buf : Bits) (xs : List Entry) :
    ∀ {e : Nat}, (∀ (j : Nat) (hj : j < xs.length), dt.Holds (e + j) xs[j]) →
      ((List.range' e xs.length).find? (dt.isCode buf)).map dt.sym.read = (findEntry xs buf).map Entry.sym := by
  induction xs with
  | nil => exact fun _ => rfl
  | cons x xs ih =>
    intro e h
    have hx : dt.Holds e x := h 0 (Nat.succ_pos _)
    have hxs := ih (e := e + 1) fun j hj => by
      have hplace : e + (j + 1) = e + 1 + j := by omega
      exact hplace ▸ h (j + 1) (Nat.succ_lt_succ hj)
    have hcode : dt.isCode buf e = (x.len == buf.length && x.code == bitsVal buf) := by
      rw [DecodeTable.isCode, hx.len, hx.code]
    rw [List.length_cons, List.range'_succ, List.find?_cons, findEntry, List.find?_cons, hcode]
    cases x.len == buf.length && x.code == bitsVal buf with
    | true => exact congrArg some hx.sym
    | false => exact hxs

/-- `Match` over DT finds what `Decode` finds in `entries` (41_bit_stream.md R192). -/
def State.Matches (s : State) (entries : List Entry) : Prop :=
  ∀ buf, (s.dt.matchCode s.engine.work.nSym buf).map s.dt.sym.read = (findEntry entries buf).map Entry.sym

theorem State.matches_of_storeEntries {dt : DecodeTable} {xs : List Entry} (hdt : s.dt = storeEntries dt 0 xs)
    (hn : s.engine.work.nSym = xs.length) (hlen : xs.length ≤ Config.dtEntries) (hfits : ∀ x ∈ xs, x.Fits) :
    s.Matches xs := by
  intro buf
  rw [DecodeTable.matchCode, hn, List.range_eq_range']
  refine find_isCode_eq_findEntry buf xs fun j hj => ?_
  rw [hdt]
  exact storeEntries_holds dt xs hfits (by omega) j hj

/-! ## The payload -/

/-- `s` after reading payload bits: Q and the matcher moved on, DST written, nothing else changed (43_decode.md
R263). -/
def State.emittedTo (s : State) (dst : Memory 8) (m : Matcher) (q : Nat) : State :=
  ((s.withUnpacker ⟨q, s.engine.unpacker.qlim⟩).withMatcher m).withDst dst

@[simp] theorem State.emittedTo_params (s : State) (dst : Memory 8) (m : Matcher) (q : Nat) :
    (s.emittedTo dst m q).params = s.params := rfl

@[simp] theorem State.emittedTo_dst (s : State) (dst : Memory 8) (m : Matcher) (q : Nat) :
    (s.emittedTo dst m q).dst = dst := rfl

@[simp] theorem State.emittedTo_q (s : State) (dst : Memory 8) (m : Matcher) (q : Nat) :
    (s.emittedTo dst m q).engine.unpacker.q = q := rfl

theorem State.emittedTo_emittedTo (s : State) (dst dst' : Memory 8) (m m' : Matcher) (q q' : Nat) :
    (s.emittedTo dst m q).emittedTo dst' m' q' = s.emittedTo dst' m' q' := rfl

theorem State.advance_emittedTo (s : State) (n : Nat) (dst : Memory 8) (m : Matcher) (q : Nat) :
    (s.advance n).emittedTo dst m q = s.emittedTo dst m q := rfl

/-- The payload loop and the check of R266 after it. -/
def State.decRest (n : Nat) (s : State) : Except EngineError State :=
  match State.decLoop n s with
  | .error err => .error err
  | .ok t => if t.engine.matcher.mbuf.isEmpty then .ok t else .error t.invalidCode

theorem State.decPayload_eq (s : State) :
    s.decPayload =
      if 8 * s.params.srcDepth < s.engine.unpacker.qlim then .fault .srcRange
      else
        match State.decRest s.unread.length (s.withMatcher ⟨[], s.engine.unpacker.q, 0⟩) with
        | .error err => .raise err
        | .ok t => .finish t.engine.decodeResults t := by
  rw [State.decPayload, State.decRest, State.unread_length]
  split_ifs
  · rfl
  · cases State.decLoop (s.engine.unpacker.qlim - s.engine.unpacker.q)
      (s.withMatcher ⟨[], s.engine.unpacker.q, 0⟩) with
    | error err => rfl
    | ok t => simp only; split_ifs <;> rfl

theorem State.decRest_cons {b : Bool} {rest : Bits} (n : Nat) (h : s.unread = b :: rest) :
    State.decRest (n + 1) s =
      match (s.advance 1).decBit b with
      | .error err => .error err
      | .ok t => State.decRest n t := by
  rw [State.decRest, State.decLoop, State.getBit_of_unread h]
  simp only
  cases (s.advance 1).decBit b <;> rfl

section DecBit

variable {b : Bool} {e : Nat}

/-! The body of the payload loop: the bits are a code word and DST is full, or has room; or they are none and as many as
a code word can have, or fewer. -/

theorem State.decBit_match_full (hm : s.dt.matchCode s.engine.work.nSym (s.engine.matcher.mbuf ++ [b]) = some e)
    (hfull : s.engine.matcher.ocnt = s.params.dstDepth) :
    s.decBit b = .error ⟨.dstOverflow, 0, s.engine.matcher.mstart⟩ := by
  simp only [State.decBit, hm, State.emitSym, if_pos hfull]

theorem State.decBit_match (hm : s.dt.matchCode s.engine.work.nSym (s.engine.matcher.mbuf ++ [b]) = some e)
    (hroom : s.engine.matcher.ocnt ≠ s.params.dstDepth) :
    s.decBit b = .ok (s.emittedTo (s.dst.writeWithin s.params.dstDepth s.engine.matcher.ocnt (s.dt.sym.read e))
      ⟨[], s.engine.unpacker.q, s.engine.matcher.ocnt + 1⟩ s.engine.unpacker.q) := by
  simp only [State.decBit, hm, State.emitSym, if_neg hroom]
  rfl

theorem State.decBit_tooLong (hm : s.dt.matchCode s.engine.work.nSym (s.engine.matcher.mbuf ++ [b]) = none)
    (hlen : (s.engine.matcher.mbuf ++ [b]).length = Config.maxCodeLen) : s.decBit b = .error s.invalidCode := by
  simp only [State.decBit, hm, if_pos hlen]

theorem State.decBit_append (hm : s.dt.matchCode s.engine.work.nSym (s.engine.matcher.mbuf ++ [b]) = none)
    (hlen : (s.engine.matcher.mbuf ++ [b]).length ≠ Config.maxCodeLen) :
    s.decBit b = .ok (s.emittedTo s.dst
      ⟨s.engine.matcher.mbuf ++ [b], s.engine.matcher.mstart, s.engine.matcher.ocnt⟩ s.engine.unpacker.q) := by
  simp only [State.decBit, hm, if_neg hlen]
  rfl

end DecBit

/-- DEC_PAYLOAD reads the payload as `Decode` does: the same error, or the same symbols stored in DST. -/
theorem State.decRest_eq_readPayload {entries : List Entry} (bits : Bits) :
    ∀ {s : State} {buf : Bits} {ms : Nat} {out : List Byte}, s.unread = bits → s.Matches entries →
      s.engine.matcher = ⟨buf, ms, out.length⟩ →
      (∃ err, readPayload s.params entries s.engine.unpacker.q ms buf out bits = .error err ∧
        State.decRest bits.length s = .error err) ∨
      ∃ out' m q, readPayload s.params entries s.engine.unpacker.q ms buf out bits = .ok (out ++ out') ∧
        m.ocnt = (out ++ out').length ∧
        State.decRest bits.length s =
          .ok (s.emittedTo (s.dst.writeList s.params.dstDepth out.length out') m q) := by
  induction bits with
  | nil =>
    intro s buf ms out _ _ hmatcher
    rw [readPayload, List.length_nil, State.decRest, State.decLoop]
    simp only [hmatcher, State.invalidCode]
    cases buf with
    | nil =>
      refine .inr ⟨[], s.engine.matcher, s.engine.unpacker.q, ?_, ?_, rfl⟩
      · rw [List.append_nil]; rfl
      · rw [hmatcher, List.append_nil]
    | cons b rest => exact .inl ⟨_, rfl, rfl⟩
  | cons b rest ih =>
    intro s buf ms out h hmatches hmatcher
    obtain ⟨-, -, hrest⟩ := State.unread_cons h
    have hbuf : (s.advance 1).engine.matcher = ⟨buf, ms, out.length⟩ := hmatcher
    have hfind : ((s.advance 1).dt.matchCode (s.advance 1).engine.work.nSym
        ((s.advance 1).engine.matcher.mbuf ++ [b])).map s.dt.sym.read =
        (findEntry entries (buf ++ [b])).map Entry.sym := by
      rw [hbuf]
      exact hmatches _
    rw [List.length_cons, State.decRest_cons _ h, readPayload]
    cases hx : findEntry entries (buf ++ [b]) with
    | some x =>
      rw [hx, Option.map_some, Option.map_eq_some_iff] at hfind
      obtain ⟨e, hm, hsym⟩ := hfind
      by_cases hfull : out.length = s.params.dstDepth
      · rw [State.decBit_match_full hm (by rw [hbuf]; exact hfull)]
        simp only [if_pos hfull, hbuf]
        exact .inl ⟨_, rfl, rfl⟩
      · rw [State.decBit_match hm (by rw [hbuf]; exact hfull)]
        simp only [if_neg hfull, hbuf]
        have hstore : (s.advance 1).dt.sym.read e = x.sym := hsym
        have hlen : out.length + 1 = (out ++ [x.sym]).length := by rw [List.length_append]; rfl
        have hnext := ih (s := s.emittedTo (s.dst.writeWithin s.params.dstDepth out.length x.sym)
          ⟨[], s.engine.unpacker.q + 1, out.length + 1⟩ (s.engine.unpacker.q + 1)) (out := out ++ [x.sym])
          hrest hmatches (by rw [← hlen]; rfl)
        simp only [State.emittedTo_params, State.emittedTo_q, State.emittedTo_dst, State.emittedTo_emittedTo,
          List.append_assoc, List.singleton_append, ← hlen] at hnext
        rw [hstore, State.advance_emittedTo, State.advance_q]
        rcases hnext with ⟨err, hread, hdec⟩ | ⟨out', m, q, hread, hocnt, hdec⟩
        · exact .inl ⟨err, hread, hdec⟩
        · exact .inr ⟨x.sym :: out', m, q, hread, hocnt, hdec⟩
    | none =>
      rw [hx, Option.map_none, Option.map_eq_none_iff] at hfind
      by_cases hlen : (buf ++ [b]).length = Config.maxCodeLen
      · rw [State.decBit_tooLong hfind (by rw [hbuf]; exact hlen)]
        simp only [if_pos hlen, State.invalidCode, hbuf]
        exact .inl ⟨_, rfl, rfl⟩
      · rw [State.decBit_append hfind (by rw [hbuf]; exact hlen)]
        simp only [if_neg hlen, hbuf]
        have hnext := ih (s := s.emittedTo s.dst ⟨buf ++ [b], ms, out.length⟩ (s.engine.unpacker.q + 1)) hrest
          hmatches rfl
        simp only [State.emittedTo_params, State.emittedTo_q, State.emittedTo_dst, State.emittedTo_emittedTo] at hnext
        exact hnext

end Sys2Proof.Machine
end

section
/-! PROOF. DECODE's run to the outcome of `Decode`: each phase decides as `Decode` does over the bits ahead of it
(43_decode.md R250 to R268, R271; 40_host_access.md R160 to R162). -/

namespace Sys2Proof.Machine

variable {s : State}

/-! ## The stream in SRC -/

theorem State.getD_message {i : Nat} (h : i < s.regs.srcLen.toNat) : s.message.getD i 0 = s.src.read i := by
  rw [List.getD_eq_getElem _ _ (by rwa [State.message, Memory.readList_length])]
  simp only [State.message, Memory.readList_getElem, Nat.zero_add]

/-- Stream bits of the first `len` bytes depend on these bytes alone. -/
theorem streamBits_congr {f g : Nat → Byte} {len : Nat} (h : ∀ i < len, f i = g i) (n : Nat) :
    ∀ q, q + n ≤ 8 * len → streamBits f q n = streamBits g q n := by
  induction n with
  | zero => exact fun _ _ => rfl
  | succ n ih =>
    intro q hq
    rw [streamBits, streamBits, ih (q + 1) (by omega), streamBit, streamBit, h (q / 8) (by omega)]

/-! ## The states between the phases -/

/-- The header is parsed: what is left of `Decode` is its table and payload, over the unread bits (R258). -/
structure State.HeaderParsed (s : State) : Prop where
  outcome : s.decodeOutcome =
    decodeBody s.params s.engine.work.h s.engine.work.ns s.engine.work.k s.unread
  first : s.engine.unpacker.q = 24
  fits : s.engine.unpacker.q ≤ s.engine.unpacker.qlim
  src : s.engine.unpacker.qlim ≤ 8 * s.params.srcDepth

/-- `Ok` of `Decode` from the working registers, the entries and the symbols (43_decode.md R268). -/
def State.decoded (s : State) (entries : List Entry) (out : List Byte) : DecodeOk :=
  { out := out, entries := entries, height := s.engine.work.h, numSymbols := s.engine.work.ns
    padK := s.engine.work.k, tableBits := s.engine.work.tend - 24, payloadBits := s.unread.length }

/-- The table is parsed: DT holds `entries`, and what is left of `Decode` is its payload (R262). -/
structure State.TableParsed (s : State) (entries : List Entry) : Prop where
  outcome : s.decodeOutcome =
    (readPayload s.params entries s.engine.unpacker.q s.engine.unpacker.q [] [] s.unread).map (s.decoded entries)
  tend : s.engine.work.tend = s.engine.unpacker.q
  src : s.engine.unpacker.qlim ≤ 8 * s.params.srcDepth
  dt : s.dt = storeEntries DecodeTable.cleared 0 entries
  entries : s.Matches entries

/-- The states DECODE runs through (43_decode.md R250). -/
inductive State.Decoding (s : State) : Prop where
  | header (hphase : s.engine.phase = .decHeader)
  | table (hphase : s.engine.phase = .decTable) (h : s.HeaderParsed)
  | payload (hphase : s.engine.phase = .decPayload) (entries : List Entry) (h : s.TableParsed entries)

/-- How many phases of DECODE are left to run. -/
def Phase.decodeLeft : Phase → Nat
  | .decHeader => 3
  | .decTable => 2
  | .decPayload => 1
  | _ => 0

/-- What a phase of a running DECODE comes to: `Decode`'s error, `Decode`'s completion, or the next phase, with DT and
the engine changed and nothing else. -/
inductive State.DecodeStep (s : State) : PhaseResult → Prop where
  | raise (e : EngineError) (h : s.decodeOutcome = .error e) : s.DecodeStep (.raise e)
  | finish (r : Results) (t : State) (h : t.complete r = s.commitDecode s.decodeOutcome) : s.DecodeStep (.finish r t)
  | goOn (dt : DecodeTable) (e : Engine) (hleft : e.left = s.engine.left)
      (hphase : e.phase.decodeLeft < s.engine.phase.decodeLeft) (h : ((s.withDt dt).withEngine e).Decoding) :
      s.DecodeStep (.goOn ((s.withDt dt).withEngine e))

/-! ## The phases -/

theorem State.decHeader_step (hphase : s.engine.phase = .decHeader) : s.DecodeStep s.decHeader := by
  have houtcome : s.decodeOutcome = decodeFn s.params s.message s.regs.srcLen.toNat := rfl
  unfold decodeFn at houtcome
  unfold State.decHeader
  by_cases hsrc : s.params.srcDepth < s.regs.srcLen.toNat
  · simp only [if_pos hsrc] at houtcome ⊢
    exact .raise _ houtcome
  by_cases h2 : s.regs.srcLen.toNat < 2
  · simp only [if_neg hsrc, if_pos h2] at houtcome ⊢
    exact .raise _ houtcome
  by_cases h3 : s.regs.srcLen.toNat < 3
  · simp only [if_neg hsrc, if_neg h2, if_pos h3] at houtcome ⊢
    exact .raise _ houtcome
  have h0 : s.message.getD 0 0 = s.src.read 0 := State.getD_message (by omega)
  have h1 : s.message.getD 1 0 = s.src.read 1 := State.getD_message (by omega)
  have h2' : s.message.getD 2 0 = s.src.read 2 := State.getD_message (by omega)
  have hk : leadingOnes (bits8 (s.src.read 2)) = markerCount (s.src.read 2) := rfl
  simp only [if_neg hsrc, if_neg h2, if_neg h3, h0, h1, h2', hk] at houtcome ⊢
  by_cases hff : s.src.read 2 = 0xFF#8
  · simp only [if_pos hff] at houtcome ⊢
    exact .raise _ houtcome
  by_cases hpad : 8 * (s.regs.srcLen.toNat - 3) < markerCount (s.src.read 2)
  · simp only [if_neg hff, if_pos hpad] at houtcome ⊢
    exact .raise _ houtcome
  by_cases hns : s.src.read 1 = 0#8
  · simp only [if_neg hff, if_neg hpad, if_pos hns] at houtcome ⊢
    exact .raise _ houtcome
  simp only [if_neg hff, if_neg hpad, if_neg hns] at houtcome ⊢
  set k := markerCount (s.src.read 2)
  have hlen : 8 * (s.regs.srcLen.toNat - 3) - k = 8 * s.regs.srcLen.toNat - k - 24 := by omega
  have hbits : streamBits (fun i => s.message.getD i 0) 24 (8 * (s.regs.srcLen.toNat - 3) - k) =
      streamBits s.src.read 24 (8 * s.regs.srcLen.toNat - k - 24) := by
    rw [hlen]
    exact streamBits_congr (len := s.regs.srcLen.toNat) (fun i hi => State.getD_message hi) _ _ (by omega)
  rw [hbits] at houtcome
  refine .goOn s.dt _ rfl (by rw [hphase]; exact Nat.lt_succ_self 2) (.table rfl ⟨houtcome, rfl, ?_, ?_⟩)
  · change 24 ≤ 8 * s.regs.srcLen.toNat - k
    omega
  · change 8 * s.regs.srcLen.toNat - k ≤ 8 * s.params.srcDepth
    omega

theorem State.decTable_step (hphase : s.engine.phase = .decTable) (h : s.HeaderParsed) : s.DecodeStep s.decTable := by
  obtain ⟨houtcome, hfirst, hfits, hsrc⟩ := h
  rw [decodeBody, ← hfirst] at houtcome
  rw [State.decTable, if_neg (Nat.not_lt.2 hsrc)]
  rcases State.decEntries_eq_readEntries s.engine.work.ns.toNat 0 [] (s := s.withDt DecodeTable.cleared) hfits with
    ⟨err, hread, hdec⟩ | ⟨xs, start, w, hw, hn, hall, hread, hdec⟩
  · replace hread : readEntries s.engine.work.ns.toNat s.engine.unpacker.q [] s.unread = .error err := hread
    rw [hread] at houtcome
    rw [hdec]
    exact .raise err houtcome
  · replace hread : readEntries s.engine.work.ns.toNat s.engine.unpacker.q [] s.unread = .ok (xs, s.unread.drop w) :=
      hread
    replace hw : w ≤ s.unread.length := hw
    have hbits : s.unread.length - (s.unread.drop w).length = w := by rw [List.length_drop]; omega
    rw [hread] at houtcome
    simp only [hbits] at houtcome
    rw [hdec]
    set t := (s.withDt DecodeTable.cleared).parsedTo (storeEntries DecodeTable.cleared 0 xs) start
      (s.engine.unpacker.q + w)
    have hunread : t.unread = s.unread.drop w := State.parsedTo_unread (s.withDt DecodeTable.cleared) _ _ _
    refine .goOn (storeEntries DecodeTable.cleared 0 xs) _ rfl (by rw [hphase]; exact Nat.lt_succ_self 1)
      (.payload rfl xs ⟨?_, rfl, hsrc, rfl, ?_⟩)
    · refine houtcome.trans ?_
      rw [← hunread]
      change _ = (readPayload s.params xs (s.engine.unpacker.q + w) (s.engine.unpacker.q + w) [] [] t.unread).map _
      cases readPayload s.params xs (s.engine.unpacker.q + w) (s.engine.unpacker.q + w) [] [] t.unread with
      | error err => rfl
      | ok out =>
        have htable : w = s.engine.unpacker.q + w - 24 := by omega
        conv_lhs => rw [htable]
        rfl
    · have hns := s.engine.work.ns.isLt
      exact State.matches_of_storeEntries rfl hn.symm (by rw [hn]; exact Nat.le_of_lt_succ hns) hall

theorem State.decPayload_step {entries : List Entry} (h : s.TableParsed entries) : s.DecodeStep s.decPayload := by
  obtain ⟨houtcome, htend, hsrc, hdt, hmatches⟩ := h
  rw [State.decPayload_eq, if_neg (Nat.not_lt.2 hsrc)]
  rcases State.decRest_eq_readPayload s.unread (s := s.withMatcher ⟨[], s.engine.unpacker.q, 0⟩) (out := []) rfl
    hmatches rfl with ⟨err, hread, hdec⟩ | ⟨out, m, q, hread, hocnt, hdec⟩
  · replace hread : readPayload s.params entries s.engine.unpacker.q s.engine.unpacker.q [] [] s.unread = .error err :=
      hread
    rw [hread] at houtcome
    rw [hdec]
    exact .raise err houtcome
  · replace hread : readPayload s.params entries s.engine.unpacker.q s.engine.unpacker.q [] [] s.unread = .ok out :=
      hread
    rw [hread] at houtcome
    rw [hdec]
    have hresults : (s.decoded entries out).results =
        ((s.withMatcher ⟨[], s.engine.unpacker.q, 0⟩).emittedTo (s.dst.writeList s.params.dstDepth 0 out) m
          q).engine.decodeResults := by
      rw [Engine.decodeResults, DecodeOk.results, State.decoded, State.unread_length, ← htend]
      replace hocnt : out.length = m.ocnt := hocnt.symm
      simp only [hocnt]
      rfl
    refine .finish _ _ ?_
    rw [houtcome, Except.map, State.commitDecode, hresults, State.decoded, ← hdt]
    rfl

theorem State.Decoding.phaseStep (h : s.Decoding) : s.DecodeStep s.phaseStep := by
  rw [State.phaseStep]
  cases h with
  | header hphase => rw [hphase]; exact State.decHeader_step hphase
  | table hphase h => rw [hphase]; exact State.decTable_step hphase h
  | payload hphase entries h => rw [hphase]; exact State.decPayload_step h

/-! ## A running DECODE -/

section Decoding

variable (h : s.Decoding)
include h

theorem State.Decoding.phase_cases :
    s.engine.phase = .decHeader ∨ s.engine.phase = .decTable ∨ s.engine.phase = .decPayload := by
  cases h with
  | header hphase => exact .inl hphase
  | table hphase => exact .inr (.inl hphase)
  | payload hphase => exact .inr (.inr hphase)

theorem State.Decoding.busy : s.busy = true := by
  rcases h.phase_cases with hphase | hphase | hphase <;> rw [State.busy, hphase]

theorem State.Decoding.decoding : s.engine.phase.decoding = true := by
  rcases h.phase_cases with hphase | hphase | hphase <;> rw [hphase] <;> rfl

theorem State.Decoding.decodeLeft_pos : 0 < s.engine.phase.decodeLeft := by
  rcases h.phase_cases with hphase | hphase | hphase <;> rw [hphase] <;> decide

theorem State.Decoding.decodeLeft_le : s.engine.phase.decodeLeft ≤ maxPhases := by
  rcases h.phase_cases with hphase | hphase | hphase <;> rw [hphase] <;> decide

end Decoding

theorem State.Decoding.countStep (h : s.Decoding) : s.countStep.Decoding := by
  cases h with
  | header hphase => exact .header hphase
  | table hphase h => exact .table hphase ⟨h.outcome, h.first, h.fits, h.src⟩
  | payload hphase entries h => exact .payload hphase entries ⟨h.outcome, h.tend, h.src, h.dt, h.entries⟩

/-- Neither DT nor, while DECODE runs, the engine has a part in what a completion of DECODE makes of a state. -/
theorem State.commitDecode_withDt_withEngine {dt : DecodeTable} {e : Engine} (hs : s.engine.phase.decoding = true)
    (he : e.phase.decoding = true) (o : Except EngineError DecodeOk) :
    ((s.withDt dt).withEngine e).commitDecode o = s.commitDecode o := by
  cases o with
  | ok r => rfl
  | error err => simp only [State.commitDecode, State.fail, State.withEngine_engine, hs, he]; rfl

theorem State.conclude_withDt_withEngine {dt : DecodeTable} {e : Engine} (hs : s.engine.phase.decoding = true)
    (he : e.phase.decoding = true) (r : PhaseResult) : ((s.withDt dt).withEngine e).conclude r = s.conclude r := by
  cases r with
  | raise err => exact congrArg _ (State.commitDecode_withDt_withEngine hs he (.error err))
  | goOn t => rfl
  | finish r t => rfl
  | fault f => rfl

/-- The phases that are left of a running DECODE, run to its end, give the completion of `Decode`'s outcome. -/
theorem State.Decoding.conclude_runPhases {n : Nat} (h : s.Decoding) (hn : s.engine.phase.decodeLeft ≤ n) :
    s.conclude (State.runPhases n s) = .next (s.commitDecode s.decodeOutcome) := by
  induction n generalizing s with
  | zero => exact absurd h.decodeLeft_pos (Nat.not_lt.2 hn)
  | succ n ih =>
    have hstep := h.phaseStep
    rw [State.runPhases]
    generalize s.phaseStep = result at hstep ⊢
    cases hstep with
    | raise e herr => rw [herr]; rfl
    | finish r t hdone => exact congrArg _ hdone
    | goOn dt e hleft hphase hnext =>
      have hrest := ih hnext (Nat.le_of_lt_succ (hphase.trans_le hn))
      have hdecoding : e.phase.decoding = true := hnext.decoding
      rw [State.conclude_withDt_withEngine h.decoding hdecoding,
        State.commitDecode_withDt_withEngine h.decoding hdecoding] at hrest
      exact hrest

/-- An engine step before the last changes DT and the engine alone: it runs a phase or is only counted. -/
theorem State.Decoding.early (h : s.Decoding) (hl : 1 < s.engine.left) :
    ∃ dt e, s.engineStep = .next ((s.withDt dt).withEngine e) ∧ e.left = s.engine.left - 1 ∧
      ((s.withDt dt).withEngine e).Decoding := by
  have hstep := h.phaseStep
  rw [State.engineStep, if_neg (Nat.not_le.2 hl)]
  generalize s.phaseStep = result at hstep ⊢
  cases hstep with
  | raise e _ => exact ⟨s.dt, s.countStep.engine, rfl, rfl, h.countStep⟩
  | finish r t _ => exact ⟨s.dt, s.countStep.engine, rfl, rfl, h.countStep⟩
  | goOn dt e hleft _ hnext =>
    exact ⟨dt, { e with left := e.left - 1 }, rfl, congrArg (· - 1) hleft, hnext.countStep⟩

/-- Settles O16: each phase decides as `Decode` does over the bits ahead of it, and no step but the last changes more
than DT and the engine. -/
theorem decodeRunsToDecodeOutcome : Obligations.DecodeRunsToDecodeOutcome := by
  intro s hok hidle hinputs
  refine ⟨s.startCommand 2#3 .decHeader, by rw [exec_decode, State.issue_idle hidle], ?_⟩
  refine Runs.of_engineSteps (P := State.Decoding) (F := fun u => u.commitDecode u.decodeOutcome)
    (fun _ h => h.busy) (fun u h hl => ?_) (fun u h hl => ?_) (Params.one_le_engineSteps hok) rfl hinputs (.header rfl)
  · rw [State.engineStep, if_pos hl, h.conclude_runPhases h.decodeLeft_le]
  · obtain ⟨dt, e, hstep, hleft, hnext⟩ := h.early hl
    exact ⟨_, hstep, rfl, hleft, hnext, State.commitDecode_withDt_withEngine h.decoding hnext.decoding _⟩

end Sys2Proof.Machine
end

section
/-! PROOF. `Decode` undoes `Encode`: the bytes of the stream give its bits back, the table its entries, and, where no
code word begins another, the payload its message (30_encoding.md R105 to R113, 42_encode.md R226, 43_decode.md R271, R272). -/

namespace Sys2Proof.Machine

/-! ## Values of bit sequences -/

theorem bitsVal_cons (b : Bool) (s : Bits) : bitsVal (b :: s) = 2 ^ s.length * b.toNat + bitsVal s := by
  induction s using List.reverseRecOn with
  | nil => simp [bitsVal]
  | append_singleton s c ih =>
    rw [← List.cons_append, bitsVal_append_singleton, bitsVal_append_singleton, ih, List.length_append,
      List.length_singleton, Nat.pow_succ]
    ring

/-- Bit sequences of one length are told apart by their values. -/
theorem eq_of_bitsVal_eq {s t : Bits} (hlen : s.length = t.length) (h : bitsVal s = bitsVal t) : s = t := by
  induction s generalizing t with
  | nil => exact (List.length_eq_zero_iff.1 hlen.symm).symm
  | cons b s ih =>
    cases t with
    | nil => cases hlen
    | cons c t =>
      have hlen' : s.length = t.length := Nat.succ.inj hlen
      have hs := bitsVal_lt s
      have ht := bitsVal_lt t
      rw [bitsVal_cons, bitsVal_cons, hlen'] at h
      rw [hlen'] at hs
      cases b <;> cases c <;> simp only [Bool.toNat_true, Bool.toNat_false] at h
      · rw [ih hlen' (by omega)]
      · omega
      · omega
      · rw [ih hlen' (by omega)]

theorem bitsVal_msbFirst (v n : Nat) : bitsVal (msbFirst v.testBit n) = v % 2 ^ n := by
  induction n with
  | zero => rw [Nat.pow_zero, Nat.mod_one]; rfl
  | succ n ih => rw [msbFirst, bitsVal_cons, msbFirst_length, ih, Nat.toNat_testBit, Nat.mod_pow_succ, Nat.add_comm]

theorem bitsVal_bits8 (x : Byte) : bitsVal (bits8 x) = x.toNat :=
  (bitsVal_msbFirst x.toNat 8).trans (Nat.mod_eq_of_lt x.isLt)

theorem ofNat_bitsVal_bits8 (x : Byte) : BitVec.ofNat 8 (bitsVal (bits8 x)) = x := by
  rw [bitsVal_bits8, BitVec.ofNat_toNat, BitVec.setWidth_eq]

theorem bits8_ofNat_bitsVal {s : Bits} (h : s.length = 8) : bits8 (BitVec.ofNat 8 (bitsVal s)) = s := by
  have hlt := bitsVal_lt s
  rw [h] at hlt
  exact eq_of_bitsVal_eq ((bits8_length _).trans h.symm)
    (by rw [bitsVal_bits8, BitVec.toNat_ofNat, Nat.mod_eq_of_lt hlt])

/-! ## Bytes and bits -/

theorem bytesOfBits_bits8_append (x : Byte) (s : Bits) : bytesOfBits (bits8 x ++ s) = x :: bytesOfBits s := by
  conv_rhs => rw [← ofNat_bitsVal_bits8 x]
  rfl

/-- Whole bytes of bits are the bits of their bytes (20_memory.md R76). -/
theorem flatMap_bits8_bytesOfBits : ∀ s : Bits, s.length % 8 = 0 → (bytesOfBits s).flatMap bits8 = s
  | [], _ => rfl
  | b7 :: b6 :: b5 :: b4 :: b3 :: b2 :: b1 :: b0 :: rest, h => by
    have hbyte := bits8_ofNat_bitsVal (s := [b7, b6, b5, b4, b3, b2, b1, b0]) rfl
    have hrest : rest.length % 8 = 0 := by
      simp only [List.length_cons] at h
      omega
    rw [bytesOfBits, List.flatMap_cons, hbyte, flatMap_bits8_bytesOfBits rest hrest]
    rfl
  | [_], h | [_, _], h | [_, _, _], h | [_, _, _, _], h | [_, _, _, _, _], h | [_, _, _, _, _, _], h
  | [_, _, _, _, _, _, _], h => by simp at h

/-- Without its first byte a stream is 8 bits shorter. -/
theorem streamBits_add_eight (byte : Nat → Byte) (n : Nat) :
    ∀ q, streamBits byte (q + 8) n = streamBits (fun i => byte (i + 1)) q n := by
  induction n with
  | zero => exact fun _ => rfl
  | succ n ih =>
    intro q
    rw [streamBits, streamBits, Nat.add_right_comm, ih, streamBit, streamBit, Nat.add_div_right q (by decide),
      Nat.add_mod_right]

/-- The bits of a list of bytes, as stream bits. -/
theorem streamBits_getD_eq_flatMap (l : List Byte) :
    streamBits (fun i => l.getD i 0) 0 (8 * l.length) = l.flatMap bits8 := by
  induction l with
  | nil => rfl
  | cons x l ih =>
    have hfirst : streamBits (fun i => (x :: l).getD i 0) 0 8 = bits8 x := rfl
    have hrest : streamBits (fun i => (x :: l).getD i 0) 8 (8 * l.length) = l.flatMap bits8 :=
      (streamBits_add_eight _ _ 0).trans ih
    have hlen : 8 * (x :: l).length = 8 + 8 * l.length := by rw [List.length_cons]; omega
    rw [← List.take_append_drop 8 (streamBits _ 0 (8 * (x :: l).length)), drop_streamBits,
      take_streamBits _ _ (by omega), hfirst, hlen, Nat.add_sub_cancel_left, hrest, List.flatMap_cons]

/-! ## The header -/

/-- The marker of `k` padding bits reads as `k`, and is not the one marker that is refused (30_encoding.md R108,
R109). -/
theorem leadingOnes_markerByte : ∀ k < 8, leadingOnes (bits8 (markerByte k)) = k ∧ markerByte k ≠ 0xFF#8 := by decide

/-- A header that `Encode` writes passes every check of `Decode`, which then reads the body without its padding. -/
theorem decodeFn_of_header (p : Params) (height ns : Byte) {k : Nat} (l : List Byte) (hk : k ≤ 7)
    (hpad : k ≤ 8 * l.length) (hns : ns ≠ 0#8) (hsrc : l.length + 3 ≤ p.srcDepth) :
    decodeFn p (height :: ns :: markerByte k :: l) (l.length + 3) =
      decodeBody p height ns k ((l.flatMap bits8).take (8 * l.length - k)) := by
  obtain ⟨hones, hmarker⟩ := leadingOnes_markerByte k (by omega)
  have hbits : streamBits (fun i => (height :: ns :: markerByte k :: l).getD i 0) 24 (8 * l.length - k) =
      (l.flatMap bits8).take (8 * l.length - k) := by
    rw [← streamBits_getD_eq_flatMap, take_streamBits _ _ (Nat.sub_le _ _), streamBits_add_eight _ _ 16,
      streamBits_add_eight _ _ 8, streamBits_add_eight _ _ 0]
    rfl
  rw [← hbits]
  simp only [decodeFn, List.getD_cons_zero, List.getD_cons_succ, hones, if_neg (Nat.not_lt.2 hsrc), if_neg hmarker,
    if_neg hns, Nat.add_sub_cancel, if_neg (Nat.not_lt.2 hpad), if_neg (show ¬ l.length + 3 < 2 by omega),
    if_neg (show ¬ l.length + 3 < 3 by omega)]

/-! ## The table -/

/-- The entry of symbol `x` as `Decode` parses it (43_decode.md R271). -/
def entryOf (ct : CodeTable) (x : Nat) : Entry := ⟨ct.lenOf x, bitsVal (ct.codeBits x), BitVec.ofNat 8 x⟩

theorem readLength_replicate (L more c : Nat) (rest : Bits) :
    readLength (more + L) c (List.replicate L true ++ false :: rest) = .len (c + L) rest := by
  induction L generalizing c with
  | zero => exact readLength_false _ _ _
  | succ L ih =>
    rw [← Nat.add_assoc, List.replicate_succ, List.cons_append, readLength_succ_true, ih, Nat.add_right_comm]
    rfl

theorem readEntry_entryBits (ct : CodeTable) (x pos : Nat) (rest : Bits) :
    readEntry pos (entryBits ct x ++ rest) = .ok (entryOf ct x, rest) := by
  have hlt := ct.lenOf_lt x
  have hcode := ct.codeBits_length x
  have hbits : entryBits ct x ++ rest = List.replicate (ct.lenOf x) true ++
      false :: (ct.codeBits x ++ (bits8 (BitVec.ofNat 8 x) ++ rest)) := by
    simp only [entryBits, List.append_assoc, List.cons_append, List.nil_append]
  have hlength := readLength_replicate (ct.lenOf x) (255 - ct.lenOf x) 0
    (ct.codeBits x ++ (bits8 (BitVec.ofNat 8 x) ++ rest))
  rw [Nat.sub_add_cancel (by omega), Nat.zero_add] at hlength
  rw [readEntry, hbits, hlength]
  simp only [List.length_append, hcode, bits8_length]
  rw [if_neg (by omega), List.take_left' hcode, List.drop_left' hcode, List.take_left' (bits8_length _),
    ofNat_bitsVal_bits8, ← List.append_assoc, List.drop_left' (by rw [List.length_append, hcode, bits8_length])]
  rfl

/-- The serialised entries of symbols parse to their entries (30_encoding.md R111). -/
theorem readEntries_flatMap_entryBits (ct : CodeTable) (l : List Nat) (rest : Bits) :
    ∀ (pos : Nat) (done : List Entry), readEntries l.length pos done (l.flatMap (entryBits ct) ++ rest) =
      .ok (done ++ l.map (entryOf ct), rest) := by
  induction l with
  | nil => intro pos done; rw [List.length_nil, readEntries, List.map_nil, List.append_nil]; rfl
  | cons x l ih =>
    intro pos done
    rw [List.length_cons, readEntries_succ, List.flatMap_cons, List.append_assoc, readEntry_entryBits]
    simp only
    rw [ih, List.append_assoc]
    rfl

/-! ## The payload -/

/-- `findEntry` finds the code words of the bytes of `m` in `entries`, each with its byte, and nothing else. -/
structure FindsCodes (ct : CodeTable) (m : List Byte) (entries : List Entry) : Prop where
  sound : ∀ buf e, findEntry entries buf = some e → ∃ y ∈ m, ct.codeBits y.toNat = buf ∧ e.sym = y
  complete : ∀ y ∈ m, findEntry entries (ct.codeBits y.toNat) ≠ none

/-- The symbols of the table are the bytes of the message (42_encode.md R212, R216). -/
theorem mem_tableOrder_presentSet {ct : CodeTable} {m : List Byte} (h : ∀ b ∈ m, ct.lenOf b.toNat ≠ 0) (x : Nat) :
    x ∈ tableOrder ct (symbolsOf (presentSet m)) ↔ ∃ y ∈ m, y.toNat = x := by
  rw [mem_tableOrder, and_iff_left_of_imp (lenOf_ne_zero_of_present h x), symbolsOf_presentSet, List.mem_filter,
    List.mem_range, decide_eq_true_eq]
  constructor
  · rintro ⟨hlt, hmem⟩
    exact ⟨_, hmem, by rw [BitVec.toNat_ofNat, Nat.mod_eq_of_lt hlt]⟩
  · rintro ⟨y, hy, rfl⟩
    exact ⟨y.isLt, by rwa [BitVec.ofNat_toNat, BitVec.setWidth_eq]⟩

theorem findsCodes_tableOrder {ct : CodeTable} {m : List Byte} (h : ∀ b ∈ m, ct.lenOf b.toNat ≠ 0) :
    FindsCodes ct m ((tableOrder ct (symbolsOf (presentSet m))).map (entryOf ct)) where
  sound buf e hfind := by
    obtain ⟨x, hx, rfl⟩ := List.mem_map.1 (List.mem_of_find?_eq_some hfind)
    obtain ⟨y, hy, rfl⟩ := (mem_tableOrder_presentSet h x).1 hx
    have hcode := List.find?_some hfind
    rw [Bool.and_eq_true, beq_iff_eq, beq_iff_eq] at hcode
    exact ⟨y, hy, eq_of_bitsVal_eq ((ct.codeBits_length _).trans hcode.1) hcode.2,
      by rw [entryOf, BitVec.ofNat_toNat, BitVec.setWidth_eq]⟩
  complete y hy hfind := by
    have hentry := List.mem_map_of_mem (f := entryOf ct) ((mem_tableOrder_presentSet h _).2 ⟨y, hy, rfl⟩)
    refine List.find?_eq_none.1 hfind _ hentry ?_
    simp only [entryOf, ct.codeBits_length, beq_self_eq_true, Bool.and_self]

section Payload

variable {p : Params} {ct : CodeTable} {m : List Byte} {entries : List Entry}
variable (hprefix : PrefixCode ct m) (hcodes : FindsCodes ct m entries)
include hprefix hcodes

/-- Bits that begin a code word of the message match that code word alone, and only when they are all of it. -/
theorem findEntry_of_prefix {b : Byte} (hb : b ∈ m) {buf rest : Bits} (h : ct.codeBits b.toNat = buf ++ rest)
    {e : Entry} (he : findEntry entries buf = some e) : rest = [] ∧ e.sym = b := by
  obtain ⟨y, hy, hbuf, hsym⟩ := hcodes.sound buf e he
  by_cases hyb : y = b
  · subst hyb
    rw [hbuf] at h
    exact ⟨List.self_eq_append_right.1 h, hsym⟩
  · exact absurd ⟨rest, by rw [hbuf, h]⟩ (hprefix y hy b hb hyb)

/-- The rest of a code word whose first bits are in `buf` gives its byte. -/
theorem readPayload_codeBits {b : Byte} (hb : b ∈ m) {out : List Byte} (hroom : out.length ≠ p.dstDepth) (ms : Nat)
    (bits : Bits) (code : Bits) (hne : code ≠ []) :
    ∀ (pos : Nat) {buf : Bits}, ct.codeBits b.toNat = buf ++ code →
      readPayload p entries pos ms buf out (code ++ bits) =
        readPayload p entries (pos + code.length) (pos + code.length) [] (out ++ [b]) bits := by
  induction code with
  | nil => exact absurd rfl hne
  | cons c code ih =>
    intro pos buf h
    rw [List.append_cons] at h
    rw [List.cons_append, readPayload]
    cases hfind : findEntry entries (buf ++ [c]) with
    | some e =>
      obtain ⟨rfl, hsym⟩ := findEntry_of_prefix hprefix hcodes hb h hfind
      simp only [if_neg hroom, hsym]
      rfl
    | none =>
      have hcode : code ≠ [] := by
        rintro rfl
        rw [List.append_nil] at h
        exact hcodes.complete b hb (h ▸ hfind)
      have hshort : (buf ++ [c]).length ≠ Config.maxCodeLen := by
        have hlen := congrArg List.length h
        have hlt := ct.lenOf_lt b.toNat
        have hpos := List.length_pos_iff.2 hcode
        rw [List.length_append, ct.codeBits_length] at hlen
        simp only [Config.maxCodeLen]
        omega
      simp only [if_neg hshort]
      rw [ih hcode (pos + 1) h, List.length_cons, Nat.add_right_comm, Nat.add_assoc]

/-- The payload of bytes of the message gives these bytes. -/
theorem readPayload_payloadBits (hlen : ∀ b ∈ m, ct.lenOf b.toNat ≠ 0) (l : List Byte) (hl : ∀ b ∈ l, b ∈ m) :
    ∀ (pos : Nat) {out : List Byte}, out.length + l.length ≤ p.dstDepth →
      readPayload p entries pos pos [] out (payloadBits ct l) = .ok (out ++ l) := by
  induction l with
  | nil => intro pos out _; rw [List.append_nil]; rfl
  | cons b l ih =>
    intro pos out hroom
    obtain ⟨hb, hrest⟩ := List.forall_mem_cons.1 hl
    have hne : ct.codeBits b.toNat ≠ [] := fun h => hlen b hb (by rw [← ct.codeBits_length, h]; rfl)
    rw [List.length_cons] at hroom
    rw [payloadBits, List.flatMap_cons, readPayload_codeBits hprefix hcodes hb (by omega) pos _ _ hne pos rfl,
      ← payloadBits, ih hrest _ (by rw [List.length_append, List.length_singleton]; omega), List.append_assoc]
    rfl

end Payload

/-! ## The whole stream -/

/-- What `Encode`'s `Ok` says (42_encode.md R211 to R226). -/
theorem encodeFn_eq_ok {p : Params} {ct : CodeTable} {m : List Byte} {n : Nat} {r : EncodeOk}
    (h : encodeFn p ct m n = .ok r) :
    n ≠ 0 ∧ (symbolsOf (presentSet m)).length ≤ Config.maxSymbols ∧
      (∀ b ∈ m, ct.isValid b.toNat = true ∧ ct.lenOf b.toNat ≠ 0) ∧ (streamOf ct m).length / 8 ≤ p.dstDepth ∧
      r = { bytes := bytesOfBits (streamOf ct m), height := maxLen ct (symbolsOf (presentSet m))
            numSymbols := (symbolsOf (presentSet m)).length
            padK := padCount (tableBits ct m ++ payloadBits ct m).length
            tableBits := (tableBits ct m).length, payloadBits := (payloadBits ct m).length } := by
  unfold encodeFn at h
  cases hlookup : lookupError ct 0 m with
  | some e =>
    simp only [hlookup] at h
    split_ifs at h
  | none =>
    simp only [hlookup] at h
    split_ifs at h with hsrc hzero halpha hdst
    exact ⟨hzero, Nat.not_lt.1 halpha, mapped_of_lookupError_eq_none 0 m hlookup, Nat.not_lt.1 hdst,
      (Except.ok.inj h).symm⟩

/-- A message that is not empty has a symbol. -/
theorem symbolsOf_presentSet_ne_nil {m : List Byte} (h : m ≠ []) : symbolsOf (presentSet m) ≠ [] := by
  obtain ⟨b, hb⟩ := List.exists_mem_of_ne_nil m h
  rw [symbolsOf_presentSet]
  refine List.ne_nil_of_mem (a := b.toNat) (List.mem_filter.2 ⟨List.mem_range.2 b.isLt, ?_⟩)
  rwa [BitVec.ofNat_toNat, BitVec.setWidth_eq, decide_eq_true_eq]

/-- The stream's bytes: three of header, then the body with its padding (30_encoding.md R105). -/
theorem bytesOfBits_streamOf (ct : CodeTable) (m : List Byte) {body : Bits}
    (hbody : tableBits ct m ++ payloadBits ct m = body) :
    bytesOfBits (streamOf ct m) = BitVec.ofNat 8 (maxLen ct (symbolsOf (presentSet m))) ::
      BitVec.ofNat 8 (symbolsOf (presentSet m)).length :: markerByte (padCount body.length) ::
        bytesOfBits (body ++ List.replicate (padCount body.length) true) := by
  simp only [streamOf, hbody]
  rw [List.append_assoc, List.append_assoc, List.append_assoc, bytesOfBits_bits8_append, bytesOfBits_bits8_append,
    bytesOfBits_bits8_append]

/-- Table and payload of `Encode` decode to the entries of the symbols and to the message. -/
theorem decodeBody_of_encode (p : Params) {ct : CodeTable} {m : List Byte} (hprefix : PrefixCode ct m)
    (hlen : ∀ b ∈ m, ct.lenOf b.toNat ≠ 0) (hdst : m.length ≤ p.dstDepth) (height ns : Byte) (k : Nat)
    (hns : ns.toNat = (symbolsOf (presentSet m)).length) :
    decodeBody p height ns k (tableBits ct m ++ payloadBits ct m) =
      .ok { out := m, entries := (tableOrder ct (symbolsOf (presentSet m))).map (entryOf ct), height := height
            numSymbols := ns, padK := k, tableBits := (tableBits ct m).length
            payloadBits := (payloadBits ct m).length } := by
  have horder := (tableOrder_perm ct (symbolsOf_nodup _) (lenOf_ne_zero_of_present hlen)).length_eq
  have htable := readEntries_flatMap_entryBits ct (tableOrder ct (symbolsOf (presentSet m))) (payloadBits ct m) 24 []
  rw [← tableBits, horder, ← hns, List.nil_append] at htable
  have hpayload (pos : Nat) := readPayload_payloadBits (p := p) hprefix (findsCodes_tableOrder hlen) hlen m
    (fun _ hb => hb) pos (out := []) (by rwa [List.length_nil, Nat.zero_add])
  simp only [decodeBody, htable, hpayload, List.length_append, Nat.add_sub_cancel, List.nil_append]

/-- `Decode` of a stream of `Encode` is the message, with the entries of its symbols and the values `Encode` gave
(R272). -/
theorem decodeFn_of_encodeFn {p p' : Params} {ct : CodeTable} {m : List Byte} {r : EncodeOk}
    (h : encodeFn p ct m m.length = .ok r) (hprefix : PrefixCode ct m) (hsrc : r.bytes.length ≤ p'.srcDepth)
    (hdst : m.length ≤ p'.dstDepth) :
    decodeFn p' r.bytes r.bytes.length =
      .ok { out := m, entries := (tableOrder ct (symbolsOf (presentSet m))).map (entryOf ct)
            height := BitVec.ofNat 8 r.height, numSymbols := BitVec.ofNat 8 r.numSymbols, padK := r.padK
            tableBits := r.tableBits, payloadBits := r.payloadBits } := by
  obtain ⟨hne, hmax, hmapped, -, rfl⟩ := encodeFn_eq_ok h
  have hpos := List.length_pos_iff.2 (symbolsOf_presentSet_ne_nil (List.ne_nil_of_length_pos (Nat.pos_of_ne_zero hne)))
  have hns : (BitVec.ofNat 8 (symbolsOf (presentSet m)).length).toNat = (symbolsOf (presentSet m)).length := by
    rw [BitVec.toNat_ofNat]
    exact Nat.mod_eq_of_lt (Nat.lt_succ_of_le hmax)
  have hns0 : BitVec.ofNat 8 (symbolsOf (presentSet m)).length ≠ 0#8 := fun h0 => by
    rw [h0] at hns
    exact hpos.ne hns
  have hdecode := decodeBody_of_encode p' hprefix (fun b hb => (hmapped b hb).2) hdst
  simp only [bytesOfBits_streamOf ct m rfl] at hsrc ⊢
  generalize tableBits ct m ++ payloadBits ct m = body at hsrc hdecode ⊢
  have hwhole : (body ++ List.replicate (padCount body.length) true).length % 8 = 0 := by
    rw [List.length_append, List.length_replicate]
    exact add_padCount_mod _
  have hcount : 8 * (bytesOfBits (body ++ List.replicate (padCount body.length) true)).length =
      body.length + padCount body.length := by
    rw [bytesOfBits_length]
    rw [List.length_append, List.length_replicate] at hwhole ⊢
    omega
  rw [List.length_cons, List.length_cons, List.length_cons] at hsrc ⊢
  rw [decodeFn_of_header p' _ _ _ (padCount_le _) (by omega) hns0 hsrc, hcount, Nat.add_sub_cancel,
    flatMap_bits8_bytesOfBits _ hwhole, List.take_left' rfl, hdecode _ _ _ hns]

end Sys2Proof.Machine
end

section
/-! PROOF. Encoding and decoding on the block: what a run of ENCODE leaves, and DECODE on a block whose SRC holds it
(43_decode.md R272). -/

namespace Sys2Proof.Machine

variable {s : State}

/-! ## What a command comes to -/

theorem Runs.unique {k : Nat} {s t u : State} (ht : Runs k s t) (hu : Runs k s u) : t = u :=
  Host.Outcome.next.inj (ht.symm.trans hu)

theorem lookupError_code_ne_none {ct : CodeTable} {e : EngineError} (m : List Byte) :
    ∀ {i : Nat}, lookupError ct i m = some e → e.code ≠ .none := by
  induction m with
  | nil => exact nofun
  | cons b m ih =>
    intro i h
    cases hv : ct.isValid b.toNat with
    | false =>
      rw [lookupError_cons_unmapped i m hv] at h
      rw [← Option.some.inj h]
      exact ErrorCode.noConfusion
    | true =>
      by_cases hl : ct.lenOf b.toNat = 0
      · rw [lookupError_cons_empty i m hv hl] at h
        rw [← Option.some.inj h]
        exact ErrorCode.noConfusion
      · rw [lookupError_cons_mapped i m hv hl] at h
        exact ih h

/-- No error of `Encode` has the code that says there is none (60_exceptions.md R291). -/
theorem encodeFn_code_ne_none {p : Params} {ct : CodeTable} {m : List Byte} {n : Nat} {e : EngineError}
    (h : encodeFn p ct m n = .error e) : e.code ≠ .none := by
  unfold encodeFn at h
  cases hlookup : lookupError ct 0 m with
  | some e' =>
    simp only [hlookup] at h
    split_ifs at h <;> rw [← Except.error.inj h]
    · exact ErrorCode.noConfusion
    · exact ErrorCode.noConfusion
    · exact ErrorCode.noConfusion
    · exact lookupError_code_ne_none m hlookup
  | none =>
    simp only [hlookup] at h
    split_ifs at h <;> rw [← Except.error.inj h] <;> exact ErrorCode.noConfusion

theorem Params.dstDepth_ok {p : Params} (h : p.ok = true) :
    p.dstDepth % 4 = 0 ∧ 4 ≤ p.dstDepth ∧ p.dstDepth ≤ 2 ^ 20 := by
  simp only [Params.ok, Bool.and_eq_true] at h
  exact (depthOk_iff _).1 h.1.2

/-- A run of ENCODE that ends without error ends in the completion of `Encode`'s `Ok`. -/
theorem encode_ends_ok {s s1 t : State} (hok : s.params.ok = true) (hidle : s.busy = false)
    (hinputs : s.port.inputs = []) (hexec : exec .encode s = .next s1) (hrun : Runs s.params.engineSteps s1 t)
    (herr : t.regs.errorCode = .none) :
    ∃ r, s.encodeOutcome = .ok r ∧ t = s1.commitEncode (.ok r) := by
  obtain ⟨s1', hexec', hrun'⟩ := encodeRunsToEncodeOutcome s hok hidle hinputs
  obtain rfl : s1 = s1' := Host.Outcome.next.inj (hexec.symm.trans hexec')
  obtain rfl := hrun.unique hrun'
  cases ho : s.encodeOutcome with
  | ok r => exact ⟨r, rfl, rfl⟩
  | error e =>
    rw [ho] at herr
    exact absurd herr (encodeFn_code_ne_none ho)

/-- The first SRC_LEN bytes of SRC, by their bytes. -/
theorem State.message_eq {l : List Byte} (hlen : s.regs.srcLen.toNat = l.length)
    (h : ∀ (i : Nat) (hi : i < l.length), s.src.read i = l[i]) : s.message = l := by
  refine List.ext_getElem ((s.src.readList_length _ 0).trans hlen) fun i hi hil => ?_
  rw [← h i hil]
  simp only [State.message, Memory.readList_getElem, Nat.zero_add]

/-- Bytes written from place 0 on that fit the memory are there. -/
theorem Memory.read_writeList_zero {size : Nat} (m : Memory 8) {l : List Byte} (hfit : l.length ≤ size) {i : Nat}
    (hi : i < l.length) : (m.writeList size 0 l).read i = l[i] := by
  rw [Memory.read_writeList, dif_pos ⟨Nat.zero_le i, by omega, by omega⟩]
  rfl

/-- Settles O33: ENCODE's run leaves `Encode`'s bytes, so DECODE's run comes to `Decode` of them, which is the
message. -/
theorem encodeThenDecodeOnTheBlock : Obligations.EncodeThenDecodeOnTheBlock := by
  intro s s1 t u hok hidle hinputs hexec hrun herr hprefix huok huidle huinputs hsrcLen hsrc hdst hcopy
  obtain ⟨r, ho, rfl⟩ := encode_ends_ok hok hidle hinputs hexec hrun herr
  rw [exec_encode, State.issue_idle hidle] at hexec
  obtain rfl := Host.Outcome.next.inj hexec
  have hmlen : s.message.length = s.regs.srcLen.toNat := Memory.readList_length _ _ _
  have hencode : encodeFn s.params s.ct s.message s.message.length = .ok r := by rw [hmlen]; exact ho
  have hfit : r.bytes.length ≤ s.params.dstDepth := by
    obtain ⟨-, -, -, hdstFit, rfl⟩ := encodeFn_eq_ok hencode
    rwa [bytesOfBits_length]
  have hlen : r.results.dstLen.toNat = r.bytes.length := by
    have hdepth := (Params.dstDepth_ok hok).2.2
    exact (BitVec.toNat_ofNat _ _).trans (Nat.mod_eq_of_lt (by omega))
  have hulen : u.regs.srcLen.toNat = r.bytes.length := by rw [hsrcLen]; exact hlen
  have hmessage : u.message = r.bytes := State.message_eq hulen fun i hi =>
    (hcopy i (hlen.symm ▸ hi)).trans (s.dst.read_writeList_zero hfit hi)
  have hdecode := decodeFn_of_encodeFn (p' := u.params) hencode hprefix (hlen ▸ hsrc) (hmlen ▸ hdst)
  have huo : u.decodeOutcome = decodeFn u.params r.bytes r.bytes.length := by
    rw [State.decodeOutcome, hmessage, hulen]
  obtain ⟨u1, huexec, hurun⟩ := decodeRunsToDecodeOutcome u huok huidle huinputs
  have hu1 := huexec
  rw [exec_decode, State.issue_idle huidle] at hu1
  obtain rfl := Host.Outcome.next.inj hu1
  rw [huo, hdecode] at hurun
  refine ⟨_, _, huexec, hurun, rfl, rfl, rfl, rfl, fun i hi => ?_, ?_⟩
  · have hi' : i < s.message.length := hmlen.symm ▸ hi
    refine (u.dst.read_writeList_zero (hmlen ▸ hdst) hi').trans ?_
    simp only [State.message, Memory.readList_getElem, Nat.zero_add]
  · have hback : Word.ofNat s.message.length = s.regs.srcLen := by
      rw [hmlen, Word.ofNat, BitVec.ofNat_toNat, BitVec.setWidth_eq]
    rw [← hback]
    rfl

end Sys2Proof.Machine
end

section
/-! PROOF. What the block refuses: a message with every byte value (60_exceptions.md R293), and a transaction answered
BUSERR (R301, 20_memory.md R72 to R74). -/

namespace Sys2Proof.Machine

variable {s : State} {p : Params} {off bytes : Nat} {r : Region}

/-! ## The alphabet check -/

/-- Every byte of `SRC[0..SRC_LEN)` is in the message. -/
theorem State.read_mem_message {i : Nat} (h : i < s.regs.srcLen.toNat) : s.src.read i ∈ s.message := by
  rw [State.message_eq_append h]
  exact List.mem_append_right _ List.mem_cons_self

/-- A message that lacks no byte value has all 256 of them as symbols (42_encode.md R212). -/
theorem length_symbolsOf_presentSet_eq {m : List Byte} (h : ∀ b, b ∈ m) :
    (symbolsOf (presentSet m)).length = Config.ctEntries := by
  have hall : ((List.range 256).filter fun x => BitVec.ofNat 8 x ∈ m) = List.range 256 :=
    List.filter_eq_self.2 fun x _ => decide_eq_true (h _)
  rw [symbolsOf_presentSet, hall, List.length_range]

/-- Settles O22: the alphabet check comes before the first look at CT. -/
theorem encodeAlphabetOverflow : Obligations.EncodeAlphabetOverflow := by
  intro s hp hl hsrc hall
  have hmem : ∀ b, b ∈ s.message := fun b => by
    obtain ⟨i, hi, rfl⟩ := hall b
    exact State.read_mem_message hi
  have hne : s.regs.srcLen.toNat ≠ 0 := by
    obtain ⟨i, hi, -⟩ := hall 0
    exact Nat.ne_zero_of_lt hi
  have hsym : s.scanned.nSym = Config.ctEntries := length_symbolsOf_presentSet_eq hmem
  have hover : Config.maxSymbols < s.scanned.nSym := by rw [hsym]; decide
  exact State.raises_of_encScan hp hl (by rw [State.encScan, if_neg (Nat.not_lt.2 hsrc), if_neg hne, if_pos hover])

/-! ## Which transactions access a word -/

theorem accessOf_eq_none_iff :
    accessOf p off bytes = none ↔ bytes ≠ 4 ∨ off % 4 ≠ 0 ∨ regionOf p off = none := by
  unfold accessOf
  split_ifs with h
  · simp [h.1, h.2]
  · exact iff_of_true rfl ((not_and_or.1 h).imp_right .inl)

theorem regionOf_of_accessOf (h : accessOf p off bytes = some r) : regionOf p off = some r := by
  unfold accessOf at h
  split_ifs at h
  exact h

/-- Every offset of DT's range, aligned or not, lies in DT (20_memory.md R71). -/
theorem regionOf_dtRange (hlo : 0x020000 ≤ off) (hhi : off < 0x023FC0) : ∃ e w, regionOf p off = some (.dt e w) := by
  unfold regionOf
  rw [if_neg (by omega), if_neg (by omega), if_pos ⟨hlo, hhi⟩]
  exact ⟨_, _, rfl⟩

/-! ## A step answered BUSERR -/

/-- A read that accesses no word changes nothing but the response. -/
theorem step_read_busErr (hoff : off < Config.addressSpace) (ha : accessOf s.params off bytes = none) :
    step (s.withEvent (.host (.rd (s.params.hbcBase + off) bytes))) = .next (s.answered .busErr (some 0)) := by
  rw [step_read s bytes hoff, State.hostRead, State.released_params, ha]
  rfl

/-- A write that accesses no word, or one of DT, is no command and changes nothing but the response. -/
theorem step_write_busErr (v : Word) (hoff : off < Config.addressSpace)
    (ha : ∀ r, accessOf s.params off bytes = some r → ∃ e w, r = .dt e w) :
    step (s.withEvent (.host (.wr (s.params.hbcBase + off) bytes v))) = .next (s.answered .busErr none) := by
  have hctrl : ¬ (off = ctrlOffset ∧ bytes = 4) := by
    rintro ⟨rfl, rfl⟩
    obtain ⟨e, w, hdt⟩ := ha (.reg ctrlOffset) rfl
    cases hdt
  rw [step_write s bytes v hoff hctrl, State.hostWrite, State.released_params]
  cases hacc : accessOf s.params off bytes with
  | none => rfl
  | some r =>
    obtain ⟨e, w, rfl⟩ := ha r hacc
    rfl

/-- Settles O38: the first three causes access no word; a write in DT's range accesses none or one of DT. -/
theorem busErrorsChangeNothing : Obligations.BusErrorsChangeNothing := by
  intro s off bytes v hoff
  refine ⟨fun hcause => ?_, fun hlo hhi => ?_⟩
  · have hnone : accessOf s.params off bytes = none := accessOf_eq_none_iff.2 hcause
    exact ⟨step_read_busErr hoff hnone, step_write_busErr v hoff fun r hr => by rw [hnone] at hr; cases hr⟩
  · refine step_write_busErr v hoff fun r hr => ?_
    obtain ⟨e, w, hdt⟩ := regionOf_dtRange (p := s.params) hlo hhi
    exact ⟨e, w, Option.some.inj ((regionOf_of_accessOf hr).symm.trans hdt)⟩

end Sys2Proof.Machine
end

section
/-! PROOF. Reset, by SRESET and by the assertion of `rst`: both lead to `State.resetEffect`, which holds the values of
10_state.md R53 and takes its ANY contents from draws not taken before (70_reset_and_hazards.md R330, R331). -/

namespace Sys2Proof.Machine

variable {s : State}

/-! ## The events that reset -/

theorem exec_sreset (s : State) : exec .sreset s = .next s.resetEffect := rfl

/-- The assertion of `rst` is the reset, with the event taken off the list and `rst` recorded (R330). -/
theorem step_rst_assert {rest : List Input} (h : s.port.inputs = .rst true :: rest) :
    step s = .next (s.resetEffect.withPort { s.port with rst := true, inputs := rest }) := by
  simp only [step, State.turn_cons h, State.inputTurn, State.rstTurn, if_true]
  rfl

/-! ## What reset leaves -/

theorem State.resetEffect_regs (s : State) : s.resetEffect.regs = Regs.reset := rfl

theorem State.resetEffect_statusWord (s : State) : s.resetEffect.statusWord = 0 := by
  rw [State.statusWord, State.resetEffect_busy, State.resetEffect_regs]
  decide

theorem State.resetEffect_errorWord (s : State) : s.resetEffect.regs.errorWord = 0 := by
  rw [State.resetEffect_regs]
  decide

theorem State.resetEffect_irq (s : State) : s.resetEffect.irq = false := by
  rw [State.irq, State.resetEffect_regs]
  decide

theorem CodeTable.isValid_reset (draw x : Nat) : (CodeTable.reset draw).isValid x = false := by
  rw [CodeTable.isValid, show (CodeTable.reset draw).valid.read x = 0#1 from rfl, BitVec.getLsbD_zero]

theorem DecodeTable.isValid_reset (draw e : Nat) : (DecodeTable.reset draw).isValid e = false := by
  rw [DecodeTable.isValid, show (DecodeTable.reset draw).valid.read e = 0#1 from rfl, BitVec.getLsbD_zero]

/-- The draws of the ANY contents: draw `s.draw` is the engine's, the seven after it are the memories'. -/
theorem State.resetEffect_draws (s : State) :
    let ds := (List.range 7).map (s.draw + 1 + ·)
    ds.Nodup ∧ ∀ d ∈ ds, s.draw ≤ d ∧ d < s.resetEffect.draw := by
  refine ⟨List.nodup_range.map fun i j h => Nat.add_left_cancel h, fun d hd => ?_⟩
  obtain ⟨i, hi, rfl⟩ := List.mem_map.1 hd
  rw [List.mem_range] at hi
  have hdraw : s.resetEffect.draw = s.draw + 8 := rfl
  rw [hdraw]
  omega

/-- Settles O12: both events give `State.resetEffect`, whatever the port then holds. -/
theorem resetEffectOfSresetAndRst : Obligations.ResetEffectOfSresetAndRst := by
  intro s isReset
  obtain ⟨hnodup, hfresh⟩ := s.resetEffect_draws
  have hreset (p : Port) : isReset (s.resetEffect.withPort p) :=
    ⟨s.resetEffect_statusWord, s.resetEffect_errorWord, rfl, rfl, rfl, rfl, s.resetEffect_irq, rfl,
      CodeTable.isValid_reset _, DecodeTable.isValid_reset _,
      ⟨_, _, _, _, _, _, _, hnodup, hfresh, rfl, rfl, rfl, rfl, rfl, rfl, rfl⟩, rfl⟩
  exact ⟨⟨s.resetEffect, exec_sreset s, hreset s.port, rfl⟩, fun rest h => ⟨_, step_rst_assert h, hreset _, rfl⟩⟩

end Sys2Proof.Machine
end

section
/-! PROOF. Round trips: a command word decodes to its instruction, a stream to its message (30_encoding.md R101 to R104,
43_decode.md R272). -/

namespace Sys2Proof.Machine

/-- Settles O32: it is `decodeFn_of_encodeFn`, value by value. -/
theorem decodeUndoesEncode : Obligations.DecodeUndoesEncode := by
  intro p p' ct m r h hprefix hsrc hdst
  exact ⟨_, decodeFn_of_encodeFn h hprefix hsrc hdst, rfl, rfl, rfl, rfl, rfl, rfl⟩

/-- A reserved command's word keeps its CMD: the eight CMD values, of which 1xx are the reserved ones. -/
theorem decode_encode_reservedCmd (cmd : BitVec 3) (h : cmd.getLsbD 2 = true) :
    decode (encode (.reservedCmd cmd)) = .reservedCmd cmd := by
  decide +revert

/-- Settles O1: one word for each row but RESERVED_CMD, which has four. -/
theorem decodeInvertsEncode : Obligations.DecodeInvertsEncode := by
  intro i hi
  cases i with
  | reservedCmd cmd => exact decode_encode_reservedCmd cmd hi
  | nop => decide
  | encode => decide
  | decode => decide
  | clearTable => decide
  | sreset => decide

/-- Settles O4: eleven fixed words, evaluated. -/
theorem vectorWordsDecode : Obligations.VectorWordsDecode := by
  unfold Obligations.VectorWordsDecode
  decide

end Sys2Proof.Machine
end

section
/-! PROOF. What a step can be: one case per kind of event, with what it says of the waiting list (10_state.md R20,
40_host_access.md R140 to R162, 70_reset_and_hazards.md R330). -/

namespace Sys2Proof.Machine

variable {s : State}

/-- The next event is a host word write of `v` at byte offset `off` of the block, which the block answers. -/
def State.WriteNext (s : State) (off : Nat) (v : Word) : Prop :=
  ∃ rest addr, s.port.inputs = .host (.wr addr 4 v) :: rest ∧ s.port.rst = false ∧ offsetOf s.params addr = some off

/-- The command numbers that start a command, each with its first phase (40_host_access.md R154 to R156). -/
inductive Phase.StartOf : BitVec 3 → Phase → Prop where
  | encode : Phase.StartOf 1#3 .encScan
  | decode : Phase.StartOf 2#3 .decHeader
  | clear : Phase.StartOf 3#3 .clear

/-- What a step can answer. `p` is the port the step leaves, or finds on its way: its list of events is what is left of
the waiting ones. -/
inductive State.Moves (s : State) : Host.Outcome State Fault Refusal → Prop where
  /-- Only the port and the draw counter change: reads, bus errors, ignored writes, NOP, the release of `rst`, a turn of
  an idle engine, a transaction that is not answered. -/
  | quiet (p : Port) (n : Nat) (hp : p.inputs = s.port.inputs.tail) (hn : s.draw ≤ n) :
      s.Moves (.next ((s.withPort p).withDraw n))
  | reset (p : Port) (hp : p.inputs = s.port.inputs.tail) (h : s.ResetNext) :
      s.Moves (.next (s.resetEffect.withPort p))
  | engine (p : Port) (hp : p.inputs = s.port.inputs.tail) (h : s.EngineNext) :
      s.Moves (s.withPort p).engineStep
  | drop (p : Port) (hp : p.inputs = s.port.inputs.tail) (hb : s.busy = true) (off : Nat) (v : Word)
      (h : s.WriteNext off v) : s.Moves (.next (s.withPort p).reject)
  | start (p : Port) (hp : p.inputs = s.port.inputs.tail) (hb : s.busy = false) (v : Word)
      (h : s.WriteNext ctrlOffset v) (c : BitVec 3) (ph : Phase) (hc : Phase.StartOf c ph) :
      s.Moves (.next ((s.withPort p).startCommand c ph))
  | refuse (p : Port) (hp : p.inputs = s.port.inputs.tail) (hb : s.busy = false) (v : Word)
      (h : s.WriteNext ctrlOffset v) (c : BitVec 3) : s.Moves (.next ((s.withPort p).refuseReserved c))
  | write (p : Port) (hp : p.inputs = s.port.inputs.tail) (off : Nat) (v : Word) (r : Region)
      (h : s.WriteNext off v) (hr : regionOf s.params off = some r) (hg : (r.busyGuarded && s.busy) = false) :
      s.Moves (.next ((s.withPort p).writeRegion v r))

/-! ## The parts of a step -/

@[simp] theorem State.withPort_busy (s : State) (p : Port) : (s.withPort p).busy = s.busy := rfl

theorem decodeBits_word (v : Word) : decodeBits 32 v.toNat = .ok (Sys2Proof.decode v) := by
  rw [decodeBits, if_pos (Nat.le_refl 32), Nat.mod_eq_of_lt v.isLt, BitVec.ofNat_toNat, BitVec.setWidth_eq]

theorem step_of_command {v : Word} {u : State} (h : s.turn = .command v u) :
    step s = exec (Sys2Proof.decode v) u := by
  simp only [step, h, decodeBits_word]

theorem step_of_engine {u : State} (h : s.turn = .engine u) : step s = u.engineStep := by
  simp only [step, h]

theorem step_of_done {u : State} (h : s.turn = .done u) : step s = .next u := by
  simp only [step, h]

/-- A read changes the response and takes at most one draw (20_memory.md R80). -/
theorem State.hostRead_frame (s : State) (off bytes : Nat) :
    ∃ st d n, s.hostRead off bytes = (s.respond st (some d)).withDraw n ∧ s.draw ≤ n := by
  unfold State.hostRead
  cases accessOf s.params off bytes with
  | none => exact ⟨_, _, s.draw, rfl, le_refl _⟩
  | some r =>
    obtain ⟨d, h, hn⟩ := s.answer_frame (s.readRegion r)
    exact ⟨_, d, _, h, hn⟩

/-- A write that is no command is answered without effect, is dropped, or takes effect in its region (R142, R143). -/
theorem State.hostWrite_cases (s : State) (off bytes : Nat) (v : Word) :
    (∃ st, s.hostWrite off bytes v = s.respond st none) ∨
    (bytes = 4 ∧ s.busy = true ∧ s.hostWrite off bytes v = s.reject.okay) ∨
    ∃ r, bytes = 4 ∧ regionOf s.params off = some r ∧ (r.busyGuarded && s.busy) = false ∧
      s.hostWrite off bytes v = (s.writeRegion v r).okay := by
  cases ha : accessOf s.params off bytes with
  | none => exact .inl ⟨.busErr, by simp only [State.hostWrite, ha]⟩
  | some r =>
    have hb : bytes = 4 := by
      by_contra hne
      rw [accessOf_eq_none_iff.2 (.inl hne)] at ha
      cases ha
    subst hb
    by_cases hdt : ∃ e w, r = .dt e w
    · obtain ⟨e, w, rfl⟩ := hdt
      exact .inl ⟨.busErr, by simp only [State.hostWrite, ha]⟩
    have hne : ∀ e w, r ≠ .dt e w := fun e w h => hdt ⟨e, w, h⟩
    cases hg : r.busyGuarded && s.busy with
    | false => exact .inr (.inr ⟨r, rfl, regionOf_of_accessOf ha, hg, s.hostWrite_of_region v ha hne hg⟩)
    | true =>
      refine .inr (.inl ⟨rfl, (Bool.and_eq_true_iff.1 hg).2, ?_⟩)
      cases r with
      | dt e w => exact absurd rfl (hne e w)
      | reg | ct | src | dst => simp only [State.hostWrite, ha, hg, if_true]

/-- A write's effect in its region does not meet the port. -/
theorem State.withPort_writeRegion (s : State) (p : Port) (v : Word) (r : Region) :
    (s.writeRegion v r).withPort p = (s.withPort p).writeRegion v r := by
  cases r with
  | reg off => simp only [State.writeRegion]; split_ifs <;> rfl
  | ct | dt | src | dst => rfl

section WriteRegion

variable (s : State) (v : Word) (r : Region)

theorem State.writeRegion_params : (s.writeRegion v r).params = s.params := (s.writeRegion_frame v r).1

theorem State.writeRegion_dt : (s.writeRegion v r).dt = s.dt := (s.writeRegion_frame v r).2.1

theorem State.writeRegion_engine : (s.writeRegion v r).engine = s.engine := (s.writeRegion_frame v r).2.2.1

theorem State.writeRegion_port : (s.writeRegion v r).port = s.port := (s.writeRegion_frame v r).2.2.2.1

end WriteRegion

/-! ## The cases of a step -/

/-- A turn of the engine (40_host_access.md R162, 60_exceptions.md R315). -/
theorem State.moves_of_engineTurn {p : Port} (hp : p.inputs = s.port.inputs.tail)
    (hev : s.port.inputs = [] ∨ ∃ rest, s.port.inputs = .engine :: rest)
    (h : s.turn = (s.withPort p).engineTurn) : s.Moves (step s) := by
  unfold State.engineTurn at h
  cases hb : s.busy with
  | true =>
    rw [State.withPort_busy, hb, if_pos rfl] at h
    rw [step_of_engine h]
    exact .engine p hp ⟨hb, hev⟩
  | false =>
    rw [State.withPort_busy, hb, if_neg Bool.false_ne_true] at h
    rw [step_of_done h]
    exact .quiet p s.draw hp (le_refl _)

/-- A command word (R152): by the fields of the word. -/
theorem State.moves_of_command {p : Port} {v : Word} (hp : p.inputs = s.port.inputs.tail)
    (hw : s.WriteNext ctrlOffset v) : s.Moves (exec (Sys2Proof.decode v) (s.withPort p)) := by
  have hissue {c : BitVec 3} {ph : Phase} (hc : Phase.StartOf c ph) :
      s.Moves (.next ((s.withPort p).issue c ph)) := by
    cases hb : s.busy with
    | true => rw [State.issue_busy (s := s.withPort p) hb]; exact .drop p hp hb _ v hw
    | false => rw [State.issue_idle (s := s.withPort p) hb]; exact .start p hp hb v hw c ph hc
  cases hi : Sys2Proof.decode v with
  | nop => exact .quiet p s.draw hp (le_refl _)
  | encode => exact hissue .encode
  | decode => exact hissue .decode
  | clearTable => exact hissue .clear
  | reservedCmd c =>
    cases hb : s.busy with
    | true => rw [exec_reservedCmd_busy (s := s.withPort p) hb]; exact .drop p hp hb _ v hw
    | false => rw [exec_reservedCmd_idle (s := s.withPort p) hb]; exact .refuse p hp hb v hw c
  | sreset =>
    obtain ⟨rest, addr, hin, hrst, hoff⟩ := hw
    refine .reset p hp (.inr ⟨rest, addr, v, hin, hrst, hoff, ?_⟩)
    by_contra hbit
    rw [Sys2Proof.decode, if_neg hbit, decodeCmd] at hi
    split_ifs at hi

/-- The turn of a host transaction: it is not answered, it is a read, or it is a write at an offset of the block. -/
theorem State.hostTurn_trichotomy (s : State) (x : HostTxn) :
    s.hostTurn x = .done (s.withPort { s.port with response := none }) ∨
    (∃ off bytes, s.hostTurn x = .done (s.hostRead off bytes)) ∨
    ∃ addr bytes v off, x = .wr addr bytes v ∧ s.port.rst = false ∧ offsetOf s.params addr = some off ∧
      s.hostTurn x = if off = ctrlOffset ∧ bytes = 4 then .command v s.okay else .done (s.hostWrite off bytes v) := by
  unfold State.hostTurn
  by_cases hrst : s.port.rst = true
  · exact .inl (if_pos hrst)
  rw [if_neg hrst]
  cases x with
  | rd addr bytes =>
    cases ho : offsetOf s.params addr with
    | none => exact .inl (by simp only [ho])
    | some off => exact .inr (.inl ⟨off, bytes, by simp only [ho]⟩)
  | wr addr bytes v =>
    cases ho : offsetOf s.params addr with
    | none => exact .inl (by simp only [ho])
    | some off => exact .inr (.inr ⟨addr, bytes, v, off, rfl, eq_false_of_ne_true hrst, ho, by simp only [ho]⟩)

/-- A host transaction (R140): a command, or done at once. -/
theorem State.moves_of_host {x : HostTxn} {rest : List Input} (h : s.port.inputs = .host x :: rest) :
    s.Moves (step s) := by
  have hturn := State.turn_cons h
  rw [State.inputTurn] at hturn
  have htail : rest = s.port.inputs.tail := by rw [h, List.tail_cons]
  generalize hu : s.withPort { s.port with inputs := rest } = u at hturn
  rcases u.hostTurn_trichotomy x with hx | ⟨off, bytes, hx⟩ | ⟨addr, bytes, v, off, rfl, hrst, hoff, hx⟩ <;>
    rw [hx] at hturn
  · rw [step_of_done hturn, ← hu]
    exact .quiet { s.port with inputs := rest, response := none } s.draw htail (le_refl _)
  · obtain ⟨st, d, n, hread, hn⟩ := u.hostRead_frame off bytes
    rw [step_of_done hturn, hread, ← hu]
    rw [← hu] at hn
    exact .quiet _ n htail hn
  · subst hu
    have hnext (hb : bytes = 4) : s.WriteNext off v := ⟨rest, addr, hb ▸ h, hrst, hoff⟩
    by_cases hc : off = ctrlOffset ∧ bytes = 4
    · obtain ⟨rfl, rfl⟩ := hc
      rw [if_pos ⟨rfl, rfl⟩] at hturn
      rw [step_of_command hturn]
      exact State.moves_of_command (p := State.port (State.okay _)) htail (hnext rfl)
    · rw [if_neg hc] at hturn
      rw [step_of_done hturn]
      rcases State.hostWrite_cases _ off bytes v with ⟨st, hwr⟩ | ⟨rfl, hb, hwr⟩ | ⟨r, rfl, hr, hg, hwr⟩
      · rw [hwr]
        exact .quiet { s.port with inputs := rest, response := some ⟨st, none⟩ } s.draw htail (le_refl _)
      · rw [hwr]
        exact .drop (s := s) { s.port with inputs := rest, response := some ⟨.okay, none⟩ } htail hb off v (hnext rfl)
      · rw [hwr, State.okay, State.respond, State.withPort_writeRegion, State.writeRegion_port]
        exact .write _ htail off v r (hnext rfl) hr hg

/-- Every step is one of the moves. -/
theorem step_moves (s : State) : s.Moves (step s) := by
  cases h : s.port.inputs with
  | nil => exact State.moves_of_engineTurn (p := s.port) (by rw [h]; rfl) (.inl h) (State.turn_nil h)
  | cons i rest =>
    have htail : rest = s.port.inputs.tail := by rw [h, List.tail_cons]
    cases i with
    | host x => exact State.moves_of_host h
    | engine => exact State.moves_of_engineTurn htail (.inr ⟨rest, h⟩) (State.turn_cons h)
    | rst b =>
      cases b with
      | true =>
        rw [step_rst_assert h]
        exact .reset { s.port with rst := true, inputs := rest } htail (.inl ⟨rest, h⟩)
      | false =>
        rw [step_of_done (State.turn_cons h)]
        exact .quiet { s.port with rst := false, inputs := rest } s.draw htail (le_refl _)

end Sys2Proof.Machine
end

section
/-! PROOF. Whole-machine rules: what no step changes, and which event alone changes REJ, DT and SRC (10_state.md R33,
R45, 40_host_access.md R148, 70_reset_and_hazards.md R342). -/

namespace Sys2Proof.Machine

variable {s t : State}

/-! ## What the engine never changes -/

/-- What no phase of a command changes: the parameters, REJ and SRC, and DT unless DECODE runs. -/
structure State.EngineKeeps (s t : State) : Prop where
  params : t.params = s.params
  rej : t.regs.rej = s.regs.rej
  src : t.src = s.src
  dt : s.engine.phase.decoding = false → t.dt = s.dt

theorem State.EngineKeeps.of_packed (h : s.Packed t) : s.EngineKeeps t :=
  ⟨h.same.params, congrArg Regs.rej h.same.regs, h.same.src, fun _ => h.dt⟩

theorem State.EngineKeeps.of_decoding (hs : s.engine.phase.decoding = true) (h : s.SameInputs t) : s.EngineKeeps t :=
  ⟨h.params, congrArg Regs.rej h.regs, h.src, fun hd => absurd (hs.symm.trans hd) Bool.noConfusion⟩

/-- The result of a phase keeps what the engine keeps, and a command does not turn into another one. -/
def PhaseResult.Keeps (s : State) : PhaseResult → Prop
  | .goOn t => s.EngineKeeps t ∧ t.engine.phase.decoding = s.engine.phase.decoding
  | .finish _ t => s.EngineKeeps t
  | .raise _ => True
  | .fault _ => True

theorem State.encScan_keeps (hp : s.engine.phase = .encScan) : s.encScan.Keeps s := by
  rcases s.encScan_cases with ⟨e, h⟩ | ⟨h, -⟩ <;> rw [h]
  · trivial
  · exact ⟨⟨rfl, rfl, rfl, fun _ => rfl⟩, by rw [hp]; rfl⟩

theorem State.encEmit_keeps (s : State) : s.encEmit.Keeps s := by
  rcases s.encEmit_cases with ⟨f, h⟩ | h <;> rw [h]
  · trivial
  · exact .of_packed (.emitted s s.message)

theorem State.decHeader_keeps (hp : s.engine.phase = .decHeader) : s.decHeader.Keeps s := by
  rcases s.decHeader_cases with ⟨e, h⟩ | ⟨h, -⟩ <;> rw [h]
  · trivial
  · exact ⟨⟨rfl, rfl, rfl, fun _ => rfl⟩, by rw [hp]; rfl⟩

theorem State.decTable_keeps (hp : s.engine.phase = .decTable) : s.decTable.Keeps s := by
  have hs : s.engine.phase.decoding = true := by rw [hp]; rfl
  rcases s.decTable_cases with ⟨f, h⟩ | ⟨e, h⟩ | ⟨t, ht, h⟩ <;> rw [h]
  · trivial
  · trivial
  · obtain ⟨hpar, hregs, hct, hsrc, hport, hdraw⟩ := (State.Unpacked.decEntries _ _ _ _ ht).same
    exact ⟨.of_decoding hs ⟨hpar, hregs, hct, hsrc, hport, hdraw⟩, by rw [hp]; rfl⟩

theorem State.decPayload_keeps (hp : s.engine.phase = .decPayload) : s.decPayload.Keeps s := by
  have hs : s.engine.phase.decoding = true := by rw [hp]; rfl
  rcases s.decPayload_cases with ⟨f, h⟩ | ⟨e, h⟩ | ⟨t, ht, h⟩ <;> rw [h]
  · trivial
  · trivial
  · obtain ⟨hpar, hregs, hct, hsrc, hport, hdraw⟩ := ht.same
    exact .of_decoding hs ⟨hpar, hregs, hct, hsrc, hport, hdraw⟩

theorem State.phaseStep_keeps (s : State) : s.phaseStep.Keeps s := by
  unfold State.phaseStep
  cases hp : s.engine.phase with
  | idle => exact ⟨⟨rfl, rfl, rfl, fun _ => rfl⟩, rfl⟩
  | encScan => exact State.encScan_keeps hp
  | encEmit => exact s.encEmit_keeps
  | decHeader => exact State.decHeader_keeps hp
  | decTable => exact State.decTable_keeps hp
  | decPayload => exact State.decPayload_keeps hp
  | clear => exact ⟨rfl, rfl, rfl, fun _ => rfl⟩

theorem PhaseResult.Keeps.trans (h : s.EngineKeeps t) (hd : t.engine.phase.decoding = s.engine.phase.decoding)
    {r : PhaseResult} (hr : r.Keeps t) : r.Keeps s := by
  have htrans {u : State} (hu : t.EngineKeeps u) : s.EngineKeeps u :=
    ⟨hu.params.trans h.params, hu.rej.trans h.rej, hu.src.trans h.src,
      fun hs => (hu.dt (hd.trans hs)).trans (h.dt hs)⟩
  cases r with
  | goOn u => exact ⟨htrans hr.1, hr.2.trans hd⟩
  | finish r u => exact htrans hr
  | raise e => trivial
  | fault f => trivial

theorem State.runPhases_keeps (n : Nat) (s : State) : (State.runPhases n s).Keeps s := by
  induction n generalizing s with
  | zero => exact ⟨⟨rfl, rfl, rfl, fun _ => rfl⟩, rfl⟩
  | succ n ih =>
    have hstep := s.phaseStep_keeps
    rw [State.runPhases]
    generalize s.phaseStep = r at hstep ⊢
    cases r with
    | goOn u => exact (ih u).trans hstep.1 hstep.2
    | finish r u => exact hstep
    | raise e => trivial
    | fault f => trivial

/-- No engine step changes the parameters, REJ or SRC, and none but DECODE's changes DT. -/
theorem State.engineStep_keeps (h : s.engineStep = .next t) : s.EngineKeeps t := by
  rcases s.engineStep_cases with ⟨-, hs⟩ | ⟨-, ⟨u, hu, hs⟩ | ⟨-, hs⟩⟩
  · have hrun := State.runPhases_keeps maxPhases s
    rw [hs] at h
    generalize State.runPhases maxPhases s = r at hrun h
    cases r with
    | goOn u => obtain rfl := Host.Outcome.next.inj h; exact hrun.1
    | finish r u =>
      obtain rfl := Host.Outcome.next.inj h
      exact ⟨hrun.params, hrun.rej, hrun.src, hrun.dt⟩
    | raise e =>
      obtain rfl := Host.Outcome.next.inj h
      exact ⟨rfl, rfl, rfl, fun hd => by rw [State.fail_dt, hd]; rfl⟩
    | fault f => cases h
  · have hkeep := s.phaseStep_keeps
    rw [hu] at hkeep
    obtain rfl := Host.Outcome.next.inj (hs.symm.trans h)
    obtain ⟨⟨hpar, hrej, hsrc, hdt⟩, -⟩ := hkeep
    exact ⟨hpar, hrej, hsrc, hdt⟩
  · obtain rfl := Host.Outcome.next.inj (hs.symm.trans h)
    exact ⟨rfl, rfl, rfl, fun _ => rfl⟩

/-! ## What a write in a region can change -/

theorem State.writeRegion_src_of_ne (s : State) (v : Word) {r : Region} (h : ∀ i, r ≠ .src i) :
    (s.writeRegion v r).src = s.src := by
  cases r with
  | reg off => simp only [State.writeRegion]; split_ifs <;> rfl
  | src i => exact absurd rfl (h i)
  | ct | dt | dst => rfl

theorem State.writeRegion_rej (s : State) (v : Word) {r : Region} (h : r ≠ .reg 0x00C) :
    (s.writeRegion v r).regs.rej = s.regs.rej := by
  cases r with
  | reg off =>
    have hoff : off ≠ 0x00C := fun ho => h (ho ▸ rfl)
    simp only [State.writeRegion, if_neg hoff]
    split_ifs <;> rfl
  | ct | dt | src | dst => rfl

/-- Only an offset below 0x100 is in the register block, and it is the register's own. -/
theorem regionOf_eq_reg {p : Params} {off off' : Nat} (h : regionOf p off = some (.reg off')) : off = off' := by
  unfold regionOf at h
  split_ifs at h <;> cases h
  rfl

/-! ## The rules -/

/-- Settles O57: no move changes the parameters. -/
theorem parametersNeverChange : Obligations.ParametersNeverChange := by
  intro s t h
  have hmoves := step_moves s
  rw [h] at hmoves
  generalize ho : Host.Outcome.next t = o at hmoves
  cases hmoves with
  | quiet | reset | drop | start | refuse => obtain rfl := Host.Outcome.next.inj ho; rfl
  | engine p => exact (State.engineStep_keeps ho.symm).params
  | write p _ off v r => obtain rfl := Host.Outcome.next.inj ho; exact State.writeRegion_params _ v r

/-- Settles O58: of the moves that do not reset, only a STATUS write with bit 3 clears REJ. -/
theorem rejClearedOnlyByAckOrReset : Obligations.RejClearedOnlyByAckOrReset := by
  intro s t h hset hclear
  have hmoves := step_moves s
  rw [h] at hmoves
  generalize ho : Host.Outcome.next t = o at hmoves
  have hkept (hk : t.regs.rej = s.regs.rej) : False := Bool.noConfusion (hclear.symm.trans (hk.trans hset))
  cases hmoves with
  | reset p hp hreset => exact .inl hreset
  | quiet | start | refuse => obtain rfl := Host.Outcome.next.inj ho; exact (hkept rfl).elim
  | drop => obtain rfl := Host.Outcome.next.inj ho; cases hclear
  | engine p => exact (hkept (State.engineStep_keeps ho.symm).rej).elim
  | write p _ off v r hw hr =>
    obtain rfl := Host.Outcome.next.inj ho
    by_cases hreg : r = .reg 0x00C
    · subst hreg
      obtain rfl := regionOf_eq_reg hr
      obtain ⟨rest, addr, hin, -, hoff⟩ := hw
      refine .inr ⟨rest, addr, v, hin, hoff, ?_⟩
      replace hclear : (s.regs.rej && !v.getLsbD 3) = false := hclear
      simpa [hset] using hclear
    · exact (hkept (State.writeRegion_rej _ v hreg)).elim

/-- Settles O59: no move but a reset and an engine step changes DT, and an engine step does so for DECODE alone. -/
theorem dtWrittenOnlyByDecodeOrReset : Obligations.DtWrittenOnlyByDecodeOrReset := by
  intro s t h hne
  have hmoves := step_moves s
  rw [h] at hmoves
  generalize ho : Host.Outcome.next t = o at hmoves
  cases hmoves with
  | reset p hp hreset => exact .inl hreset
  | quiet | drop | start | refuse => obtain rfl := Host.Outcome.next.inj ho; exact absurd rfl hne
  | engine p hp hnext =>
    refine .inr ⟨hnext, ?_⟩
    by_contra hdec
    exact hne ((State.engineStep_keeps ho.symm).dt (eq_false_of_ne_true hdec))
  | write p _ off v r =>
    obtain rfl := Host.Outcome.next.inj ho
    exact absurd (State.writeRegion_dt _ v r) hne

/-- Settles O60: of the moves that do not reset, only a write in the SRC window changes SRC, and it is busy-guarded. -/
theorem srcNeverChangedByCommands : Obligations.SrcNeverChangedByCommands := by
  intro s t h hne
  have hmoves := step_moves s
  rw [h] at hmoves
  generalize ho : Host.Outcome.next t = o at hmoves
  cases hmoves with
  | reset p hp hreset => exact .inl hreset
  | quiet | drop | start | refuse => obtain rfl := Host.Outcome.next.inj ho; exact absurd rfl hne
  | engine p hp hnext => exact absurd (State.engineStep_keeps ho.symm).src hne
  | write p _ off v r hw hr hg =>
    obtain rfl := Host.Outcome.next.inj ho
    by_cases hsrc : ∃ i, r = .src i
    · obtain ⟨i, rfl⟩ := hsrc
      obtain ⟨rest, addr, hin, -, hoff⟩ := hw
      exact .inr ⟨by simpa [Region.busyGuarded] using hg, rest, addr, v, off, i, hin, hoff, hr⟩
    · exact absurd (State.writeRegion_src_of_ne _ v fun i hi => hsrc ⟨i, hi⟩) hne

end Sys2Proof.Machine
end

section
/-! PROOF. Good memories: canonical form and free values already drawn, as one property that every operation keeps
(10_state.md R53, 20_memory.md R80; the draws are log 2). -/

namespace Sys2Proof.Machine

variable {w : Nat} {s t : State}

/-! ## One memory -/

/-- A memory of `size` places in canonical form whose free values were drawn before draw `draw`. -/
structure Memory.Good (size draw : Nat) (m : Memory w) : Prop where
  wf : m.wf size = true
  drawn : m.drawnBefore draw = true

theorem Memory.drawnBefore_of_fill {m m' : Memory w} (h : m'.fill = m.fill) (draw : Nat) :
    m'.drawnBefore draw = m.drawnBefore draw := by
  simp only [Memory.drawnBefore, h]

theorem Memory.drawnBefore_mono {m : Memory w} {d d' : Nat} (h : m.drawnBefore d = true) (hd : d ≤ d') :
    m.drawnBefore d' = true := by
  unfold Memory.drawnBefore at h ⊢
  cases hf : m.fill with
  | value v => rfl
  | any n =>
    rw [hf] at h
    exact decide_eq_true ((of_decide_eq_true h).trans_le hd)

theorem Memory.Good.mono {size d d' : Nat} {m : Memory w} (h : m.Good size d) (hd : d ≤ d') : m.Good size d' :=
  ⟨h.wf, Memory.drawnBefore_mono h.drawn hd⟩

theorem Memory.good_zeroAll (size draw : Nat) : (Memory.zeroAll : Memory w).Good size draw := ⟨rfl, rfl⟩

theorem Memory.good_anyAll (size : Nat) {d draw : Nat} (h : d < draw) : (Memory.anyAll d : Memory w).Good size draw :=
  ⟨rfl, decide_eq_true h⟩

theorem Memory.Good.writeWithin {size draw : Nat} {m : Memory w} (h : m.Good size draw) (k : Nat) (v : BitVec w) :
    (m.writeWithin size k v).Good size draw :=
  ⟨Memory.writeWithin_wf h.wf k v, (Memory.drawnBefore_of_fill (Memory.writeWithin_fill _ _ _ _) draw).trans h.drawn⟩

theorem Memory.Good.writeList {size draw : Nat} {m : Memory w} (h : m.Good size draw) (k : Nat) (l : List (BitVec w)) :
    (m.writeList size k l).Good size draw :=
  ⟨Memory.writeList_wf l m k h.wf, (Memory.drawnBefore_of_fill (Memory.writeList_fill _ _ _ _) draw).trans h.drawn⟩

/-! ## The tables -/

/-- Every field of CT is good. -/
structure CodeTable.Good (draw : Nat) (ct : CodeTable) : Prop where
  valid : ct.valid.Good Config.ctEntries draw
  len : ct.len.Good Config.ctEntries draw
  code : ct.code.Good (Config.codeWords * Config.ctEntries) draw

/-- Every field of DT is good. -/
structure DecodeTable.Good (draw : Nat) (dt : DecodeTable) : Prop where
  valid : dt.valid.Good Config.dtEntries draw
  len : dt.len.Good Config.dtEntries draw
  sym : dt.sym.Good Config.dtEntries draw
  code : dt.code.Good Config.dtEntries draw

theorem CodeTable.Good.mono {d d' : Nat} {ct : CodeTable} (h : ct.Good d) (hd : d ≤ d') : ct.Good d' :=
  ⟨h.valid.mono hd, h.len.mono hd, h.code.mono hd⟩

theorem DecodeTable.Good.mono {d d' : Nat} {dt : DecodeTable} (h : dt.Good d) (hd : d ≤ d') : dt.Good d' :=
  ⟨h.valid.mono hd, h.len.mono hd, h.sym.mono hd, h.code.mono hd⟩

theorem CodeTable.good_cleared (draw : Nat) : CodeTable.cleared.Good draw :=
  ⟨Memory.good_zeroAll _ _, Memory.good_zeroAll _ _, Memory.good_zeroAll _ _⟩

theorem DecodeTable.good_cleared (draw : Nat) : DecodeTable.cleared.Good draw :=
  ⟨Memory.good_zeroAll _ _, Memory.good_zeroAll _ _, Memory.good_zeroAll _ _, Memory.good_zeroAll _ _⟩

theorem CodeTable.good_reset {d draw : Nat} (h : d + 1 < draw) : (CodeTable.reset d).Good draw :=
  ⟨Memory.good_zeroAll _ _, Memory.good_anyAll _ (by omega), Memory.good_anyAll _ h⟩

theorem DecodeTable.good_reset {d draw : Nat} (h : d + 2 < draw) : (DecodeTable.reset d).Good draw :=
  ⟨Memory.good_zeroAll _ _, Memory.good_anyAll _ (by omega), Memory.good_anyAll _ (by omega), Memory.good_anyAll _ h⟩

theorem DecodeTable.good_any {d draw : Nat} (h : d + 3 < draw) : (DecodeTable.any d).Good draw :=
  ⟨Memory.good_anyAll _ (by omega), Memory.good_anyAll _ (by omega), Memory.good_anyAll _ (by omega),
    Memory.good_anyAll _ h⟩

theorem CodeTable.Good.hostWrite {draw : Nat} {ct : CodeTable} (h : ct.Good draw) (x k : Nat) (v : Word) :
    (ct.hostWrite x k v).Good draw := by
  unfold CodeTable.hostWrite
  split_ifs
  · exact ⟨h.valid.writeWithin _ _, h.len.writeWithin _ _, h.code⟩
  · exact ⟨h.valid, h.len, h.code.writeWithin _ _⟩
  · exact h

theorem DecodeTable.Good.storeEntries {draw : Nat} {dt : DecodeTable} (h : dt.Good draw) (xs : List Entry) :
    ∀ e : Nat, (storeEntries dt e xs).Good draw := by
  induction xs generalizing dt with
  | nil => exact fun _ => h
  | cons x xs ih =>
    exact fun e => ih ⟨h.valid.writeWithin _ _, h.len.writeWithin _ _, h.sym.writeWithin _ _, h.code.writeWithin _ _⟩ _

/-! ## The state -/

/-- The part of `State.Inv` that does not look at the engine or the registers. -/
structure State.Sound (s : State) : Prop where
  params : s.params.ok = true
  ct : s.ct.Good s.draw
  dt : s.dt.Good s.draw
  src : s.src.Good s.params.srcDepth s.draw
  dst : s.dst.Good s.params.dstDepth s.draw

theorem State.Sound.memoriesOk (h : s.Sound) : s.memoriesOk = true := by
  obtain ⟨-, hct, hdt, hsrc, hdst⟩ := h
  simp only [State.memoriesOk, CodeTable.wf, DecodeTable.wf, hct.valid.wf, hct.len.wf, hct.code.wf, hdt.valid.wf,
    hdt.len.wf, hdt.sym.wf, hdt.code.wf, hsrc.wf, hdst.wf, Bool.and_self]

theorem State.Sound.drawsOk (h : s.Sound) : s.drawsOk = true := by
  obtain ⟨-, hct, hdt, hsrc, hdst⟩ := h
  simp only [State.drawsOk, hct.valid.drawn, hct.len.drawn, hct.code.drawn, hdt.valid.drawn, hdt.len.drawn,
    hdt.sym.drawn, hdt.code.drawn, hsrc.drawn, hdst.drawn, Bool.and_self]

theorem State.Inv.sound (h : s.Inv) : s.Sound := by
  have hm := h.memories
  have hd := h.draws
  simp only [State.memoriesOk, CodeTable.wf, DecodeTable.wf, Bool.and_eq_true] at hm
  simp only [State.drawsOk, Bool.and_eq_true] at hd
  obtain ⟨⟨⟨⟨⟨ctv, ctl⟩, ctc⟩, ⟨⟨dtv, dtl⟩, dts⟩, dtc⟩, src⟩, dst⟩ := hm
  obtain ⟨⟨⟨⟨⟨⟨⟨⟨ctv', ctl'⟩, ctc'⟩, dtv'⟩, dtl'⟩, dts'⟩, dtc'⟩, src'⟩, dst'⟩ := hd
  exact ⟨h.params, ⟨⟨ctv, ctv'⟩, ⟨ctl, ctl'⟩, ⟨ctc, ctc'⟩⟩, ⟨⟨dtv, dtv'⟩, ⟨dtl, dtl'⟩, ⟨dts, dts'⟩, ⟨dtc, dtc'⟩⟩,
    ⟨src, src'⟩, ⟨dst, dst'⟩⟩

/-- A sound block that is idle is good if its working registers are in range and DETAIL is as R35 says. -/
theorem State.Sound.inv_of_idle (h : s.Sound) (hidle : s.engine.phase = .idle) (he : s.engine.InRange)
    (hdetail : s.regs.errorCode ≠ .malformedHeader → s.regs.errorDetail = 0) : s.Inv where
  params := h.params
  memories := h.memoriesOk
  draws := h.drawsOk
  engine := he
  phase := by rw [State.PhaseOk, hidle]; trivial
  running hb := absurd hidle ((State.busy_eq_true_iff s).1 hb)
  detail := hdetail

/-! ## The ends of a command, and reset -/

/-- The DETAIL of an engine error is 0 unless the error is MALFORMED_HEADER (10_state.md R35). -/
def EngineError.DetailOk (e : EngineError) : Prop := e.code ≠ .malformedHeader → e.detail = 0

theorem State.Sound.complete (h : s.Sound) (r : Results) : (s.complete r).Inv := by
  have hd : s.draw ≤ s.draw + 1 := Nat.le_succ _
  have hsound : (s.complete r).Sound := ⟨h.params, h.ct.mono hd, h.dt.mono hd, h.src.mono hd, h.dst.mono hd⟩
  exact hsound.inv_of_idle rfl (Engine.unspecified_inRange _) fun _ => rfl

theorem State.Sound.fail (h : s.Sound) {e : EngineError} (he : e.DetailOk) : (s.fail e).Inv := by
  have hd : s.draw ≤ s.draw + 6 := Nat.le_add_right _ _
  have hdt : (s.fail e).dt.Good (s.draw + 6) := by
    rw [State.fail_dt]
    split_ifs
    · exact DecodeTable.good_any (by omega)
    · exact h.dt.mono hd
  have hsound : (s.fail e).Sound := ⟨h.params, h.ct.mono hd, hdt, h.src.mono hd, Memory.good_anyAll _ (by simp)⟩
  exact hsound.inv_of_idle rfl (Engine.unspecified_inRange _) he

theorem State.Sound.resetEffect (h : s.Sound) : s.resetEffect.Inv := by
  have hsound : s.resetEffect.Sound := by
    rw [State.resetEffect_spec]
    exact ⟨h.params, CodeTable.good_reset (by simp), DecodeTable.good_reset (by simp), Memory.good_anyAll _ (by simp),
      Memory.good_anyAll _ (by simp)⟩
  exact hsound.inv_of_idle rfl (Engine.unspecified_inRange _) fun _ => rfl

/-! ## The state after reset -/

theorem Engine.reset_inRange : Engine.reset.InRange := by
  constructor <;> decide

/-- Settles O54: it is idle, and its memories have draws 0 to 6 of the seven taken. -/
theorem resetStateIsGood : Obligations.ResetStateIsGood := by
  have hsound : State.reset.Sound := ⟨by decide, CodeTable.good_reset (by decide), DecodeTable.good_reset (by decide),
    Memory.good_anyAll _ (by decide), Memory.good_anyAll _ (by decide)⟩
  exact hsound.inv_of_idle rfl Engine.reset_inRange fun _ => rfl

/-- Settles O53: the registers are constants, and no entry of a table after reset is valid. -/
theorem resetStateValues : Obligations.ResetStateValues :=
  ⟨by decide, by decide, rfl, rfl, rfl, rfl, by decide, rfl, CodeTable.isValid_reset _, DecodeTable.isValid_reset _⟩

end Sys2Proof.Machine
end

section
/-! PROOF. The marker byte: how the padding count is read from its leading one-bits, and the header checks of DECODE
that turn on it (30_encoding.md R108, R109, 43_decode.md R251 to R258). -/

namespace Sys2Proof.Machine

variable {s : State}

/-! ## Bits by their places -/

theorem getElem?_msbFirst (bit : Nat → Bool) (n : Nat) :
    ∀ {j : Nat}, j < n → (msbFirst bit n)[j]? = some (bit (n - 1 - j)) := by
  induction n with
  | zero => exact nofun
  | succ n ih =>
    intro j hj
    cases j with
    | zero => rfl
    | succ j =>
      have hplace : n - 1 - j = n + 1 - 1 - (j + 1) := by omega
      rw [msbFirst, List.getElem?_cons_succ, ih (Nat.lt_of_succ_lt_succ hj), hplace]

theorem getElem?_bits8 (x : Byte) {j : Nat} (h : j < 8) : (bits8 x)[j]? = some (x.getLsbD (7 - j)) :=
  getElem?_msbFirst _ 8 h

/-! ## Leading one-bits -/

theorem leadingOnes_le_length (l : Bits) : leadingOnes l ≤ l.length := by
  induction l with
  | nil => exact Nat.zero_le _
  | cons b l ih =>
    cases b with
    | false => exact Nat.zero_le _
    | true => exact Nat.succ_le_succ ih

theorem getElem?_of_lt_leadingOnes (l : Bits) : ∀ {j : Nat}, j < leadingOnes l → l[j]? = some true := by
  induction l with
  | nil => exact nofun
  | cons b l ih =>
    intro j hj
    cases b with
    | false => cases hj
    | true =>
      cases j with
      | zero => rfl
      | succ j => exact ih (Nat.lt_of_succ_lt_succ hj)

theorem getElem?_leadingOnes_ne_true (l : Bits) : l[leadingOnes l]? ≠ some true := by
  induction l with
  | nil => exact nofun
  | cons b l ih =>
    cases b with
    | false => exact nofun
    | true => exact ih

/-- One-bits up to a zero-bit, counted. -/
theorem leadingOnes_eq {l : Bits} {k : Nat} (hones : ∀ j < k, l[j]? = some true) (hzero : l[k]? = some false) :
    leadingOnes l = k := by
  rcases Nat.lt_trichotomy (leadingOnes l) k with hlt | heq | hgt
  · exact absurd (hones _ hlt) (getElem?_leadingOnes_ne_true l)
  · exact heq
  · rw [getElem?_of_lt_leadingOnes l hgt] at hzero
    cases hzero

/-! ## The marker -/

theorem getLsbD_of_lt_markerCount (m : Byte) {j : Nat} (h : j < markerCount m) : m.getLsbD (7 - j) = true := by
  have hlen : markerCount m ≤ 8 := (leadingOnes_le_length (bits8 m)).trans_eq (bits8_length m)
  have hbit := getElem?_of_lt_leadingOnes (bits8 m) h
  rw [getElem?_bits8 m (h.trans_le hlen)] at hbit
  exact Option.some.inj hbit

/-- Only the marker 0xFF has eight leading one-bits. -/
theorem markerCount_le {m : Byte} (h : m ≠ 0xFF#8) : markerCount m ≤ 7 := by
  by_contra hgt
  refine h (BitVec.eq_of_getLsbD_eq fun j hj => ?_)
  have hbit := getLsbD_of_lt_markerCount m (j := 7 - j) (by omega)
  rw [show 7 - (7 - j) = j by omega] at hbit
  rw [hbit]
  interval_cases j <;> rfl

theorem getLsbD_markerCount {m : Byte} (h : m ≠ 0xFF#8) : m.getLsbD (7 - markerCount m) = false := by
  have hstop := getElem?_leadingOnes_ne_true (bits8 m)
  rw [show leadingOnes (bits8 m) = markerCount m from rfl,
    getElem?_bits8 m (Nat.lt_succ_of_le (markerCount_le h))] at hstop
  exact eq_false_of_ne_true fun hbit => hstop (congrArg some hbit)

theorem markerCount_eq {m : Byte} {k : Nat} (hk : k ≤ 7) (hones : ∀ j < k, m.getLsbD (7 - j) = true)
    (hzero : m.getLsbD (7 - k) = false) : markerCount m = k := by
  refine leadingOnes_eq (fun j hj => ?_) ?_
  · rw [getElem?_bits8 m (by omega), hones j hj]
  · rw [getElem?_bits8 m (by omega), hzero]

/-- Settles O30: eight markers evaluated, and any other byte by its leading one-bits. -/
theorem markerCarriesPadCount : Obligations.MarkerCarriesPadCount :=
  ⟨by decide, fun k hk => (leadingOnes_markerByte k hk).1, fun m hm =>
    ⟨markerCount_le hm, fun _ hj => getLsbD_of_lt_markerCount m hj, getLsbD_markerCount hm⟩⟩

/-! ## The header checks -/

/-- In the last engine step of a command an error of DEC_HEADER is raised (R161). -/
theorem State.raises_of_decHeader {e : EngineError} (hp : s.engine.phase = .decHeader) (hl : s.engine.left ≤ 1)
    (h : s.decHeader = .raise e) : s.Raises e := by
  refine State.raises_of_runPhases hl ?_
  simp only [State.runPhases, State.phaseStep, hp, h]

/-- Settles O25: each clause denies the checks before its own and meets its own. -/
theorem decodeHeaderChecks : Obligations.DecodeHeaderChecks := by
  intro s hp hl n marker
  have hraise {e : EngineError} : s.decHeader = .raise e → s.Raises e := State.raises_of_decHeader hp hl
  have hheader : s.decHeader =
      if s.params.srcDepth < n then .raise ⟨.srcOverflow, 0, 0⟩
      else if n < 2 then .raise (malformed 1 0)
      else if n < 3 then .raise (malformed 2 16)
      else if marker = 0xFF#8 then .raise (malformed 3 16)
      else if 8 * (n - 3) < markerCount marker then .raise (malformed 4 16)
      else if s.src.read 1 = 0#8 then .raise (malformed 5 8)
      else .goOn (((s.withWork { s.engine.work with h := s.src.read 0, ns := s.src.read 1, k := markerCount marker }
        ).unpackInit 24 (8 * n - markerCount marker)).withPhase .decTable) := rfl
  rw [hheader] at hraise
  refine ⟨fun hover => hraise (if_pos hover), fun hsrc hn => hraise ?_, fun hsrc hn => hraise ?_,
    fun hsrc hn hff => hraise ?_, fun hsrc hn k hk hones hzero => ?_⟩
  · rw [if_neg (by omega), if_pos hn]; rfl
  · rw [if_neg (by omega), if_neg (by omega), if_pos (by omega)]; rfl
  · rw [if_neg (by omega), if_neg (by omega), if_neg (by omega), if_pos hff]; rfl
  · have hff : marker ≠ 0xFF#8 := by
      intro h
      rw [h] at hzero
      interval_cases k <;> cases hzero
    rw [if_neg (by omega), if_neg (by omega), if_neg (by omega), if_neg hff, markerCount_eq hk hones hzero] at hraise
    refine ⟨fun hpad => hraise ?_, fun hpad hns => hraise ?_⟩
    · rw [if_pos hpad]; rfl
    · rw [if_neg (by omega), if_pos hns]; rfl

end Sys2Proof.Machine
end

section
/-! PROOF. The phases on a good block: no phase leaves a buffer, an error's DETAIL is as R35 says, and what a phase
leaves is good again (41_bit_stream.md R182, 42_encode.md R210 to R225, 43_decode.md R250 to R268). -/

namespace Sys2Proof.Machine

variable {s t : State}

/-! ## What PHASE says, carried over -/

/-- `t` agrees with `s` in all that `State.PhaseOk` looks at. -/
structure State.SameView (s t : State) : Prop where
  params : t.params = s.params
  lastCmd : t.regs.lastCmd = s.regs.lastCmd
  srcLen : t.regs.srcLen = s.regs.srcLen
  ct : t.ct = s.ct
  src : t.src = s.src
  phase : t.engine.phase = s.engine.phase
  work : t.engine.work = s.engine.work
  unpacker : t.engine.unpacker = s.engine.unpacker

theorem State.SameView.message (v : s.SameView t) : t.message = s.message := by
  simp only [State.message, v.src, v.srcLen]

theorem State.EncReady.congr (h : s.EncReady) (v : s.SameView t) : t.EncReady := by
  obtain ⟨hsrc, hpresent, htbits, hpbits, hk, hdst⟩ := h
  have hmessage := v.message
  constructor <;> simpa only [v.params, v.srcLen, v.ct, v.work, hmessage]

theorem State.DecReady.congr {n : Nat} (h : s.DecReady n) (v : s.SameView t) : t.DecReady n := by
  obtain ⟨hsrc, hqlim, hfirst, hq⟩ := h
  constructor <;> simpa only [v.params, v.srcLen, v.work, v.unpacker]

theorem State.PhaseOk.congr (h : s.PhaseOk) (v : s.SameView t) : t.PhaseOk := by
  unfold State.PhaseOk at h ⊢
  rw [v.phase]
  cases hp : s.engine.phase with
  | idle => trivial
  | encScan => rw [hp] at h; exact v.lastCmd.trans h
  | encEmit => rw [hp] at h; exact ⟨v.lastCmd.trans h.1, h.2.congr v⟩
  | decHeader => rw [hp] at h; exact v.lastCmd.trans h
  | decTable => rw [hp] at h; exact ⟨v.lastCmd.trans h.1, h.2.congr v⟩
  | decPayload =>
    rw [hp] at h
    obtain ⟨hcmd, hready, htend⟩ := h
    simp only [v.work]
    exact ⟨v.lastCmd.trans hcmd, hready.congr v, htend⟩
  | clear => rw [hp] at h; exact v.lastCmd.trans h

theorem State.Inv.countStep (h : s.Inv) : s.countStep.Inv where
  params := h.params
  memories := h.memories
  draws := h.draws
  engine := ⟨h.engine.nSym, h.engine.k, h.engine.tbits, h.engine.pbits, h.engine.start, h.engine.tend, h.engine.optr,
    h.engine.accN, h.engine.q, h.engine.qlim, h.engine.mbuf, h.engine.mstart, h.engine.ocnt⟩
  phase := h.phase.congr ⟨rfl, rfl, rfl, rfl, rfl, rfl, rfl, rfl⟩
  running := h.running
  detail := h.detail

/-- What a phase may come to on a good block. -/
def PhaseResult.Good : PhaseResult → Prop
  | .goOn t => t.Inv
  | .finish _ t => t.Sound
  | .raise e => e.DetailOk
  | .fault _ => False

/-! ## ENC_SCAN -/

theorem lookupError_detailOk {ct : CodeTable} {e : EngineError} (m : List Byte) :
    ∀ {i : Nat}, lookupError ct i m = some e → e.DetailOk := by
  induction m with
  | nil => exact nofun
  | cons b m ih =>
    intro i h
    cases hv : ct.isValid b.toNat with
    | false =>
      rw [lookupError_cons_unmapped i m hv] at h
      obtain rfl := Option.some.inj h
      exact fun _ => rfl
    | true =>
      by_cases hl : ct.lenOf b.toNat = 0
      · rw [lookupError_cons_empty i m hv hl] at h
        obtain rfl := Option.some.inj h
        exact fun _ => rfl
      · rw [lookupError_cons_mapped i m hv hl] at h
        exact ih h

theorem State.encScan_detailOk {e : EngineError} (h : s.encScan = .raise e) : e.DetailOk := by
  unfold State.encScan at h
  cases hlookup : lookupError s.ct 0 s.message with
  | some err =>
    simp only [hlookup] at h
    split_ifs at h <;> obtain rfl := PhaseResult.raise.inj h
    · exact fun _ => rfl
    · exact fun _ => rfl
    · exact fun _ => rfl
    · exact lookupError_detailOk s.message hlookup
  | none =>
    simp only [hlookup] at h
    split_ifs at h <;> obtain rfl := PhaseResult.raise.inj h <;> exact fun _ => rfl

theorem State.Inv.encScan (h : s.Inv) (hp : s.engine.phase = .encScan) : s.encScan.Good := by
  rcases s.encScan_cases with ⟨e, hscan⟩ | ⟨hscan, hsrc, -, hsym, -, hdst⟩
  · rw [hscan]
    exact State.encScan_detailOk hscan
  rw [hscan]
  have hdepth := (Params.dstDepth_ok h.params).2.2
  have hnout : s.scanned.nout = 3 + (s.scanned.tbits + s.scanned.pbits + s.scanned.k) / 8 := rfl
  have hbusy : s.busy = true := by rw [State.busy, hp]
  have hphase := h.phase
  simp only [State.PhaseOk, hp] at hphase
  obtain ⟨-, -, -, -, hstart, htend, hoptr, haccN, hq, hqlim, hmbuf, hmstart, hocnt⟩ := h.engine
  refine ⟨h.params, h.memories, h.draws, ?_, ⟨hphase, hsrc, rfl, rfl, rfl, rfl, hdst⟩, fun _ => h.running hbusy,
    h.detail⟩
  exact ⟨hsym.trans_lt (by decide), padCount_le _, (by omega : s.scanned.tbits < 2 ^ 32),
    (by omega : s.scanned.pbits < 2 ^ 32), hstart, htend, hoptr, haccN, hq, hqlim, hmbuf, hmstart, hocnt⟩

/-! ## ENC_EMIT -/

/-- One bit more, in ACC_N or, with ACC full, in OPTR. -/
theorem State.putBit_count (s : State) (b : Bool) (h : s.engine.packer.accN ≤ 7) :
    8 * (s.putBit b).engine.packer.optr + (s.putBit b).engine.packer.accN =
      8 * s.engine.packer.optr + s.engine.packer.accN + 1 ∧ (s.putBit b).engine.packer.accN ≤ 7 := by
  unfold State.putBit
  simp only
  split_ifs with hfull
  · simp only [State.withPacker_packer]; omega
  · simp only [State.withPacker_packer]; omega

/-- The packer counts the bits it is given, in OPTR by eights and in ACC_N (41_bit_stream.md R182). -/
theorem State.putBits_count (bits : Bits) : ∀ {s : State}, s.engine.packer.accN ≤ 7 →
    8 * (s.putBits bits).engine.packer.optr + (s.putBits bits).engine.packer.accN =
      8 * s.engine.packer.optr + s.engine.packer.accN + bits.length ∧ (s.putBits bits).engine.packer.accN ≤ 7 := by
  induction bits with
  | nil => exact fun h => ⟨rfl, h⟩
  | cons b bits ih =>
    intro s h
    obtain ⟨hcount, hle⟩ := s.putBit_count b h
    obtain ⟨hcount', hle'⟩ := ih hle
    rw [State.putBits_cons, List.length_cons]
    exact ⟨by omega, hle'⟩

theorem State.putBits_dst_fill (bits : Bits) : ∀ s : State, (s.putBits bits).dst.fill = s.dst.fill := by
  induction bits with
  | nil => exact fun _ => rfl
  | cons b bits ih =>
    intro s
    rw [State.putBits_cons, ih]
    unfold State.putBit
    simp only
    split_ifs
    · exact Memory.writeWithin_fill _ _ _ _
    · rfl

/-- The serialised table is no longer than ENC_SCAN's sum, which also counts symbols without a code word. -/
theorem tableOrder_length_le (ct : CodeTable) {l : List Nat} (hl : l.Nodup) :
    ((tableOrder ct l).flatMap (entryBits ct)).length ≤ tableLength ct l := by
  have hsub : (tableOrder ct l).Subperm l :=
    (tableOrder_nodup ct hl).subperm fun x hx => ((mem_tableOrder ct l x).1 hx).1
  obtain ⟨l', hperm, hsublist⟩ := hsub
  simp only [List.length_flatMap, entryBits_length, tableLength]
  rw [← (hperm.map _).sum_eq]
  exact (hsublist.map _).sum_le_sum fun _ _ => Nat.zero_le _

/-- All that ENC_EMIT puts, as one bit sequence, whatever the working registers hold. -/
theorem State.exists_emitted_eq_putBits (s : State) :
    ∃ bits, (s.emitHeader.emitTable.emitPayload s.message).emitPadding = s.packInit.putBits bits ∧
      bits.length = 24 + ((tableOrder s.ct (symbolsOf s.engine.work.present)).flatMap (entryBits s.ct)).length
        + payloadLength s.ct s.message + s.engine.work.k := by
  have hheader := State.Packed.emitHeader s
  have htable := hheader.trans (.emitTable _)
  have hpayload := htable.trans (.emitPayload _ s.message)
  rw [State.emitPadding, hpayload.work, State.emitPayload_eq_putBits, htable.same.ct, State.emitTable_eq_putBits,
    hheader.work, hheader.same.ct, State.emitHeader_eq_putBits, ← State.putBits_append, ← State.putBits_append,
    ← State.putBits_append]
  refine ⟨_, rfl, ?_⟩
  simp only [List.length_append, bits8_length, payloadBits_length, List.length_replicate]
  omega

/-- With ENC_SCAN's checks passed the packer stays within DST (41_bit_stream.md R182). -/
theorem State.EncReady.optr_le (h : s.EncReady) {bits : Bits}
    (hbits : bits.length = 24 + ((tableOrder s.ct (symbolsOf s.engine.work.present)).flatMap (entryBits s.ct)).length
      + payloadLength s.ct s.message + s.engine.work.k) :
    (s.packInit.putBits bits).engine.packer.optr ≤ s.params.dstDepth := by
  obtain ⟨-, -, htbits, hpbits, -, hdst⟩ := h
  have htable := tableOrder_length_le s.ct (symbolsOf_nodup s.engine.work.present)
  obtain ⟨hcount, -⟩ := State.putBits_count bits (s := s.packInit) (Nat.zero_le 7)
  have hzero : 8 * s.packInit.engine.packer.optr + s.packInit.engine.packer.accN = 0 := rfl
  rw [Work.nout] at hdst
  omega

theorem State.Inv.encEmit (h : s.Inv) (hp : s.engine.phase = .encEmit) : s.encEmit.Good := by
  have hphase := h.phase
  simp only [State.PhaseOk, hp] at hphase
  obtain ⟨-, hready⟩ := hphase
  obtain ⟨bits, hput, hlen⟩ := s.exists_emitted_eq_putBits
  have hpacked := (State.Packed.packInit s).trans (.putBits _ bits)
  have hfits := hready.optr_le hlen
  simp only [State.encEmit, if_neg (Nat.not_lt.2 hready.src), hput, if_neg (Nat.not_lt.2 hfits)]
  obtain ⟨hparams, -, hct, hsrc, -, hdraw⟩ := hpacked.same
  obtain ⟨hok, hgct, hgdt, hgsrc, hgdst⟩ := h.sound
  have hdst : (s.packInit.putBits bits).dst.Good s.params.dstDepth s.draw :=
    ⟨hpacked.dst hgdst.wf, (Memory.drawnBefore_of_fill (State.putBits_dst_fill bits _) _).trans hgdst.drawn⟩
  constructor <;> simpa only [hparams, hct, hsrc, hdraw, hpacked.dt]

/-! ## DEC_HEADER -/

theorem malformed_detailOk (detail : BitVec 8) (pos : Nat) : (malformed detail pos).DetailOk :=
  fun hne => absurd rfl hne

theorem State.decHeader_detailOk {e : EngineError} (h : s.decHeader = .raise e) : e.DetailOk := by
  unfold State.decHeader at h
  simp only at h
  split_ifs at h <;> obtain rfl := PhaseResult.raise.inj h
  · exact fun _ => rfl
  · exact malformed_detailOk _ _
  · exact malformed_detailOk _ _
  · exact malformed_detailOk _ _
  · exact malformed_detailOk _ _
  · exact malformed_detailOk _ _

theorem State.Inv.decHeader (h : s.Inv) (hp : s.engine.phase = .decHeader) : s.decHeader.Good := by
  rcases s.decHeader_cases with ⟨e, hheader⟩ | ⟨hheader, hsrc, hlen, hmarker, hpad, -⟩
  · rw [hheader]
    exact State.decHeader_detailOk hheader
  rw [hheader]
  have hdepth := (Params.srcDepth_ok h.params).2.2
  have hbusy : s.busy = true := by rw [State.busy, hp]
  have hphase := h.phase
  simp only [State.PhaseOk, hp] at hphase
  have hk : markerCount (s.src.read 2) ≤ 7 := markerCount_le hmarker
  obtain ⟨hnSym, -, htbits, hpbits, hstart, htend, hoptr, haccN, -, -, hmbuf, hmstart, hocnt⟩ := h.engine
  refine ⟨h.params, h.memories, h.draws, ?_, ⟨hphase, hsrc, rfl, le_refl _, ?_⟩, fun _ => h.running hbusy, h.detail⟩
  · exact ⟨hnSym, hk, htbits, hpbits, hstart, htend, hoptr, haccN, (by decide : 24 < 2 ^ 32),
      (by omega : 8 * s.regs.srcLen.toNat - markerCount (s.src.read 2) < 2 ^ 32), hmbuf, hmstart, hocnt⟩
  · change 24 ≤ 8 * s.regs.srcLen.toNat - markerCount (s.src.read 2)
    omega

/-! ## DEC_TABLE -/

theorem readEntry_detailOk {pos : Nat} {bits : Bits} {e : EngineError} (h : readEntry pos bits = .error e) :
    e.DetailOk := by
  unfold readEntry at h
  cases hr : readLength Config.maxCodeLen 0 bits with
  | runsOut => simp only [hr] at h; obtain rfl := Except.error.inj h; exact malformed_detailOk 6 pos
  | tooLong => simp only [hr] at h; obtain rfl := Except.error.inj h; exact malformed_detailOk 7 pos
  | len L rest =>
    simp only [hr] at h
    split_ifs at h
    obtain rfl := Except.error.inj h
    exact malformed_detailOk 6 pos

theorem readEntries_detailOk {e : EngineError} (n : Nat) :
    ∀ {pos : Nat} {done : List Entry} {bits : Bits}, readEntries n pos done bits = .error e → e.DetailOk := by
  induction n with
  | zero => intro pos done bits h; rw [readEntries] at h; cases h
  | succ n ih =>
    intro pos done bits h
    rw [readEntries_succ] at h
    cases hr : readEntry pos bits with
    | error err =>
      rw [hr] at h
      obtain rfl := Except.error.inj h
      exact readEntry_detailOk hr
    | ok x => rw [hr] at h; exact ih h

/-- START is the Q of some entry, so it stays within QLIM (43_decode.md R259). -/
theorem State.decEntries_start_lt {B : Nat} (n : Nat) : ∀ {e : Nat} {s t : State}, State.decEntries n e s = .ok t →
    s.engine.unpacker.q ≤ s.engine.unpacker.qlim → s.engine.unpacker.qlim < B → s.engine.work.start < B →
      t.engine.work.start < B := by
  induction n with
  | zero => intro e s t h _ _ hstart; obtain rfl := Except.ok.inj h; exact hstart
  | succ n ih =>
    intro e s t h hq hlim hstart
    rw [State.decEntries] at h
    cases he : s.decEntry e with
    | error err => rw [he] at h; cases h
    | ok s' =>
      rw [he] at h
      obtain ⟨L, c, x, m, -, hq', rfl⟩ := State.decEntry_ok he
      exact ih h hq' hlim (hq.trans_lt hlim)

theorem State.Inv.decTable (h : s.Inv) (hp : s.engine.phase = .decTable) : s.decTable.Good := by
  have hdepth := (Params.srcDepth_ok h.params).2.2
  have hbusy : s.busy = true := by rw [State.busy, hp]
  have hphase := h.phase
  simp only [State.PhaseOk, hp] at hphase
  obtain ⟨hcmd, hsrc, hqlim, hfirst, hq⟩ := hphase
  obtain ⟨-, hk, htbits, hpbits, hstart, -, hoptr, haccN, -, hlim, hmbuf, hmstart, hocnt⟩ := h.engine
  rw [State.decTable, if_neg (by omega)]
  rcases State.decEntries_eq_readEntries s.engine.work.ns.toNat 0 [] (s := s.withDt DecodeTable.cleared) hq with
    ⟨err, hread, hdec⟩ | ⟨xs, start, w, hw, -, -, -, hdec⟩
  · rw [hdec]
    exact readEntries_detailOk _ hread
  have hstart' : start < 2 ^ 32 := State.decEntries_start_lt _ hdec hq hlim hstart
  rw [State.unread_length] at hw
  have hq' : s.engine.unpacker.q + w ≤ s.engine.unpacker.qlim := by
    change w ≤ s.engine.unpacker.qlim - s.engine.unpacker.q at hw
    omega
  have hns := s.engine.work.ns.isLt
  rw [hdec]
  obtain ⟨hok, hgct, -, hgsrc, hgdst⟩ := h.sound
  have hsound : (s.withDt (storeEntries DecodeTable.cleared 0 xs)).Sound :=
    ⟨hok, hgct, (DecodeTable.good_cleared s.draw).storeEntries xs 0, hgsrc, hgdst⟩
  refine ⟨hok, hsound.memoriesOk, hsound.drawsOk, ?_, ⟨hcmd, ⟨hsrc, hqlim, le_refl _, hq'⟩, ?_⟩,
    fun _ => h.running hbusy, h.detail⟩
  · exact ⟨(by omega : s.engine.work.ns.toNat < 2 ^ 32), hk, htbits, hpbits, hstart',
      (by omega : s.engine.unpacker.q + w < 2 ^ 32), hoptr, haccN, (by omega : s.engine.unpacker.q + w < 2 ^ 32), hlim,
      hmbuf, hmstart, hocnt⟩
  · change 24 ≤ s.engine.unpacker.q + w
    omega

/-! ## DEC_PAYLOAD -/

/-- The entries DT holds, whether a table was parsed into them or not. -/
def DecodeTable.entries (dt : DecodeTable) (n : Nat) : List Entry :=
  (List.range n).map fun e => ⟨(dt.len.read e).toNat, (dt.code.read e).toNat, dt.sym.read e⟩

theorem State.matches_entries (s : State) : s.Matches (s.dt.entries s.engine.work.nSym) := by
  intro buf
  rw [DecodeTable.matchCode, findEntry, DecodeTable.entries, List.find?_map, Option.map_map]
  rfl

theorem readPayload_detailOk {p : Params} {entries : List Entry} {e : EngineError} (bits : Bits) :
    ∀ {pos ms : Nat} {buf : Bits} {out : List Byte}, readPayload p entries pos ms buf out bits = .error e →
      e.DetailOk := by
  induction bits with
  | nil =>
    intro pos ms buf out h
    rw [readPayload] at h
    split_ifs at h
    obtain rfl := Except.error.inj h
    exact fun _ => rfl
  | cons b bits ih =>
    intro pos ms buf out h
    rw [readPayload] at h
    cases hfind : findEntry entries (buf ++ [b]) with
    | some x =>
      simp only [hfind] at h
      split_ifs at h
      · obtain rfl := Except.error.inj h; exact fun _ => rfl
      · exact ih h
    | none =>
      simp only [hfind] at h
      split_ifs at h
      · obtain rfl := Except.error.inj h; exact fun _ => rfl
      · exact ih h

theorem State.Inv.decPayload (h : s.Inv) (hp : s.engine.phase = .decPayload) : s.decPayload.Good := by
  have hphase := h.phase
  simp only [State.PhaseOk, hp] at hphase
  obtain ⟨-, ⟨hsrc, hqlim, -, -⟩, -⟩ := hphase
  rw [State.decPayload_eq, if_neg (by omega)]
  rcases State.decRest_eq_readPayload s.unread (s := s.withMatcher ⟨[], s.engine.unpacker.q, 0⟩) (out := []) rfl
    s.matches_entries rfl with ⟨err, hread, hdec⟩ | ⟨out, m, q, -, -, hdec⟩
  · rw [hdec]
    exact readPayload_detailOk _ hread
  · rw [hdec]
    obtain ⟨hok, hct, hdt, hsrc, hdst⟩ := h.sound
    exact ⟨hok, hct, hdt, hsrc, hdst.writeList 0 out⟩

/-! ## The engine step -/

theorem State.Inv.phaseStep (h : s.Inv) : s.phaseStep.Good := by
  unfold State.phaseStep
  cases hp : s.engine.phase with
  | idle => exact h
  | encScan => exact h.encScan hp
  | encEmit => exact h.encEmit hp
  | decHeader => exact h.decHeader hp
  | decTable => exact h.decTable hp
  | decPayload => exact h.decPayload hp
  | clear =>
    obtain ⟨hok, -, hdt, hsrc, hdst⟩ := h.sound
    exact ⟨hok, CodeTable.good_cleared s.draw, hdt, hsrc, hdst⟩

theorem State.Inv.runPhases (n : Nat) : ∀ {s : State}, s.Inv → (State.runPhases n s).Good := by
  induction n with
  | zero => exact fun h => h
  | succ n ih =>
    intro s h
    have hstep := h.phaseStep
    rw [State.runPhases]
    generalize s.phaseStep = r at hstep ⊢
    cases r with
    | goOn u => exact ih hstep
    | finish r u => exact hstep
    | raise e => exact hstep
    | fault f => exact hstep

theorem State.Inv.conclude (h : s.Inv) {r : PhaseResult} (hr : r.Good) : ∃ t, s.conclude r = .next t ∧ t.Inv := by
  cases r with
  | goOn u => exact ⟨u, rfl, hr⟩
  | finish r u => exact ⟨_, rfl, hr.complete r⟩
  | raise e => exact ⟨_, rfl, h.sound.fail hr⟩
  | fault f => exact hr.elim

/-- An engine step of a good block answers a good block. -/
theorem State.Inv.engineStep (h : s.Inv) : ∃ t, s.engineStep = .next t ∧ t.Inv := by
  rcases s.engineStep_cases with ⟨-, hs⟩ | ⟨-, ⟨u, hu, hs⟩ | ⟨-, hs⟩⟩
  · rw [hs]
    exact h.conclude (State.Inv.runPhases maxPhases h)
  · have hgood := h.phaseStep
    rw [hu] at hgood
    exact ⟨_, hs, hgood.countStep⟩
  · exact ⟨_, hs, h.countStep⟩

/-! ## The other moves -/

theorem State.Inv.withPort (h : s.Inv) (p : Port) : (s.withPort p).Inv where
  params := h.params
  memories := h.memories
  draws := h.draws
  engine := h.engine
  phase := h.phase.congr ⟨rfl, rfl, rfl, rfl, rfl, rfl, rfl, rfl⟩
  running := h.running
  detail := h.detail

theorem State.Inv.withDraw (h : s.Inv) {n : Nat} (hn : s.draw ≤ n) : (s.withDraw n).Inv := by
  obtain ⟨hok, hct, hdt, hsrc, hdst⟩ := h.sound
  have hsound : (s.withDraw n).Sound := ⟨hok, hct.mono hn, hdt.mono hn, hsrc.mono hn, hdst.mono hn⟩
  exact ⟨hok, h.memories, hsound.drawsOk, h.engine, h.phase.congr ⟨rfl, rfl, rfl, rfl, rfl, rfl, rfl, rfl⟩, h.running,
    h.detail⟩

theorem State.Inv.reject (h : s.Inv) : s.reject.Inv where
  params := h.params
  memories := h.memories
  draws := h.draws
  engine := h.engine
  phase := h.phase.congr ⟨rfl, rfl, rfl, rfl, rfl, rfl, rfl, rfl⟩
  running hb := by
    obtain ⟨hdone, herr, hcode, hdetail, hpos, hres⟩ := h.running hb
    exact ⟨hdone, herr, hcode, hdetail, hpos, hres⟩
  detail := h.detail

theorem State.Inv.startCommand (h : s.Inv) {c : BitVec 3} {ph : Phase} (hc : Phase.StartOf c ph) :
    (s.startCommand c ph).Inv where
  params := h.params
  memories := h.memories
  draws := h.draws
  engine := ⟨h.engine.nSym, h.engine.k, h.engine.tbits, h.engine.pbits, h.engine.start, h.engine.tend, h.engine.optr,
    h.engine.accN, h.engine.q, h.engine.qlim, h.engine.mbuf, h.engine.mstart, h.engine.ocnt⟩
  phase := by cases hc <;> exact rfl
  running _ := ⟨rfl, rfl, rfl, rfl, rfl, rfl⟩
  detail _ := rfl

theorem State.Inv.refuseReserved (h : s.Inv) (hidle : s.busy = false) (c : BitVec 3) : (s.refuseReserved c).Inv := by
  obtain ⟨hok, hct, hdt, hsrc, hdst⟩ := h.sound
  have hsound : (s.refuseReserved c).Sound := ⟨hok, hct, hdt, hsrc, hdst⟩
  exact hsound.inv_of_idle ((State.busy_eq_false_iff s).1 hidle) h.engine fun _ => rfl

/-- A write that takes effect keeps a block sound, whatever its target. -/
theorem State.Sound.writeRegion (h : s.Sound) (v : Word) (r : Region) : (s.writeRegion v r).Sound := by
  obtain ⟨hok, hct, hdt, hsrc, hdst⟩ := h
  cases r with
  | reg off => simp only [State.writeRegion]; split_ifs <;> exact ⟨hok, hct, hdt, hsrc, hdst⟩
  | ct x k => exact ⟨hok, hct.hostWrite x k v, hdt, hsrc, hdst⟩
  | dt e k => exact ⟨hok, hct, hdt, hsrc, hdst⟩
  | src i => exact ⟨hok, hct, hdt, hsrc.writeList i _, hdst⟩
  | dst i => exact ⟨hok, hct, hdt, hsrc, hdst.writeList i _⟩

/-- The error fields of the register block are no target of a write (40_host_access.md R142). -/
theorem State.writeRegion_error (s : State) (v : Word) (r : Region) :
    (s.writeRegion v r).regs.errorCode = s.regs.errorCode ∧
      (s.writeRegion v r).regs.errorDetail = s.regs.errorDetail := by
  cases r with
  | reg off => simp only [State.writeRegion]; split_ifs <;> exact ⟨rfl, rfl⟩
  | ct | dt | src | dst => exact ⟨rfl, rfl⟩

/-- What a write to a target that is not busy-guarded can change: a flag of STATUS to 0, and IRQ_EN (R143 to R145). -/
theorem State.writeRegion_unguarded (s : State) (v : Word) {r : Region} (hg : r.busyGuarded = false) :
    ∃ done err rej irqEn, s.writeRegion v r = s.withRegs { s.regs with done, err, rej, irqEn } ∧
      (s.regs.done = false → done = false) ∧ (s.regs.err = false → err = false) := by
  cases r with
  | reg off =>
    have hoff : off ≠ 0x018 := by simpa [Region.busyGuarded] using hg
    simp only [State.writeRegion, if_neg hoff]
    split_ifs
    · exact ⟨_, _, _, _, rfl, fun h => by rw [h]; rfl, fun h => by rw [h]; rfl⟩
    · exact ⟨_, _, _, _, rfl, id, id⟩
    · exact ⟨_, _, _, _, rfl, id, id⟩
  | dt e k => exact ⟨_, _, _, _, rfl, id, id⟩
  | ct | src | dst => cases hg

theorem State.Inv.writeRegion (h : s.Inv) (v : Word) {r : Region} (hg : (r.busyGuarded && s.busy) = false) :
    (s.writeRegion v r).Inv := by
  have hsound := h.sound.writeRegion v r
  obtain ⟨hcode, hdetail⟩ := s.writeRegion_error v r
  have hengine := s.writeRegion_engine v r
  have hdet : (s.writeRegion v r).regs.errorCode ≠ .malformedHeader → (s.writeRegion v r).regs.errorDetail = 0 := by
    rw [hcode, hdetail]
    exact h.detail
  cases hb : s.busy with
  | false =>
    exact hsound.inv_of_idle ((congrArg Engine.phase hengine).trans ((State.busy_eq_false_iff s).1 hb))
      (hengine ▸ h.engine) hdet
  | true =>
    obtain ⟨done, err, rej, irqEn, hwrite, hdone, herr⟩ := s.writeRegion_unguarded v (by simpa [hb] using hg)
    obtain ⟨hd, he, hcode, hdetail, hpos, hres⟩ := h.running hb
    rw [hwrite]
    exact ⟨h.params, h.memories, h.draws, h.engine, h.phase.congr ⟨rfl, rfl, rfl, rfl, rfl, rfl, rfl, rfl⟩,
      fun _ => ⟨hdone hd, herr he, hcode, hdetail, hpos, hres⟩, h.detail⟩

/-! ## Every step -/

theorem State.Inv.step (h : s.Inv) : ∃ t, step s = .next t ∧ t.Inv := by
  have hmoves := step_moves s
  generalize Sys2Proof.Machine.step s = o at hmoves ⊢
  cases hmoves with
  | quiet p n hp hn => exact ⟨_, rfl, (h.withPort p).withDraw hn⟩
  | reset p hp hreset => exact ⟨_, rfl, h.sound.resetEffect.withPort p⟩
  | engine p hp hnext => exact (h.withPort p).engineStep
  | drop p hp hb off v hw => exact ⟨_, rfl, (h.withPort p).reject⟩
  | start p hp hb v hw c ph hc => exact ⟨_, rfl, (h.withPort p).startCommand hc⟩
  | refuse p hp hb v hw c => exact ⟨_, rfl, (h.withPort p).refuseReserved hb c⟩
  | write p hp off v r hw hr hg => exact ⟨_, rfl, (h.withPort p).writeRegion v hg⟩

/-- Settles O56: a phase that would fault is one no good block reaches. -/
theorem goodStatesNeverStop : Obligations.GoodStatesNeverStop := by
  intro s h
  obtain ⟨t, ht, -⟩ := h.step
  exact ⟨t, ht⟩

/-- Settles O55: every move keeps the invariant. -/
theorem stepKeepsGoodStates : Obligations.StepKeepsGoodStates := by
  intro s t h ht
  obtain ⟨t', ht', hinv⟩ := h.step
  obtain rfl := Host.Outcome.next.inj (ht.symm.trans ht')
  exact hinv

end Sys2Proof.Machine
end

section
/-! PROOF. A turn of the engine, a command word and a read as steps: what each answers, and that no transaction but
SRESET disturbs a running command (40_host_access.md R140, R152, R160, 70_reset_and_hazards.md R330). -/

namespace Sys2Proof.Machine

variable {s : State}

/-! ## Turns -/

/-- An engine event is the engine's turn, off the list. -/
theorem step_engineEvent_busy {rest : List Input} (h : s.port.inputs = .engine :: rest) (hb : s.busy = true) :
    step s = (s.withPort { s.port with inputs := rest }).engineStep :=
  step_of_engine ((State.turn_cons h).trans (if_pos hb))

theorem step_engineEvent_idle {rest : List Input} (h : s.port.inputs = .engine :: rest) (hb : s.busy = false) :
    step s = .next (s.withPort { s.port with inputs := rest }) :=
  step_of_done ((State.turn_cons h).trans (if_neg (ne_true_of_eq_false hb)))

theorem step_nil_idle (h : s.port.inputs = []) (hb : s.busy = false) : step s = .next s :=
  step_of_done ((State.turn_nil h).trans (if_neg (ne_true_of_eq_false hb)))

/-- Settles O6: the turn is the engine's, which has a step to take while busy and none while idle. -/
theorem engineTurnsStepOnlyWhileBusy : Obligations.EngineTurnsStepOnlyWhileBusy := fun _ =>
  ⟨fun _ h => ⟨step_engineEvent_busy h, step_engineEvent_idle h⟩, fun h => ⟨step_engine h, step_nil_idle h⟩⟩

/-- Settles O14: the transaction's turn is done without an answer. -/
theorem assertedRstAnswersNothing : Obligations.AssertedRstAnswersNothing := by
  intro s t rest hrst h
  have hturn := (State.turn_cons h).trans (if_pos hrst)
  rw [step_of_done hturn]
  simp only [State.withPort, hrst]

/-- Engine events on an idle block only leave the list. -/
theorem Runs.engineEvents_idle (k : Nat) (rest : List Input) :
    ∀ {s : State}, s.busy = false → Runs k (s.withPort { s.port with inputs := List.replicate k .engine ++ rest })
      (s.withPort { s.port with inputs := rest }) := by
  induction k with
  | zero => exact fun _ => rfl
  | succ k ih => exact fun hb => Runs.cons (step_engineEvent_idle rfl hb) (ih hb)

/-- Settles O13: the reset block is idle, and stays so. -/
theorem sresetAbandonsRunningCommand : Obligations.SresetAbandonsRunningCommand := fun s k _ =>
  ⟨s.resetEffect, exec_sreset s, s.resetEffect_busy, rfl, rfl, fun rest =>
    Runs.engineEvents_idle k rest s.resetEffect_busy⟩

/-! ## Command words -/

/-- Settles O5: the write's turn is a command, and every word decodes. -/
theorem stepRunsDecodedCommand : Obligations.StepRunsDecodedCommand := by
  intro s v
  have hoff := offsetOf_base s.params (off := ctrlOffset) (by decide)
  refine step_of_command (u := s.answered .okay none) ?_
  simp only [State.turn, State.withEvent, State.wrEvent, State.inputTurn, State.hostTurn, State.withPort_port,
    State.withPort_params, Bool.false_eq_true, if_false, hoff, and_self, if_true]
  rfl

/-- Settles O9: idle, each of the three is `StartCommand`. -/
theorem idleBlockStartsCommands : Obligations.IdleBlockStartsCommands := by
  intro s hb regs engine
  refine ⟨?_, ?_, ?_⟩
  · rw [exec_encode, State.issue_idle hb]; rfl
  · rw [exec_decode, State.issue_idle hb]; rfl
  · rw [exec_clearTable, State.issue_idle hb]; rfl

/-- Settles O7: the decoder's order is that of the fields, and a busy block drops all but NOP and SRESET. -/
theorem commandDispatchOrder : Obligations.CommandDispatchOrder := by
  intro s v u start
  have hissue {c : BitVec 3} {ph : Phase} :
      u.issue c ph = if u.busy = true then { u with regs := { u.regs with rej := true } } else start c ph := rfl
  refine ⟨_, (stepRunsDecodedCommand s v).trans ?_, ?_, rfl⟩
  · rw [Sys2Proof.decode, sresetField, cmdField, decodeCmd]
    split_ifs with h31 h0 h1 hb h2 hb h3 hb hb
    · rfl
    · rfl
    · rw [exec_encode, hissue, if_pos hb]
    · rw [exec_encode, hissue, if_neg hb]
    · rw [exec_decode, hissue, if_pos hb]
    · rw [exec_decode, hissue, if_neg hb]
    · rw [exec_clearTable, hissue, if_pos hb]
    · rw [exec_clearTable, hissue, if_neg hb]
    · rw [exec_reservedCmd_busy hb, State.reject_spec]
    · rw [exec_reservedCmd_idle (eq_false_of_ne_true hb)]
  · split_ifs <;> rfl

/-! ## Transactions that disturb nothing -/

/-- Settles O37: of the moves only the quiet ones are a read's. -/
theorem readsHaveNoSideEffects : Obligations.ReadsHaveNoSideEffects := by
  intro s addr bytes
  have hmoves := step_moves (s.withEvent (.host (.rd addr bytes)))
  generalize step (s.withEvent (.host (.rd addr bytes))) = o at hmoves ⊢
  have hwrite {off : Nat} {v : Word} : ¬ (s.withEvent (.host (.rd addr bytes))).WriteNext off v := by
    rintro ⟨_, _, hin, -⟩
    cases hin
  cases hmoves with
  | quiet p n hp hn => exact ⟨_, rfl, rfl, rfl, rfl, rfl, rfl, rfl, rfl, hp⟩
  | reset p hp hreset => rcases hreset with ⟨_, hin⟩ | ⟨_, _, _, hin, -⟩ <;> cases hin
  | engine p hp hnext => rcases hnext with ⟨-, hin | ⟨_, hin⟩⟩ <;> cases hin
  | drop p hp hb off v hw => exact absurd hw hwrite
  | start p hp hb v hw => exact absurd hw hwrite
  | refuse p hp hb v hw => exact absurd hw hwrite
  | write p hp off v r hw => exact absurd hw hwrite

/-- Settles O19: on a busy block a transaction that does not reset is quiet, is dropped, or writes STATUS or IRQ_EN. -/
theorem hostCannotDisturbRunningCommand : Obligations.HostCannotDisturbRunningCommand := by
  intro s x hbusy hx
  have hmoves := step_moves (s.withEvent (.host x))
  generalize step (s.withEvent (.host x)) = o at hmoves ⊢
  have hidle : ¬ (s.withEvent (.host x)).busy = false := ne_false_of_eq_true hbusy
  cases hmoves with
  | quiet p n hp hn => exact ⟨_, rfl, rfl, rfl, rfl, rfl, rfl, rfl, rfl, rfl, rfl, rfl, hp⟩
  | reset p hp hreset =>
    rcases hreset with ⟨_, hin⟩ | ⟨_, addr, v, hin, -, hoff, hset⟩
    · cases hin
    · obtain rfl : x = .wr addr 4 v := Input.host.inj (List.cons.inj hin).1
      exact Bool.noConfusion (hset.symm.trans (hx addr v rfl hoff))
  | engine p hp hnext => rcases hnext with ⟨-, hin | ⟨_, hin⟩⟩ <;> cases hin
  | drop p hp hb off v hw => exact ⟨_, rfl, rfl, rfl, rfl, rfl, rfl, rfl, rfl, rfl, rfl, rfl, hp⟩
  | start p hp hb => exact absurd hb hidle
  | refuse p hp hb => exact absurd hb hidle
  | write p hp off v r hw hr hg =>
    have hguard : r.busyGuarded = false := by
      rwa [show (s.withEvent (.host x)).busy = true from hbusy, Bool.and_true] at hg
    obtain ⟨_, _, _, _, hwrite, -⟩ := ((s.withEvent (.host x)).withPort p).writeRegion_unguarded v hguard
    rw [hwrite]
    exact ⟨_, rfl, rfl, rfl, rfl, rfl, rfl, rfl, rfl, rfl, rfl, rfl, hp⟩

/-! ## Interrupt -/

/-- Settles O52: ACK clears all three flags, a start DONE and ERR. -/
theorem irqFollowsStatusAndEnables : Obligations.IrqFollowsStatusAndEnables := by
  refine ⟨State.irq_eq_true_iff, fun s t h => ?_, fun s t i hb hi h => ?_⟩
  · rw [statusWriteClearsW1C s 0xE#32] at h
    obtain rfl := Host.Outcome.next.inj h
    rfl
  · have hstart : ∃ c ph, t = s.startCommand c ph := by
      simp only [List.mem_cons, List.not_mem_nil, or_false] at hi
      rcases hi with rfl | rfl | rfl
      · rw [exec_encode, State.issue_idle hb] at h; exact ⟨_, _, (Host.Outcome.next.inj h).symm⟩
      · rw [exec_decode, State.issue_idle hb] at h; exact ⟨_, _, (Host.Outcome.next.inj h).symm⟩
      · rw [exec_clearTable, State.issue_idle hb] at h; exact ⟨_, _, (Host.Outcome.next.inj h).symm⟩
    obtain ⟨c, ph, rfl⟩ := hstart
    rw [State.irq_eq_true_iff]
    simp only [State.startCommand, State.withEngine_regs, State.withRegs_regs, Bool.false_eq_true, false_and, false_or]

end Sys2Proof.Machine
end

section
/-! PROOF. Commands run whole: CLEAR_TABLE to a table of zeros, the number of engine steps every command takes, and what
a successful ENCODE leaves (40_host_access.md R156, R160 to R162, 42_encode.md R225). -/

namespace Sys2Proof.Machine

variable {s t : State}

/-! ## CLEAR_TABLE -/

/-- The last engine step of CLEAR_TABLE completes it. -/
theorem State.engineStep_clear_last (hp : s.engine.phase = .clear) (hl : s.engine.left ≤ 1) :
    s.engineStep = .next ((s.withCt CodeTable.cleared).complete Results.zero) := by
  rw [State.engineStep, if_pos hl]
  simp only [State.runPhases, State.phaseStep, hp]
  rfl

/-- An earlier one is only counted. -/
theorem State.engineStep_clear_early (hp : s.engine.phase = .clear) (hl : 1 < s.engine.left) :
    s.engineStep = .next s.countStep := by
  rw [State.engineStep, if_neg (Nat.not_le.2 hl)]
  simp only [State.phaseStep, hp]
  rfl

theorem State.busy_of_clear (hp : s.engine.phase = .clear) : s.busy = true := by
  rw [State.busy, hp]

/-- CLEAR_TABLE from an idle block, to its completion. -/
theorem clearTable_runs (hok : s.params.ok = true) (hidle : s.busy = false) (hinputs : s.port.inputs = []) :
    ∃ t, exec .clearTable s = .next t ∧
      Runs s.params.engineSteps t ((t.withCt CodeTable.cleared).complete Results.zero) := by
  refine ⟨s.startCommand 3#3 .clear, by rw [exec_clearTable, State.issue_idle hidle], ?_⟩
  exact Runs.of_engineSteps (P := fun u => u.engine.phase = .clear)
    (F := fun u => (u.withCt CodeTable.cleared).complete Results.zero) (fun _ => State.busy_of_clear)
    (fun _ => State.engineStep_clear_last)
    (fun u hp hl => ⟨u.countStep, State.engineStep_clear_early hp hl, rfl, rfl, hp, rfl⟩)
    (Params.one_le_engineSteps hok) rfl hinputs rfl

/-- Settles O17: the run ends in the completion, which has CT cleared. -/
theorem clearTableRunsToZeroTable : Obligations.ClearTableRunsToZeroTable := by
  intro s hok hidle hinputs
  obtain ⟨t, hexec, hrun⟩ := clearTable_runs hok hidle hinputs
  obtain rfl : s.startCommand 3#3 .clear = t := by
    rw [exec_clearTable, State.issue_idle hidle] at hexec
    exact Host.Outcome.next.inj hexec
  have hzero (x w : Nat) : CodeTable.cleared.isValid x = false ∧ CodeTable.cleared.lenOf x = 0 ∧
      CodeTable.cleared.wordOf x w = 0 := ⟨CodeTable.isValid_reset 0 x, rfl, rfl⟩
  exact ⟨_, _, hexec, hrun, hzero, rfl, rfl, rfl, rfl, rfl, rfl, rfl⟩

/-! ## The number of engine steps -/

/-- What an engine step before a command's last keeps of what the host can see of the command's inputs. -/
structure State.SameForHost (s t : State) : Prop where
  regs : t.regs = s.regs
  ct : t.ct = s.ct
  src : t.src = s.src
  dst : t.dst = s.dst

/-- If every engine step but the last keeps `P` and the host's view, a command still runs after any number of steps
below `left`, with the host's view unchanged. -/
theorem Runs.of_earlySteps {P : State → Prop}
    (hbusy : ∀ u, P u → u.busy = true)
    (hearly : ∀ u, P u → 1 < u.engine.left →
      ∃ v, u.engineStep = .next v ∧ v.port = u.port ∧ v.engine.left = u.engine.left - 1 ∧ P v ∧ u.SameForHost v)
    (k : Nat) : ∀ {u : State}, k < u.engine.left → u.port.inputs = [] → P u →
      ∃ v, Runs k u v ∧ v.busy = true ∧ u.SameForHost v := by
  induction k with
  | zero => exact fun {u} _ _ hu => ⟨u, rfl, hbusy u hu, rfl, rfl, rfl, rfl⟩
  | succ k ih =>
    intro u hk hinputs hu
    obtain ⟨v, hstep, hport, hleft, hv, hregs, hct, hsrc, hdst⟩ := hearly u hu (by omega)
    obtain ⟨w, hrun, hb, hregs', hct', hsrc', hdst'⟩ := ih (by omega) (by rw [hport, hinputs]) hv
    exact ⟨w, Runs.cons ((step_engine hinputs (hbusy u hu)).trans hstep) hrun, hb, hregs'.trans hregs, hct'.trans hct,
      hsrc'.trans hsrc, hdst'.trans hdst⟩

theorem State.commitEncode_ends (s : State) (o : Except EngineError EncodeOk) :
    (s.commitEncode o).busy = false ∧ (s.commitEncode o).regs.done = true := by
  cases o <;> exact ⟨rfl, rfl⟩

theorem State.commitDecode_ends (s : State) (o : Except EngineError DecodeOk) :
    (s.commitDecode o).busy = false ∧ (s.commitDecode o).regs.done = true := by
  cases o <;> exact ⟨rfl, rfl⟩

/-- A started ENCODE, DECODE or CLEAR_TABLE runs on while engine steps are left. -/
theorem started_runs_on {i : Instr} (hidle : s.busy = false) (hinputs : s.port.inputs = [])
    (hi : i ∈ [Instr.encode, Instr.decode, Instr.clearTable]) (hexec : exec i s = .next t) {k : Nat}
    (hk : k < s.params.engineSteps) : ∃ u, Runs k t u ∧ u.busy = true ∧ t.SameForHost u := by
  simp only [List.mem_cons, List.not_mem_nil, or_false] at hi
  rcases hi with rfl | rfl | rfl
  · rw [exec_encode, State.issue_idle hidle] at hexec
    obtain rfl := Host.Outcome.next.inj hexec
    refine Runs.of_earlySteps (P := State.Encoding) (fun _ h => h.busy) (fun u h hl => ?_) k hk hinputs (.scan rfl)
    obtain ⟨e, hstep, hleft, henc⟩ := h.early hl
    exact ⟨_, hstep, rfl, hleft, henc, rfl, rfl, rfl, rfl⟩
  · rw [exec_decode, State.issue_idle hidle] at hexec
    obtain rfl := Host.Outcome.next.inj hexec
    refine Runs.of_earlySteps (P := State.Decoding) (fun _ h => h.busy) (fun u h hl => ?_) k hk hinputs (.header rfl)
    obtain ⟨dt, e, hstep, hleft, hdec⟩ := h.early hl
    exact ⟨_, hstep, rfl, hleft, hdec, rfl, rfl, rfl, rfl⟩
  · rw [exec_clearTable, State.issue_idle hidle] at hexec
    obtain rfl := Host.Outcome.next.inj hexec
    refine Runs.of_earlySteps (P := fun u => u.engine.phase = .clear) (fun _ => State.busy_of_clear) (fun u hp hl => ?_)
      k hk hinputs rfl
    exact ⟨_, State.engineStep_clear_early hp hl, rfl, rfl, hp, rfl, rfl, rfl, rfl⟩

/-- After ENGINE_STEPS engine steps a started command has completed. -/
theorem started_completes {i : Instr} (hok : s.params.ok = true) (hidle : s.busy = false) (hinputs : s.port.inputs = [])
    (hi : i ∈ [Instr.encode, Instr.decode, Instr.clearTable]) (hexec : exec i s = .next t) :
    ∃ u, Runs s.params.engineSteps t u ∧ u.busy = false ∧ u.regs.done = true := by
  have hsame {t' : State} (h : exec i s = .next t') : t' = t := Host.Outcome.next.inj (h.symm.trans hexec)
  simp only [List.mem_cons, List.not_mem_nil, or_false] at hi
  rcases hi with rfl | rfl | rfl
  · obtain ⟨t', hexec', hrun⟩ := encodeRunsToEncodeOutcome s hok hidle hinputs
    obtain rfl := hsame hexec'
    exact ⟨_, hrun, State.commitEncode_ends _ _⟩
  · obtain ⟨t', hexec', hrun⟩ := decodeRunsToDecodeOutcome s hok hidle hinputs
    obtain rfl := hsame hexec'
    exact ⟨_, hrun, State.commitDecode_ends _ _⟩
  · obtain ⟨t', hexec', hrun⟩ := clearTable_runs hok hidle hinputs
    obtain rfl := hsame hexec'
    exact ⟨_, hrun, rfl, rfl⟩

/-- A command that starts leaves CT, SRC and DST alone. -/
theorem State.issue_buffers (s : State) (c : BitVec 3) (ph : Phase) :
    (s.issue c ph).ct = s.ct ∧ (s.issue c ph).src = s.src ∧ (s.issue c ph).dst = s.dst := by
  rw [State.issue]
  split_ifs <;> exact ⟨rfl, rfl, rfl⟩

/-- Settles O18: each step but the last keeps a command running and the host's view; the last completes it. -/
theorem commandsTakeEngineSteps : Obligations.CommandsTakeEngineSteps := by
  intro s t i hok hidle hinputs hi hexec
  refine ⟨fun k hk => ?_, started_completes hok hidle hinputs hi hexec⟩
  obtain ⟨u, hrun, hb, hregs, hct, hsrc, hdst⟩ := started_runs_on hidle hinputs hi hexec hk
  have hbuffers : t.ct = s.ct ∧ t.src = s.src ∧ t.dst = s.dst := by
    simp only [List.mem_cons, List.not_mem_nil, or_false] at hi
    rcases hi with rfl | rfl | rfl <;> obtain rfl := Host.Outcome.next.inj hexec <;> exact s.issue_buffers _ _
  obtain ⟨hct', hsrc', hdst'⟩ := hbuffers
  exact ⟨u, hrun, hb, hregs, hct.trans hct', hsrc.trans hsrc', hdst.trans hdst'⟩

/-! ## What ENCODE leaves -/

theorem Memory.read_writeList_zero_past {size : Nat} (m : Memory 8) (l : List Byte) {j : Nat} (hj : l.length ≤ j) :
    (m.writeList size 0 l).read j = m.read j := by
  rw [Memory.read_writeList, dif_neg (by omega)]

/-- A length that fits a buffer fits the register that reports it. -/
theorem Params.toNat_ofNat_of_le_dstDepth {p : Params} (h : p.ok = true) {n : Nat} (hn : n ≤ p.dstDepth) :
    (Word.ofNat n).toNat = n := by
  have hdepth := (Params.dstDepth_ok h).2.2
  exact (BitVec.toNat_ofNat _ _).trans (Nat.mod_eq_of_lt (by omega))

/-- Settles O35: the run ends in the completion of `Encode`'s `Ok`, which writes its bytes from place 0 on. -/
theorem encodeSuccessFrame : Obligations.EncodeSuccessFrame := by
  intro s r hok hidle hinputs ho
  obtain ⟨t, hexec, hrun⟩ := encodeRunsToEncodeOutcome s hok hidle hinputs
  rw [ho] at hrun
  have hstart := hexec
  rw [exec_encode, State.issue_idle hidle] at hstart
  obtain rfl := Host.Outcome.next.inj hstart
  have hfit : r.bytes.length ≤ s.params.dstDepth := by
    obtain ⟨-, -, -, hdst, rfl⟩ := encodeFn_eq_ok ho
    rwa [bytesOfBits_length]
  exact ⟨_, _, hexec, hrun, rfl, Params.toNat_ofNat_of_le_dstDepth hok hfit, hfit,
    fun j hj => s.dst.read_writeList_zero hfit hj, fun j hj => s.dst.read_writeList_zero_past r.bytes hj,
    rfl, rfl, rfl, rfl, rfl, rfl⟩

end Sys2Proof.Machine
end

section
/-! PROOF. What `Decode`'s `Ok` says of its entries and symbols, and what a successful DECODE leaves (43_decode.md R259
to R268, R271). -/

namespace Sys2Proof.Machine

variable {s : State} {p : Params}

/-! ## The parsed entries -/

theorem readLength_len_le (bits : Bits) : ∀ {more L k : Nat} {rest : Bits}, readLength more L bits = .len k rest →
    k ≤ L + more := by
  induction bits with
  | nil => intro more L k rest h; rw [readLength_nil] at h; cases h
  | cons b bits ih =>
    intro more L k rest h
    cases b with
    | false => rw [readLength_false] at h; cases h; exact Nat.le_add_right _ _
    | true =>
      cases more with
      | zero => rw [readLength_zero_true] at h; cases h
      | succ more =>
        rw [readLength_succ_true] at h
        exact (ih h).trans_eq (by omega)

/-- A parsed entry is one DT holds without loss. -/
theorem readEntry_fits {pos : Nat} {bits rest : Bits} {x : Entry} (h : readEntry pos bits = .ok (x, rest)) :
    x.Fits := by
  unfold readEntry at h
  cases hr : readLength Config.maxCodeLen 0 bits with
  | runsOut => simp only [hr] at h; cases h
  | tooLong => simp only [hr] at h; cases h
  | len L tail =>
    simp only [hr] at h
    split_ifs at h
    obtain rfl := (Prod.mk.inj (Except.ok.inj h)).1
    have hL : L ≤ 0 + 255 := readLength_len_le bits hr
    refine ⟨by simp only; omega, (bitsVal_lt _).trans_le (Nat.pow_le_pow_right Nat.two_pos ?_)⟩
    rw [List.length_take]
    omega

/-- As many entries as the header declares, each of which fits. -/
theorem readEntries_ok (n : Nat) : ∀ {pos : Nat} {done xs : List Entry} {bits rest : Bits},
    readEntries n pos done bits = .ok (xs, rest) → (∀ x ∈ done, x.Fits) →
      xs.length = done.length + n ∧ ∀ x ∈ xs, x.Fits := by
  induction n with
  | zero =>
    intro pos done xs bits rest h hdone
    rw [readEntries] at h
    obtain rfl := (Prod.mk.inj (Except.ok.inj h)).1
    exact ⟨rfl, hdone⟩
  | succ n ih =>
    intro pos done xs bits rest h hdone
    rw [readEntries_succ] at h
    cases hr : readEntry pos bits with
    | error e => rw [hr] at h; cases h
    | ok y =>
      obtain ⟨x, tail⟩ := y
      rw [hr] at h
      have hx : ∀ y ∈ done ++ [x], y.Fits :=
        List.forall_mem_append.2 ⟨hdone, List.forall_mem_singleton.2 (readEntry_fits hr)⟩
      obtain ⟨hlen, hfits⟩ := ih h hx
      rw [List.length_append, List.length_singleton] at hlen
      exact ⟨by omega, hfits⟩

/-- The symbols of a payload fit DST (R265). -/
theorem readPayload_length_le {entries : List Entry} (bits : Bits) : ∀ {pos ms : Nat} {buf : Bits}
    {out out' : List Byte}, readPayload p entries pos ms buf out bits = .ok out' → out.length ≤ p.dstDepth →
      out'.length ≤ p.dstDepth := by
  induction bits with
  | nil =>
    intro pos ms buf out out' h hout
    rw [readPayload] at h
    split_ifs at h
    obtain rfl := Except.ok.inj h
    exact hout
  | cons b bits ih =>
    intro pos ms buf out out' h hout
    rw [readPayload] at h
    cases hfind : findEntry entries (buf ++ [b]) with
    | some x =>
      simp only [hfind] at h
      split_ifs at h with hfull
      exact ih h (by rw [List.length_append, List.length_singleton]; omega)
    | none =>
      simp only [hfind] at h
      split_ifs at h
      exact ih h hout

theorem decodeBody_eq_ok {height ns : Byte} {k : Nat} {bits : Bits} {r : DecodeOk}
    (h : decodeBody p height ns k bits = .ok r) :
    r.out.length ≤ p.dstDepth ∧ r.entries.length = ns.toNat ∧ ∀ x ∈ r.entries, x.Fits := by
  unfold decodeBody at h
  cases hr : readEntries ns.toNat 24 [] bits with
  | error e => simp only [hr] at h; cases h
  | ok y =>
    obtain ⟨xs, rest⟩ := y
    simp only [hr] at h
    obtain ⟨hlen, hfits⟩ := readEntries_ok _ hr (List.forall_mem_nil _)
    generalize 24 + (bits.length - rest.length) = tend at h
    cases hp : readPayload p xs tend tend [] [] rest with
    | error e => rw [hp] at h; cases h
    | ok out =>
      rw [hp] at h
      obtain rfl := Except.ok.inj h
      exact ⟨readPayload_length_le rest hp (Nat.zero_le _), hlen.trans (Nat.zero_add _), hfits⟩

/-- What `Decode`'s `Ok` says (43_decode.md R251 to R271). -/
theorem decodeFn_eq_ok {m : List Byte} {n : Nat} {r : DecodeOk} (h : decodeFn p m n = .ok r) :
    3 ≤ n ∧ r.out.length ≤ p.dstDepth ∧ r.entries.length = (m.getD 1 0).toNat ∧ ∀ x ∈ r.entries, x.Fits := by
  unfold decodeFn at h
  simp only at h
  split_ifs at h with hsrc h2 h3 hff hpad hns
  exact ⟨Nat.not_lt.1 h3, decodeBody_eq_ok h⟩

/-! ## DT past the parsed entries -/

theorem DecodeTable.read_storeEntries_past (xs : List Entry) {j : Nat} : ∀ {dt : DecodeTable} {e : Nat},
    e + xs.length ≤ j →
      (storeEntries dt e xs).valid.read j = dt.valid.read j ∧ (storeEntries dt e xs).len.read j = dt.len.read j ∧
      (storeEntries dt e xs).code.read j = dt.code.read j ∧ (storeEntries dt e xs).sym.read j = dt.sym.read j := by
  induction xs with
  | nil => exact fun _ => ⟨rfl, rfl, rfl, rfl⟩
  | cons x xs ih =>
    intro dt e he
    rw [List.length_cons] at he
    have hne : ¬ (j = e ∧ e < Config.dtEntries) := by omega
    obtain ⟨hvalid, hlen, hcode, hsym⟩ :=
      ih (dt := dt.store e (BitVec.ofNat 8 x.len) (BitVec.ofNat 256 x.code) x.sym) (e := e + 1) (by omega)
    simp only [DecodeTable.store, Memory.read_writeWithin, if_neg hne] at hvalid hlen hcode hsym
    exact ⟨hvalid, hlen, hcode, hsym⟩

/-- Settles O36: the run ends in the completion of `Decode`'s `Ok`, with its entries stored into a DT of zeros. -/
theorem decodeSuccessFrame : Obligations.DecodeSuccessFrame := by
  intro s r hok hidle hinputs ho
  obtain ⟨t, hexec, hrun⟩ := decodeRunsToDecodeOutcome s hok hidle hinputs
  rw [ho] at hrun
  have hstart := hexec
  rw [exec_decode, State.issue_idle hidle] at hstart
  obtain rfl := Host.Outcome.next.inj hstart
  obtain ⟨hlen, hfit, hentries, hfits⟩ := decodeFn_eq_ok ho
  rw [State.getD_message (by omega)] at hentries
  have hcount : r.entries.length ≤ Config.dtEntries := by
    have hns := (s.src.read 1).isLt
    rw [hentries]
    exact Nat.le_of_lt_succ hns
  refine ⟨_, _, hexec, hrun, rfl, Params.toNat_ofNat_of_le_dstDepth hok hfit, hfit,
    fun j hj => s.dst.read_writeList_zero hfit hj, fun j hj => s.dst.read_writeList_zero_past r.out hj, hentries,
    fun e he => ?_, fun e he => ?_, rfl, rfl, rfl, rfl, rfl⟩
  · obtain ⟨hvalid, hl, hcode, hsym⟩ := storeEntries_holds DecodeTable.cleared r.entries hfits (e := 0) (by omega) e he
    rw [Nat.zero_add] at hvalid hl hcode hsym
    exact ⟨hvalid, hl, hcode, hsym⟩
  · exact DecodeTable.read_storeEntries_past r.entries (dt := DecodeTable.cleared) (e := 0) (by omega)

end Sys2Proof.Machine
end

section
/-! PROOF. ENCODE's length check and what ENCODE reads (42_encode.md R217 to R219, R227), and the packer over any bit
sequence from a byte boundary (41_bit_stream.md R182). -/

namespace Sys2Proof.Machine

variable {s : State}

/-! ## The length check -/

/-- The lookup check passes where every byte has a code word that is not empty. -/
theorem lookupError_eq_none {ct : CodeTable} {m : List Byte}
    (h : ∀ b ∈ m, ct.isValid b.toNat = true ∧ ct.lenOf b.toNat ≠ 0) : lookupError ct 0 m = none := by
  rw [← List.append_nil m, lookupError_append 0 [] h]
  rfl

/-- Settles O24: every other check of ENC_SCAN passes, and NOUT is a sum over the bytes that occur. -/
theorem encodeDstOverflow : Obligations.EncodeDstOverflow := by
  rintro s hp hl hsrc hne ⟨b, hb⟩ hmapped tbits pbits k nout hover
  have hlen : s.regs.srcLen.toNat ≠ 0 := fun h => hne (BitVec.eq_of_toNat_eq h)
  have hsym : ¬ Config.maxSymbols < s.scanned.nSym := Nat.not_lt.2 (length_symbolsOf_presentSet_le hb)
  have htbits : s.scanned.tbits = tbits := congrArg (tableLength s.ct) (symbolsOf_presentSet s.message)
  have hnout : s.scanned.nout = nout := by
    have hsum : s.scanned.nout = 3 + (s.scanned.tbits + pbits + padCount (s.scanned.tbits + pbits)) / 8 := rfl
    rw [hsum, htbits]
    rfl
  refine State.raises_of_encScan hp hl ?_
  simp only [State.encScan, if_neg (Nat.not_lt.2 hsrc), if_neg hlen, if_neg hsym, lookupError_eq_none hmapped, hnout,
    if_pos hover]

/-! ## What ENCODE reads of CT -/

/-- Two code tables with the same code words for the bytes of a message. -/
structure CodeTable.AgreeOn (ct ct' : CodeTable) (m : List Byte) : Prop where
  isValid : ∀ b ∈ m, ct.isValid b.toNat = ct'.isValid b.toNat
  lenOf : ∀ b ∈ m, ct.lenOf b.toNat = ct'.lenOf b.toNat
  codeBits : ∀ b ∈ m, ct.codeBits b.toNat = ct'.codeBits b.toNat

theorem lookupError_congr {ct ct' : CodeTable} (m : List Byte) (h : ct.AgreeOn ct' m) :
    ∀ i : Nat, lookupError ct i m = lookupError ct' i m := by
  induction m with
  | nil => exact fun _ => rfl
  | cons b m ih =>
    intro i
    obtain ⟨hvalid, hlen, hcode⟩ := h
    have hrest := ih ⟨fun x hx => hvalid x (.tail _ hx), fun x hx => hlen x (.tail _ hx),
      fun x hx => hcode x (.tail _ hx)⟩ (i + 1)
    simp only [lookupError, CodeTable.lookup, hvalid b (.head _), hlen b (.head _), hrest]

/-- The symbols of a message are its bytes. -/
theorem exists_mem_of_mem_symbolsOf {m : List Byte} {x : Nat} (h : x ∈ symbolsOf (presentSet m)) :
    ∃ b ∈ m, b.toNat = x := by
  rw [symbolsOf_presentSet, List.mem_filter, List.mem_range, decide_eq_true_eq] at h
  obtain ⟨hlt, hmem⟩ := h
  exact ⟨_, hmem, by rw [BitVec.toNat_ofNat, Nat.mod_eq_of_lt hlt]⟩

section AgreeOn

variable {ct ct' : CodeTable} {m : List Byte} (h : ct.AgreeOn ct' m)
include h

theorem CodeTable.AgreeOn.lenOf_symbol : ∀ x ∈ symbolsOf (presentSet m), ct.lenOf x = ct'.lenOf x := by
  intro x hx
  obtain ⟨b, hb, rfl⟩ := exists_mem_of_mem_symbolsOf hx
  exact h.lenOf b hb

theorem CodeTable.AgreeOn.entryBits_symbol :
    ∀ x ∈ symbolsOf (presentSet m), entryBits ct x = entryBits ct' x := by
  intro x hx
  obtain ⟨b, hb, rfl⟩ := exists_mem_of_mem_symbolsOf hx
  rw [entryBits, entryBits, h.lenOf b hb, h.codeBits b hb]

theorem CodeTable.AgreeOn.tableBits_eq : tableBits ct m = tableBits ct' m := by
  have horder : tableOrder ct (symbolsOf (presentSet m)) = tableOrder ct' (symbolsOf (presentSet m)) :=
    List.flatMap_congr fun L _ => List.filter_congr fun x hx => by rw [h.lenOf_symbol x hx]
  rw [tableBits, tableBits, ← horder]
  exact List.flatMap_congr fun x hx => h.entryBits_symbol x ((mem_tableOrder ct _ x).1 hx).1

theorem CodeTable.AgreeOn.payloadBits_eq : payloadBits ct m = payloadBits ct' m :=
  List.flatMap_congr h.codeBits

theorem CodeTable.AgreeOn.maxLen_eq : maxLen ct (symbolsOf (presentSet m)) = maxLen ct' (symbolsOf (presentSet m)) :=
  List.foldl_ext _ _ _ fun n x hx => by rw [h.lenOf_symbol x hx]

theorem CodeTable.AgreeOn.streamOf_eq : streamOf ct m = streamOf ct' m := by
  rw [streamOf, streamOf, h.tableBits_eq, h.payloadBits_eq, h.maxLen_eq]

theorem CodeTable.AgreeOn.encodeFn_eq (p : Params) (n : Nat) : encodeFn p ct m n = encodeFn p ct' m n := by
  unfold encodeFn
  rw [h.streamOf_eq, h.tableBits_eq, h.payloadBits_eq, lookupError_congr m h]
  simp only [h.maxLen_eq]

end AgreeOn

/-- Settles O34: `Encode` takes from CT the code words of the message's bytes alone. -/
theorem encodeReadsOnlyItsInputs : Obligations.EncodeReadsOnlyItsInputs := by
  intro s s' hparams hsrcLen hsrc hct
  have hlen' : s'.regs.srcLen.toNat = s.message.length := by
    rw [← hsrcLen, State.message, Memory.readList_length]
  have hmessage : s'.message = s.message := by
    refine State.message_eq hlen' fun i hi => ?_
    have hi' : i < s.regs.srcLen.toNat := by rwa [State.message, Memory.readList_length] at hi
    rw [← hsrc i hi']
    simp only [State.message, Memory.readList_getElem, Nat.zero_add]
  have hagree : s.ct.AgreeOn s'.ct s.message := by
    have hlenOf : ∀ b ∈ s.message, s.ct.lenOf b.toNat = s'.ct.lenOf b.toNat := fun b hb => by
      obtain ⟨-, hlen, -⟩ := hct b hb
      exact hlen
    refine ⟨fun b hb => (hct b hb).1, hlenOf, fun b hb => ?_⟩
    obtain ⟨-, hlen, hbits⟩ := hct b hb
    rw [CodeTable.codeBits, CodeTable.codeBits, ← hlen]
    exact msbFirst_congr hbits
  rw [State.encodeOutcome, State.encodeOutcome, hagree.encodeFn_eq, hparams, hmessage, hsrcLen]

/-! ## The packer -/

theorem getElem_streamBits (byte : Nat → Byte) (n : Nat) : ∀ (first j : Nat) (h : j < (streamBits byte first n).length),
    (streamBits byte first n)[j] = streamBit byte (first + j) := by
  induction n with
  | zero => intro first j h; cases h
  | succ n ih =>
    intro first j h
    cases j with
    | zero => rfl
    | succ j =>
      have hplace : first + 1 + j = first + (j + 1) := by omega
      rw [streamBits] at h
      simp only [streamBits, List.getElem_cons_succ, ih, hplace]

/-- Bit `q` of the bytes of whole bytes of bits is bit `q` (20_memory.md R76). -/
theorem streamBit_bytesOfBits {bits : Bits} (hwhole : bits.length % 8 = 0) {q : Nat} (hq : q < bits.length) :
    streamBit (fun i => (bytesOfBits bits).getD i 0) q = bits[q] := by
  have hstream : streamBits (fun i => (bytesOfBits bits).getD i 0) 0 (8 * (bytesOfBits bits).length) = bits := by
    rw [streamBits_getD_eq_flatMap, flatMap_bits8_bytesOfBits bits hwhole]
  have hbit := getElem_streamBits (fun i => (bytesOfBits bits).getD i 0) (8 * (bytesOfBits bits).length) 0 q
    (by rwa [hstream])
  rw [Nat.zero_add] at hbit
  rw [← hbit]
  simp only [hstream]

/-- From a byte boundary the packer writes the whole bytes of a bit sequence, and keeps the rest in ACC. -/
theorem State.putBits_of_boundary (bits : Bits) (h : s.engine.packer.accN = 0) :
    ∃ acc, s.putBits bits =
      (s.withDst (s.dst.writeList s.params.dstDepth s.engine.packer.optr
        (bytesOfBits (bits.take (8 * (bits.length / 8)))))).withPacker
        ⟨s.engine.packer.optr + bits.length / 8, acc, bits.length % 8⟩ := by
  have hpacker : s.engine.packer = ⟨s.engine.packer.optr, s.engine.packer.acc, 0⟩ := by rw [← h]
  have hsplit : bits.take (8 * (bits.length / 8)) ++ bits.drop (8 * (bits.length / 8)) = bits :=
    List.take_append_drop _ _
  have hwhole : (bits.take (8 * (bits.length / 8))).length = 8 * (bits.length / 8) := by
    rw [List.length_take]; omega
  have hrest : (bits.drop (8 * (bits.length / 8))).length = bits.length % 8 := by
    rw [List.length_drop]; omega
  generalize bits.take (8 * (bits.length / 8)) = whole at hsplit hwhole ⊢
  generalize bits.drop (8 * (bits.length / 8)) = rest at hsplit hrest
  obtain ⟨acc, hput⟩ := State.putBits_wholeBytes whole hpacker (hwhole ▸ Nat.mul_mod_right 8 _)
  have hcount : whole.length / 8 = bits.length / 8 := by omega
  rw [hcount] at hput
  have hput' := State.putBits_of_lt rest (State.withPacker_packer (s.withDst (s.dst.writeList s.params.dstDepth
    s.engine.packer.optr (bytesOfBits whole))) ⟨s.engine.packer.optr + bits.length / 8, acc, 0⟩) (by omega)
  rw [← hput, ← State.putBits_append, hsplit, hput, hrest, Nat.zero_add] at hput'
  exact ⟨_, hput'⟩

/-- Settles O26: the completed bytes are those of the whole bytes of the sequence, written from OPTR on. -/
theorem packerPutsBitsMsbFirst : Obligations.PackerPutsBitsMsbFirst := by
  intro s bits hacc hfit t
  obtain ⟨acc, hput⟩ := State.putBits_of_boundary bits hacc
  set whole := bits.take (8 * (bits.length / 8)) with hwholeDef
  have hwholeLen : whole.length = 8 * (bits.length / 8) := by
    rw [hwholeDef, List.length_take]; omega
  have hwhole : whole.length % 8 = 0 := hwholeLen ▸ Nat.mul_mod_right 8 _
  have hbytes : (bytesOfBits whole).length = bits.length / 8 := by rw [bytesOfBits_length]; omega
  have hread (j : Nat) : t.dst.read j =
      if h : s.engine.packer.optr ≤ j ∧ j < s.engine.packer.optr + (bytesOfBits whole).length ∧ j < s.params.dstDepth
      then (bytesOfBits whole)[j - s.engine.packer.optr] else s.dst.read j := by
    change (s.putBits bits).dst.read j = _
    rw [hput]
    exact Memory.read_writeList _ _ _ _ _
  refine ⟨?_, ?_, fun q hq hin => ?_, fun j hj => ?_⟩
  · change (s.putBits bits).engine.packer.optr = _
    rw [hput]
    rfl
  · change (s.putBits bits).engine.packer.accN = _
    rw [hput]
    rfl
  · have hq' : q < whole.length := by omega
    have hbit : bits[q] = whole[q] := by simp only [hwholeDef, List.getElem_take]
    have hplace : (8 * s.engine.packer.optr + q) / 8 = s.engine.packer.optr + q / 8 := by omega
    have hmod : (8 * s.engine.packer.optr + q) % 8 = q % 8 := by omega
    rw [hbit, ← streamBit_bytesOfBits hwhole hq', streamBit, streamBit, hplace, hmod, hread, dif_pos (by omega),
      List.getD_eq_getElem _ _ (by omega)]
    simp only [Nat.add_sub_cancel_left]
  · rw [hread, dif_neg (by omega)]

end Sys2Proof.Machine
end

section
/-! PROOF. The address map, and host reads and writes region by region: what a read gives, what a running command drops
or leaves open (20_memory.md R71, 40_host_access.md R141 to R151, R156). -/

namespace Sys2Proof.Machine

variable {s : State} {p : Params} {off : Nat} {r : Region}

/-! ## The address map -/

theorem exists_regionOf_reg : (∃ r, regionOf p off = some (.reg r)) ↔ off < 0x100 := by
  refine ⟨fun ⟨r, h⟩ => ?_, fun h => ⟨off, regionOf_reg p h⟩⟩
  unfold regionOf at h
  split_ifs at h with hreg <;> cases h
  exact hreg

theorem exists_regionOf_ct : (∃ x w, regionOf p off = some (.ct x w)) ↔ 0x010000 ≤ off ∧ off < 0x014000 := by
  refine ⟨fun ⟨x, w, h⟩ => ?_, fun h => ⟨_, _, (if_neg (by omega)).trans (if_pos h)⟩⟩
  unfold regionOf at h
  split_ifs at h with hreg hct <;> cases h
  exact hct

theorem exists_regionOf_dt : (∃ e w, regionOf p off = some (.dt e w)) ↔ 0x020000 ≤ off ∧ off < 0x023FC0 := by
  refine ⟨fun ⟨e, w, h⟩ => ?_, fun h => regionOf_dtRange h.1 h.2⟩
  unfold regionOf at h
  split_ifs at h with hreg hct hdt <;> cases h
  exact hdt

theorem exists_regionOf_src :
    (∃ i, regionOf p off = some (.src i)) ↔ 0x100000 ≤ off ∧ off < 0x100000 + p.srcDepth := by
  refine ⟨fun ⟨i, h⟩ => ?_, fun h => ?_⟩
  · unfold regionOf at h
    split_ifs at h with hreg hct hdt hsrc
    · cases h
    · cases h
    · cases h
    · exact hsrc
    · cases h
  · obtain ⟨i, rfl⟩ := Nat.exists_eq_add_of_le h.1
    exact ⟨i, regionOf_src p (by omega)⟩

theorem exists_regionOf_dst (hsrcMax : p.srcDepth ≤ 2 ^ 20) :
    (∃ i, regionOf p off = some (.dst i)) ↔ 0x200000 ≤ off ∧ off < 0x200000 + p.dstDepth := by
  refine ⟨fun ⟨i, h⟩ => ?_, fun h => ?_⟩
  · unfold regionOf at h
    split_ifs at h with hreg hct hdt hsrc hdst
    · cases h
    · cases h
    · cases h
    · cases h
    · exact hdst
  · obtain ⟨i, rfl⟩ := Nat.exists_eq_add_of_le h.1
    exact ⟨i, regionOf_dst p hsrcMax (by omega)⟩

/-- Settles O39: the five ranges, with their last offset in place of the one past it. -/
theorem addressMap : Obligations.AddressMap := by
  intro p off hp _
  obtain ⟨-, hsrc, hsrcMax⟩ := Params.srcDepth_ok hp
  obtain ⟨-, hdst, -⟩ := Params.dstDepth_ok hp
  rw [exists_regionOf_reg, exists_regionOf_ct, exists_regionOf_dt, exists_regionOf_src, exists_regionOf_dst hsrcMax]
  omega

/-! ## The DST window -/

/-- Settles O41: as for SRC, on an idle block. -/
theorem dstWindowWords : Obligations.DstWindowWords := by
  intro s i v hp hb hi hlt
  obtain ⟨-, -, hsrcMax⟩ := Params.srcDepth_ok hp
  obtain ⟨hmod, -, hle⟩ := Params.dstDepth_ok hp
  have hword : i + 4 ≤ s.params.dstDepth := by omega
  have hoff : 0x200000 + i < 2 ^ 22 := by omega
  have hal : (0x200000 + i) % 4 = 0 := by omega
  have hctrl : 0x200000 + i ≠ 0x008 := by omega
  have hregion : regionOf s.params (0x200000 + i) = some (.dst i) := regionOf_dst _ hsrcMax hlt
  refine ⟨⟨s.dst.writeLanes s.params.dstDepth i v, ?_, ?_⟩, ?_⟩
  · exact step_wrEvent v hoff hal hctrl hregion (fun _ _ => Region.noConfusion) (by simp [hb])
  · exact ⟨s.dst.read_writeLanes_lane v hword (j := 0) (by omega), s.dst.read_writeLanes_lane v hword (by omega),
      s.dst.read_writeLanes_lane v hword (by omega), s.dst.read_writeLanes_lane v hword (by omega),
      fun j hj => s.dst.read_writeLanes_other v hword hj⟩
  · exact step_rdEvent hoff hal hregion (by simp only [State.readRegion, hb]; rfl)

/-! ## Words made of fields -/

/-- A word made of two fields, by shifts. -/
theorem setWidth_append {n m : Nat} (a : BitVec n) (b : BitVec m) (k : Nat) :
    (a ++ b).setWidth k = a.setWidth k <<< m ||| b.setWidth k := by
  refine BitVec.eq_of_getLsbD_eq fun j hj => ?_
  simp only [BitVec.getLsbD_setWidth, BitVec.getLsbD_append, BitVec.getLsbD_or, BitVec.getLsbD_shiftLeft, hj,
    decide_true, Bool.true_and]
  by_cases hjm : j < m
  · simp [hjm]
  · have hk : j - m < k := by omega
    simp [hjm, hk, BitVec.getLsbD_of_ge b j (by omega)]

theorem ofBool_getLsbD_zero (v : BitVec 1) : BitVec.ofBool (v.getLsbD 0) = v := by
  decide +revert

theorem CodeTable.hostWord_zero (ct : CodeTable) (x : Nat) :
    ct.hostWord x 0 = (BitVec.ofBool (ct.isValid x)).setWidth 32 <<< 31 ||| BitVec.ofNat 32 (ct.lenOf x) := by
  rw [CodeTable.hostWord, if_pos rfl, ← BitVec.setWidth_eq (ct.valid.read x ++ 0#23 ++ ct.len.read x), setWidth_append,
    setWidth_append, CodeTable.isValid, ofBool_getLsbD_zero, CodeTable.lenOf, BitVec.ofNat_toNat, BitVec.setWidth_zero,
    BitVec.or_zero, ← BitVec.shiftLeft_add]

theorem DecodeTable.hostWord_zero (dt : DecodeTable) (e : Nat) :
    dt.hostWord e 0 = (BitVec.ofBool (dt.isValid e)).setWidth 32 <<< 31 ||| (dt.sym.read e).setWidth 32 <<< 8
      ||| (dt.len.read e).setWidth 32 := by
  rw [DecodeTable.hostWord, if_pos rfl,
    ← BitVec.setWidth_eq (dt.valid.read e ++ 0#15 ++ dt.sym.read e ++ dt.len.read e), setWidth_append, setWidth_append,
    setWidth_append, DecodeTable.isValid, ofBool_getLsbD_zero, BitVec.setWidth_zero, BitVec.or_zero,
    BitVec.shiftLeft_or_distrib, ← BitVec.shiftLeft_add, ← BitVec.shiftLeft_add]

/-- Settles O43: word 0 by its fields, the other words as they stand. -/
theorem tableWordReads : Obligations.TableWordReads := by
  intro s w hw
  refine ⟨fun x hx hphase => ?_, fun e he hidle => ?_⟩
  · have hword : s.ct.hostWord x w = if w = 0 then
          (BitVec.ofBool (s.ct.isValid x)).setWidth 32 <<< 31 ||| BitVec.ofNat 32 (s.ct.lenOf x)
        else if w ≤ 8 then s.ct.wordOf x (w - 1) else 0 := by
      by_cases h0 : w = 0
      · rw [h0, CodeTable.hostWord_zero, if_pos rfl]
      · rw [CodeTable.hostWord, if_neg h0, if_neg h0]
    rw [← hword]
    exact step_rdEvent (by simp only [Config.addressSpace]; omega) (by omega) (regionOf_ct _ hx hw)
      (by simp only [State.readRegion, if_neg hphase])
  · have hword : s.dt.hostWord e w = if w = 0 then
          (BitVec.ofBool (s.dt.isValid e)).setWidth 32 <<< 31 ||| (s.dt.sym.read e).setWidth 32 <<< 8
            ||| (s.dt.len.read e).setWidth 32
        else if w ≤ 8 then (s.dt.code.read e).extractLsb' (32 * (w - 1)) 32 else 0 := by
      by_cases h0 : w = 0
      · rw [h0, DecodeTable.hostWord_zero, if_pos rfl]
      · rw [DecodeTable.hostWord, if_neg h0, if_neg h0]
        rfl
    rw [← hword]
    exact step_rdEvent (by simp only [Config.addressSpace]; omega) (by omega) (regionOf_dt _ he hw)
      (by simp only [State.readRegion, hidle]; rfl)

/-! ## Writes that a running command drops -/

theorem State.hostWrite_of_guarded (v : Word) (ha : accessOf s.params off 4 = some r) (hg : r.busyGuarded = true)
    (hb : s.busy = true) : s.hostWrite off 4 v = s.reject.okay := by
  cases r with
  | dt e w => cases hg
  | reg | ct | src | dst => simp only [State.hostWrite, ha, hg, hb, Bool.and_self, if_true]

/-- Settles O44: each of the four targets is a busy-guarded region. -/
theorem busyGuardedWritesDropped : Obligations.BusyGuardedWritesDropped := by
  intro s off v hp hb hal htarget
  obtain ⟨-, -, hsrcMax⟩ := Params.srcDepth_ok hp
  obtain ⟨-, -, hdstMax⟩ := Params.dstDepth_ok hp
  have hregion : ∃ r, regionOf s.params off = some r ∧ r.busyGuarded = true := by
    rcases htarget with rfl | hct | hsrc | hdst
    · exact ⟨_, regionOf_reg _ (by decide), rfl⟩
    · obtain ⟨x, w, h⟩ := exists_regionOf_ct (p := s.params).2 ⟨hct.1, by omega⟩
      exact ⟨_, h, rfl⟩
    · obtain ⟨i, h⟩ := exists_regionOf_src.2 hsrc
      exact ⟨_, h, rfl⟩
    · obtain ⟨i, h⟩ := (exists_regionOf_dst hsrcMax).2 hdst
      exact ⟨_, h, rfl⟩
  obtain ⟨r, hr, hg⟩ := hregion
  have hoff : off < Config.addressSpace := by simp only [Config.addressSpace]; omega
  have hctrl : ¬ (off = ctrlOffset ∧ 4 = 4) := by simp only [ctrlOffset]; omega
  rw [State.wrEvent, step_write s 4 v hoff hctrl,
    State.hostWrite_of_guarded (s := s.released) v ((accessOf_word _ hal).trans hr) hg hb]
  rfl

/-- Settles O47: the four registers with an effect are excluded, and SRC_LEN among them is the guarded one. -/
theorem readOnlyWritesIgnored : Obligations.ReadOnlyWritesIgnored := by
  intro s off v hal hoff hnot
  simp only [List.mem_cons, List.not_mem_nil, or_false, not_or] at hnot
  obtain ⟨hctrl, hstatus, hsrcLen, hirq⟩ := hnot
  rw [step_wrEvent_reg v hoff hal hctrl (by simp [Region.busyGuarded, hsrcLen])]
  simp only [State.writeRegion, if_neg hstatus, if_neg hsrcLen, if_neg hirq]

/-! ## Reads of registers -/

/-- `RD off` of a register whose read is defined (R141). -/
theorem step_rdEvent_reg (s : State) (hoff : off < 0x100) (hal : off % 4 = 0)
    (h : (anyWhileBusy off && s.busy) = false) :
    step (s.withEvent (s.rdEvent off)) = .next (s.answered .okay (some (s.regValue off))) :=
  step_rdEvent (hoff.trans (by decide)) hal (regionOf_reg _ hoff) (by simp only [State.readRegion, h]; rfl)

/-- Reserved offsets of the register block read as 0 (10_state.md R23). -/
theorem State.regValue_reserved (s : State) (h : 0x040 ≤ off) : s.regValue off = 0#32 := by
  unfold State.regValue
  split
  iterate 16 omega
  rfl

theorem anyWhileBusy_reserved (h : 0x040 ≤ off) : anyWhileBusy off = false := by
  rw [anyWhileBusy, List.contains_eq_mem, decide_eq_false_iff_not]
  simp only [List.mem_cons, List.not_mem_nil, or_false]
  omega

/-- STATUS by its fields (10_state.md R30 to R34). -/
theorem State.statusWord_eq (s : State) :
    s.statusWord = ((s.regs.lastCmd.setWidth 32 <<< 4) ||| ((BitVec.ofBool s.regs.rej).setWidth 32 <<< 3)
      ||| ((BitVec.ofBool s.regs.err).setWidth 32 <<< 2) ||| ((BitVec.ofBool s.regs.done).setWidth 32 <<< 1)
      ||| (if s.engine.phase = .idle then 0#32 else 1#32)) := by
  have hbusy : (BitVec.ofBool s.busy).setWidth 32 = if s.engine.phase = .idle then 0#32 else 1#32 := by
    unfold State.busy
    cases s.engine.phase <;> rfl
  rw [State.statusWord, ← BitVec.setWidth_eq (_ ++ BitVec.ofBool s.busy), setWidth_append, setWidth_append,
    setWidth_append, setWidth_append, setWidth_append, hbusy, BitVec.setWidth_zero, BitVec.zero_shiftLeft,
    BitVec.zero_or]
  simp only [BitVec.shiftLeft_or_distrib, ← BitVec.shiftLeft_add]

/-- ERROR by its fields (10_state.md R35). -/
theorem Regs.errorWord_eq (r : Regs) :
    r.errorWord = ((r.errorDetail.setWidth 32 <<< 8) ||| r.errorCode.toByte.setWidth 32) := by
  rw [Regs.errorWord, ← BitVec.setWidth_eq (_ ++ r.errorCode.toByte), setWidth_append, setWidth_append,
    BitVec.setWidth_zero, BitVec.zero_shiftLeft, BitVec.zero_or]

/-- Settles O48: each register's value is `State.regValue`; STATUS and ERROR by their fields. -/
theorem registerReads : Obligations.RegisterReads := by
  intro s reads
  have hreads (off : Nat) (hoff : off < 0x100) (hal : off % 4 = 0) (h : (anyWhileBusy off && s.busy) = false) :
      reads off (s.regValue off) := step_rdEvent_reg s hoff hal h
  refine ⟨⟨hreads 0x000 (by decide) (by decide) rfl, hreads 0x004 (by decide) (by decide) rfl,
    hreads 0x008 (by decide) (by decide) rfl, ?_, hreads 0x018 (by decide) (by decide) rfl,
    hreads 0x034 (by decide) (by decide) rfl, hreads 0x038 (by decide) (by decide) rfl,
    hreads 0x03C (by decide) (by decide) rfl, fun off hlo hhi hal => ?_⟩, fun hb => ?_⟩
  · rw [← State.statusWord_eq]
    exact hreads 0x00C (by decide) (by decide) rfl
  · rw [← s.regValue_reserved hlo]
    exact hreads off (by omega) hal (by rw [anyWhileBusy_reserved hlo, Bool.false_and])
  · have hidle (off : Nat) (hoff : off < 0x100) (hal : off % 4 = 0) : reads off (s.regValue off) :=
      hreads off hoff hal (by rw [hb, Bool.and_false])
    rw [← Regs.errorWord_eq]
    exact ⟨hidle 0x010 (by decide) (by decide), hidle 0x014 (by decide) (by decide),
      hidle 0x01C (by decide) (by decide), hidle 0x020 (by decide) (by decide), hidle 0x024 (by decide) (by decide),
      hidle 0x028 (by decide) (by decide), hidle 0x02C (by decide) (by decide), hidle 0x030 (by decide) (by decide)⟩

/-! ## Reads that a running command leaves open -/

/-- `RD off` of a mapped word, whatever the read gives (R141, R151, R156). -/
theorem step_rdEvent_answer (hoff : off < Config.addressSpace) (hal : off % 4 = 0)
    (hr : regionOf s.params off = some r) :
    step (s.withEvent (s.rdEvent off)) = .next (s.released.answer (s.readRegion r)) := by
  have ha : accessOf s.released.params off 4 = some r := (accessOf_word _ hal).trans hr
  rw [State.rdEvent, step_read s 4 hoff, State.hostRead, ha]
  rfl

/-- Settles O49: each of these reads gives ANY, which is a draw. -/
theorem busyReadsGiveAny : Obligations.BusyReadsGiveAny := by
  intro s off hp hb hal htarget
  obtain ⟨-, -, hsrcMax⟩ := Params.srcDepth_ok hp
  obtain ⟨-, -, hdstMax⟩ := Params.dstDepth_ok hp
  have hregion : off < 2 ^ 22 ∧ ∃ r, regionOf s.params off = some r ∧ s.readRegion r = .any := by
    rcases htarget with hreg | hdst | ⟨hcmd, hdt⟩
    · have hany : anyWhileBusy off = true := by rwa [anyWhileBusy, List.contains_eq_mem, decide_eq_true_eq]
      have hlow : off < 0x100 := by
        simp only [List.mem_cons, List.not_mem_nil, or_false] at hreg
        omega
      exact ⟨by omega, _, regionOf_reg _ hlow, by simp only [State.readRegion, hany, hb]; rfl⟩
    · obtain ⟨i, h⟩ := (exists_regionOf_dst hsrcMax).2 hdst
      exact ⟨by omega, _, h, by simp only [State.readRegion, hb]; rfl⟩
    · obtain ⟨e, w, h⟩ := exists_regionOf_dt (p := s.params).2 hdt
      exact ⟨by omega, _, h, by simp only [State.readRegion, hb, hcmd]; rfl⟩
  obtain ⟨hoff, r, hr, hread⟩ := hregion
  rw [step_rdEvent_answer hoff hal hr, hread]
  rfl

/-- Settles O50: the read gives the stored word or 0 by a free bit. -/
theorem ctReadsWhileClearing : Obligations.CtReadsWhileClearing := by
  intro s x w hphase hx hw
  have hread : s.readRegion (.ct x w) = .either (s.ct.hostWord x w) 0 := by
    simp only [State.readRegion, if_pos hphase]
  have hstep := step_rdEvent_answer (s := s) (off := 0x010000 + 64 * x + 4 * w)
    (by simp only [Config.addressSpace]; omega) (by omega) (regionOf_ct _ hx hw)
  rw [hread] at hstep
  exact ⟨_, _, hstep, rfl, ite_eq_or_eq _ _ _, rfl, rfl, rfl, rfl, rfl, rfl⟩

end Sys2Proof.Machine
end

section
/-! PROOF. Loading from the host: a list of word writes as a run, what the writes of SETCODE leave in CT and those of
LOADSRC in SRC (30_encoding.md R123, R124, 70_reset_and_hazards.md R341). -/

namespace Sys2Proof.Machine

variable {s : State}

/-! ## A list of writes as a run -/

/-- The byte offset of a mapped word (20_memory.md R71). -/
def Region.offset : Region → Nat
  | .reg off => off
  | .ct x w => 0x010000 + 64 * x + 4 * w
  | .dt e w => 0x020000 + 64 * e + 4 * w
  | .src i => 0x100000 + i
  | .dst i => 0x200000 + i

/-- A region whose words a host can write on an idle block, other than CTRL. -/
structure Region.Writable (p : Params) (r : Region) : Prop where
  inside : r.offset < Config.addressSpace
  aligned : r.offset % 4 = 0
  notCtrl : r.offset ≠ ctrlOffset
  mapped : regionOf p r.offset = some r
  notDt : ∀ e w, r ≠ .dt e w

/-- Writes, by region and value, made one after the other. -/
def State.writeAll (s : State) (l : List (Region × Word)) : State := l.foldl (fun u a => u.writeRegion a.2 a.1) s

/-- The events these writes are (R123). -/
def writeEvents (p : Params) (l : List (Region × Word)) : List Input :=
  l.map fun a => .host (.wr (p.hbcBase + a.1.offset) 4 a.2)

theorem State.withPort_writeAll (l : List (Region × Word)) (p : Port) :
    ∀ s : State, (s.withPort p).writeAll l = (s.writeAll l).withPort p := by
  induction l with
  | nil => exact fun _ => rfl
  | cons a l ih =>
    intro s
    refine (congrArg (State.writeAll · l) (s.withPort_writeRegion p a.2 a.1).symm).trans ?_
    exact ih _

theorem State.eq_withEvent {i : Input} {rest : List Input} (hrst : s.port.rst = false) (h : s.port.inputs = i :: rest) :
    s = (s.withPort { s.port with inputs := rest }).withEvent i := by
  obtain ⟨params, regs, ct, dt, src, dst, engine, ⟨rst, inputs, response⟩, draw⟩ := s
  obtain rfl : rst = false := hrst
  obtain rfl : inputs = i :: rest := h
  rfl

/-- On an idle block a list of writes runs to the state in which all are made. -/
theorem Runs.writeAll (l : List (Region × Word)) : ∀ {s : State}, s.busy = false → s.port.rst = false →
    s.port.inputs = writeEvents s.params l → (∀ a ∈ l, a.1.Writable s.params) →
      ∃ p : Port, p.inputs = [] ∧ Runs l.length s ((s.writeAll l).withPort p) := by
  induction l with
  | nil => exact fun {s} _ _ hin _ => ⟨s.port, hin, rfl⟩
  | cons a l ih =>
    intro s hb hrst hin hl
    obtain ⟨ha, hrest⟩ := List.forall_mem_cons.1 hl
    set u := s.withPort { s.port with inputs := writeEvents s.params l } with hu
    have hstep : step s = .next ((u.writeRegion a.2 a.1).answered .okay none) := by
      rw [State.eq_withEvent hrst hin]
      exact step_wrEvent a.2 ha.inside ha.aligned ha.notCtrl ha.mapped ha.notDt
        (by rw [State.withPort_busy, hb, Bool.and_false])
    set v := (u.writeRegion a.2 a.1).answered .okay none with hv
    have hvb : v.busy = false := (State.busy_congr (congrArg Engine.phase (u.writeRegion_engine a.2 a.1))).trans hb
    have hvparams : v.params = s.params := u.writeRegion_params a.2 a.1
    have hvin : v.port.inputs = writeEvents v.params l := by
      rw [hvparams]
      exact congrArg Port.inputs (u.writeRegion_port a.2 a.1)
    obtain ⟨p, hp, hrun⟩ := ih hvb rfl hvin (by rwa [hvparams])
    have hall : (v.writeAll l).withPort p = (s.writeAll (a :: l)).withPort p := by
      have hvport : v = (s.writeRegion a.2 a.1).withPort v.port := by
        rw [State.withPort_writeRegion]
        simp only [hv, hu, ← State.withPort_writeRegion]
        rfl
      rw [hvport, State.withPort_writeAll]
      rfl
    exact ⟨p, hp, Runs.cons hstep (hall ▸ hrun)⟩

/-! ## SETCODE -/

/-- CT after the first `n` words of CODE of entry `x` are written. -/
def CodeTable.loadCode (ct : CodeTable) (x : Nat) (c : BitVec 256) (n : Nat) : CodeTable :=
  (List.range n).foldl (fun ct w => ct.hostWrite x (w + 1) (codeWord c w)) ct

theorem CodeTable.loadCode_succ (ct : CodeTable) (x : Nat) (c : BitVec 256) (n : Nat) :
    ct.loadCode x c (n + 1) = (ct.loadCode x c n).hostWrite x (n + 1) (codeWord c n) := by
  rw [CodeTable.loadCode, List.range_succ, List.foldl_append]
  rfl

theorem CodeTable.isValid_loadCode (ct : CodeTable) (x : Nat) (c : BitVec 256) (n y : Nat) :
    (ct.loadCode x c n).isValid y = ct.isValid y := by
  induction n with
  | zero => rfl
  | succ n ih =>
    rw [CodeTable.loadCode_succ, CodeTable.isValid, (CodeTable.valid_len_hostWrite _ _ n.succ_ne_zero).1, ← ih,
      CodeTable.isValid]

theorem CodeTable.lenOf_loadCode (ct : CodeTable) (x : Nat) (c : BitVec 256) (n y : Nat) :
    (ct.loadCode x c n).lenOf y = ct.lenOf y := by
  induction n with
  | zero => rfl
  | succ n ih =>
    rw [CodeTable.loadCode_succ, CodeTable.lenOf, (CodeTable.valid_len_hostWrite _ _ n.succ_ne_zero).2, ← ih,
      CodeTable.lenOf]

theorem CodeTable.wordOf_loadCode (ct : CodeTable) {x : Nat} (hx : x < 256) (c : BitVec 256) (n y : Nat) {u : Nat}
    (hu : u < 8) : (ct.loadCode x c n).wordOf y u = if y = x ∧ u < n then codeWord c u else ct.wordOf y u := by
  induction n with
  | zero => rw [if_neg (by omega)]; rfl
  | succ n ih =>
    rw [CodeTable.loadCode_succ, CodeTable.wordOf_hostWrite _ _ _ hx y hu, ih]
    by_cases hn : n = u
    · subst hn
      by_cases hy : y = x <;> simp [hy]
    · have hlt : u < n + 1 ↔ u < n := by omega
      have hne : ¬ (y = x ∧ n + 1 = u + 1) := by omega
      rw [if_neg hne]
      simp only [hlt]

theorem getLsbD_codeWord (c : BitVec 256) {j w : Nat} (h : j / 32 = w) :
    (codeWord c w).getLsbD (j % 32) = c.getLsbD j := by
  have hj : 32 * w + j % 32 = j := by omega
  have hr : j % 32 < 32 := Nat.mod_lt _ (by decide)
  rw [codeWord, BitVec.getLsbD_extractLsb', hj]
  simp only [hr, decide_true, Bool.true_and]

/-- A code word is the words of CODE that LEN reaches into. -/
theorem CodeTable.codeBits_congr {ct ct' : CodeTable} {y : Nat} (hlen : ct.lenOf y = ct'.lenOf y)
    (h : ∀ u < 8, ct.wordOf y u = ct'.wordOf y u) : ct.codeBits y = ct'.codeBits y := by
  have hlt := ct.lenOf_lt y
  rw [CodeTable.codeBits, CodeTable.codeBits, ← hlen]
  refine msbFirst_congr fun j hj => ?_
  rw [CodeTable.codeBit, CodeTable.codeBit, h _ (by omega)]

/-- The value of SETCODE's first write: VALID with the length. -/
theorem setcodeWord_fields (L : BitVec 8) :
    (0x80000000#32 + L.setWidth 32).getLsbD 31 = true ∧ (0x80000000#32 + L.setWidth 32).extractLsb' 0 8 = L := by
  decide +revert

/-- CT after the writes of SETCODE (R124). -/
def CodeTable.setcode (ct : CodeTable) (x : Byte) (L : BitVec 8) (c : BitVec 256) : CodeTable :=
  (ct.hostWrite x.toNat 0 (0x80000000#32 + L.setWidth 32)).loadCode x.toNat c ((L.toNat + 31) / 32)

theorem CodeTable.isValid_setcode (ct : CodeTable) (x : Byte) (L : BitVec 8) (c : BitVec 256) (y : Nat) :
    (ct.setcode x L c).isValid y = if y = x.toNat then true else ct.isValid y := by
  rw [CodeTable.setcode, CodeTable.isValid_loadCode, CodeTable.isValid_hostWrite _ _ _ x.isLt, (setcodeWord_fields L).1]
  simp only [and_true]

theorem CodeTable.lenOf_setcode (ct : CodeTable) (x : Byte) (L : BitVec 8) (c : BitVec 256) (y : Nat) :
    (ct.setcode x L c).lenOf y = if y = x.toNat then L.toNat else ct.lenOf y := by
  rw [CodeTable.setcode, CodeTable.lenOf_loadCode, CodeTable.lenOf_hostWrite _ _ _ x.isLt, (setcodeWord_fields L).2]
  simp only [and_true]

theorem CodeTable.wordOf_setcode (ct : CodeTable) (x : Byte) (L : BitVec 8) (c : BitVec 256) (y : Nat) {u : Nat}
    (hu : u < 8) : (ct.setcode x L c).wordOf y u =
      if y = x.toNat ∧ u < (L.toNat + 31) / 32 then codeWord c u else ct.wordOf y u := by
  rw [CodeTable.setcode, CodeTable.wordOf_loadCode _ x.isLt c _ y hu, CodeTable.wordOf_hostWrite _ _ _ x.isLt y hu,
    if_neg (show ¬ (y = x.toNat ∧ 0 = u + 1) by omega)]

theorem CodeTable.codeBits_setcode (ct : CodeTable) (x : Byte) (L : BitVec 8) (c : BitVec 256) :
    (ct.setcode x L c).codeBits x.toNat = codebits c L.toNat := by
  have hL := L.isLt
  rw [CodeTable.codeBits, CodeTable.lenOf_setcode, if_pos rfl, codebits]
  refine msbFirst_congr fun j hj => ?_
  rw [CodeTable.codeBit, CodeTable.wordOf_setcode ct x L c _ (by omega), if_pos ⟨rfl, by omega⟩, getLsbD_codeWord c rfl]

/-- The writes of SETCODE, by region. -/
def setcodeWrites (x : Byte) (L : BitVec 8) (c : BitVec 256) : List (Region × Word) :=
  (.ct x.toNat 0, 0x80000000#32 + L.setWidth 32)
    :: (List.range ((L.toNat + 31) / 32)).map fun w => (.ct x.toNat (w + 1), codeWord c w)

theorem setcode_events (p : Params) (x : Byte) (L : BitVec 8) (c : BitVec 256) :
    (Pseudo.setcode x L c).events p = writeEvents p (setcodeWrites x L c) := by
  simp only [Pseudo.events, Pseudo.writes, writeEvents, setcodeWrites, List.map_cons, List.map_map]
  congr 1
  refine List.map_congr_left fun w _ => ?_
  have hplace : ctEntryOffset x + 4 + 4 * w = (Region.ct x.toNat (w + 1)).offset := by
    simp only [ctEntryOffset, Region.offset]
    omega
  simp only [Function.comp_apply, hplace]

theorem Region.writable_ct (p : Params) {x w : Nat} (hx : x < 256) (hw : w < 16) : (Region.ct x w).Writable p where
  inside := by simp only [Region.offset, Config.addressSpace]; omega
  aligned := by simp only [Region.offset]; omega
  notCtrl := by simp only [Region.offset, ctrlOffset]; omega
  mapped := regionOf_ct p hx hw
  notDt _ _ := Region.noConfusion

theorem State.writeAll_setcodeWrites (s : State) (x : Byte) (L : BitVec 8) (c : BitVec 256) :
    s.writeAll (setcodeWrites x L c) = s.withCt (s.ct.setcode x L c) := by
  have hwords (l : List Nat) : ∀ u : State, (l.map fun w => (Region.ct x.toNat (w + 1), codeWord c w)).foldl
      (fun u a => u.writeRegion a.2 a.1) u =
        u.withCt (l.foldl (fun ct w => ct.hostWrite x.toNat (w + 1) (codeWord c w)) u.ct) := by
    induction l with
    | nil => exact fun _ => rfl
    | cons w l ih => exact fun u => ih _
  exact hwords _ _

/-! ## LOADSRC -/

theorem lane_eq {v : Word} {k : Nat} {b : Byte} (h : ∀ i < 8, v.getLsbD (8 * k + i) = b.getLsbD i) : lane v k = b := by
  refine BitVec.eq_of_getLsbD_eq fun i hi => ?_
  rw [lane, BitVec.getLsbD_extractLsb', h i hi]
  simp only [hi, decide_true, Bool.true_and]

/-- Lane `k` of the word `i` of a list is its byte `4 i + k` (20_memory.md R75). -/
theorem lane_loadWord (bytes : List Byte) (i : Nat) {k : Nat} (hk : k < 4) :
    lane (loadWord bytes i) k = bytes.getD (4 * i + k) 0 := by
  refine lane_eq fun j hj => ?_
  rw [loadWord, wordOfLanes, BitVec.getLsbD_append, BitVec.getLsbD_append, BitVec.getLsbD_append]
  interval_cases k
  · rw [if_pos (by omega), Nat.mul_zero, Nat.zero_add]; rfl
  · rw [if_neg (by omega), if_pos (by omega), show 8 * 1 + j - 8 = j by omega]
  · rw [if_neg (by omega), if_neg (by omega), if_pos (by omega), show 8 * 2 + j - 8 - 8 = j by omega]
  · rw [if_neg (by omega), if_neg (by omega), if_neg (by omega), show 8 * 3 + j - 8 - 8 - 8 = j by omega]

/-- A buffer after the first `n` words of a list are written. -/
def Memory.loadWords (size : Nat) (m : Memory 8) (bytes : List Byte) (n : Nat) : Memory 8 :=
  (List.range n).foldl (fun m i => m.writeLanes size (4 * i) (loadWord bytes i)) m

theorem Memory.read_loadWords {size : Nat} (m : Memory 8) (bytes : List Byte) {n : Nat} (h : 4 * n ≤ size) (j : Nat) :
    (m.loadWords size bytes n).read j = if j < 4 * n then bytes.getD j 0 else m.read j := by
  induction n with
  | zero => rw [if_neg (by omega)]; rfl
  | succ n ih =>
    have hsucc : m.loadWords size bytes (n + 1) =
        (m.loadWords size bytes n).writeLanes size (4 * n) (loadWord bytes n) := by
      rw [Memory.loadWords, List.range_succ, List.foldl_append]
      rfl
    rw [hsucc, Memory.read_writeLanes _ _ (by omega), ih (by omega)]
    by_cases hlast : 4 * n ≤ j ∧ j < 4 * n + 4
    · rw [if_pos hlast, if_pos (by omega), lane_loadWord bytes n (by omega), Nat.add_sub_cancel' hlast.1]
    · have hlt : j < 4 * (n + 1) ↔ j < 4 * n := by omega
      rw [if_neg hlast]
      simp only [hlt]

/-- The writes of LOADSRC, by region. -/
def loadsrcWrites (bytes : List Byte) : List (Region × Word) :=
  ((List.range ((bytes.length + 3) / 4)).map fun i => (.src (4 * i), loadWord bytes i))
    ++ [(.reg 0x018, Word.ofNat bytes.length)]

theorem loadsrc_events (p : Params) (bytes : List Byte) :
    (Pseudo.loadsrc bytes).events p = writeEvents p (loadsrcWrites bytes) := by
  simp only [Pseudo.events, Pseudo.writes, writeEvents, loadsrcWrites, List.map_append, List.map_map]
  rfl

/-- A block after LOADSRC: its words in SRC and its length in SRC_LEN. -/
theorem State.writeAll_loadsrcWrites (s : State) (bytes : List Byte) :
    s.writeAll (loadsrcWrites bytes) =
      (s.withSrc (s.src.loadWords s.params.srcDepth bytes ((bytes.length + 3) / 4))).withRegs
        { s.regs with srcLen := Word.ofNat bytes.length } := by
  have hwords (l : List Nat) : ∀ u : State, (l.map fun i => (Region.src (4 * i), loadWord bytes i)).foldl
      (fun u a => u.writeRegion a.2 a.1) u =
        u.withSrc (l.foldl (fun m i => m.writeLanes u.params.srcDepth (4 * i) (loadWord bytes i)) u.src) := by
    induction l with
    | nil => exact fun _ => rfl
    | cons i l ih => exact fun u => ih _
  rw [State.writeAll, loadsrcWrites, List.foldl_append, hwords]
  rfl

theorem Region.writable_srcLen (p : Params) : (Region.reg 0x018).Writable p :=
  ⟨by decide, by decide, by decide, regionOf_reg p (by decide), fun _ _ => Region.noConfusion⟩

theorem loadsrcWrites_writable {p : Params} (hp : p.ok = true) {bytes : List Byte} (h : bytes.length ≤ p.srcDepth) :
    ∀ a ∈ loadsrcWrites bytes, a.1.Writable p := by
  obtain ⟨hmod, -, hmax⟩ := Params.srcDepth_ok hp
  refine List.forall_mem_append.2 ⟨fun a ha => ?_, List.forall_mem_singleton.2 ?_⟩
  · obtain ⟨i, hi, rfl⟩ := List.mem_map.1 ha
    rw [List.mem_range] at hi
    exact
      { inside := by simp only [Region.offset, Config.addressSpace]; omega
        aligned := by simp only [Region.offset]; omega
        notCtrl := by simp only [Region.offset, ctrlOffset]; omega
        mapped := regionOf_src p (by omega)
        notDt := fun _ _ => Region.noConfusion }
  · exact Region.writable_srcLen p

/-! ## Both -/

theorem setcode_loads {x : Byte} {L : BitVec 8} {c : BitVec 256} (hb : s.busy = false) (hrst : s.port.rst = false)
    (hin : s.port.inputs = (Pseudo.setcode x L c).events s.params) :
    ∃ p : Port, p.inputs = [] ∧ Runs s.port.inputs.length s ((s.withCt (s.ct.setcode x L c)).withPort p) := by
  have hL := L.isLt
  have hwritable : ∀ a ∈ setcodeWrites x L c, a.1.Writable s.params := by
    refine List.forall_mem_cons.2 ⟨Region.writable_ct _ x.isLt (by decide), fun a ha => ?_⟩
    obtain ⟨w, hw, rfl⟩ := List.mem_map.1 ha
    rw [List.mem_range] at hw
    exact Region.writable_ct _ x.isLt (by omega)
  rw [setcode_events] at hin
  obtain ⟨p, hp, hrun⟩ := Runs.writeAll _ hb hrst hin hwritable
  rw [State.writeAll_setcodeWrites] at hrun
  exact ⟨p, hp, by rwa [hin, writeEvents, List.length_map]⟩

theorem loadsrc_loads {bytes : List Byte} (hok : s.params.ok = true) (hb : s.busy = false) (hrst : s.port.rst = false)
    (hlen : bytes.length ≤ s.params.srcDepth) (hin : s.port.inputs = (Pseudo.loadsrc bytes).events s.params) :
    ∃ p : Port, p.inputs = [] ∧ Runs s.port.inputs.length s
      (((s.withSrc (s.src.loadWords s.params.srcDepth bytes ((bytes.length + 3) / 4))).withRegs
        { s.regs with srcLen := Word.ofNat bytes.length }).withPort p) := by
  rw [loadsrc_events] at hin
  obtain ⟨p, hp, hrun⟩ := Runs.writeAll _ hb hrst hin (loadsrcWrites_writable hok hlen)
  rw [State.writeAll_loadsrcWrites] at hrun
  exact ⟨p, hp, by rwa [hin, writeEvents, List.length_map]⟩

/-- Settles O51: each list of writes runs to its effect, which is `CodeTable.setcode` or `Memory.loadWords`. -/
theorem setcodeAndLoadsrcLoad : Obligations.SetcodeAndLoadsrcLoad := by
  refine ⟨fun s x L c hb hrst hin => ?_, fun s bytes hok hb hrst hlen hin => ?_⟩
  · obtain ⟨p, hp, hrun⟩ := setcode_loads hb hrst hin
    have hother {y : Nat} (hy : y ≠ x.toNat) : (s.ct.setcode x L c).lenOf y = s.ct.lenOf y := by
      rw [CodeTable.lenOf_setcode, if_neg hy]
    refine ⟨_, hrun, hp, ?_, ?_, CodeTable.codeBits_setcode _ _ _ _, fun y hy => ⟨?_, hother hy, ?_⟩,
      rfl, rfl, rfl, rfl, rfl, rfl⟩
    · exact (CodeTable.isValid_setcode _ _ _ _ _).trans (if_pos rfl)
    · exact (CodeTable.lenOf_setcode _ _ _ _ _).trans (if_pos rfl)
    · exact (CodeTable.isValid_setcode _ _ _ _ _).trans (if_neg hy)
    · exact CodeTable.codeBits_congr (hother hy) fun u hu =>
        (CodeTable.wordOf_setcode _ _ _ _ _ hu).trans (if_neg fun h => hy h.1)
  · obtain ⟨hmod, -, hmax⟩ := Params.srcDepth_ok hok
    obtain ⟨p, hp, hrun⟩ := loadsrc_loads hok hb hrst hlen hin
    have hread (j : Nat) := Memory.read_loadWords (size := s.params.srcDepth) s.src bytes
      (n := (bytes.length + 3) / 4) (by omega) j
    refine ⟨_, hrun, hp, ?_, rfl, fun i hi => (hread i).trans (if_neg (by omega)), rfl, rfl, rfl, rfl, rfl⟩
    refine State.message_eq ?_ fun i hi => ?_
    · exact (BitVec.toNat_ofNat _ _).trans (Nat.mod_eq_of_lt (by omega))
    · refine (hread i).trans ?_
      rw [if_pos (by omega), List.getD_eq_getElem _ _ hi]

end Sys2Proof.Machine
end
